-- ==== Sys2Proof/Word.lean ====
section
/-! DEFINITION. The widths of the synthesis block's words (spec 00_scope.md R9, R10; 20_memory.md R87) and the
binary64 constants its rules write as literals, each as its IEEE 754 bit pattern. The arithmetic on `F64` stands in
`Machine/Float.lean`: the integer operations of `BitVec` are never used on an `F64`. -/

namespace Sys2Proof

/-- One byte of a command word as a transport carries it (R87). -/
abbrev Byte := BitVec 8

/-- One 128-bit command word (R110). -/
abbrev CmdWord := BitVec 128

/-- A binary64 value, as its 64-bit pattern: sign 63, biased exponent 62:52, fraction 51:0 (R10, R87). -/
abbrev F64 := BitVec 64

/-- A u64 sample count: TICK and the envelope timestamps (R30, R170). -/
abbrev Stamp := BitVec 64

/-- A MIDI pitch 0..127, the spec's u7 (R44, R45). -/
abbrev Pitch := Fin 128

/-- +0.0 -/
abbrev fpZero : F64 := 0x0000000000000000#64
/-- 1.0 -/
abbrev fpOne : F64 := 0x3FF0000000000000#64
/-- −1.0 -/
abbrev fpMinusOne : F64 := 0xBFF0000000000000#64
/-- 2.0 -/
abbrev fpTwo : F64 := 0x4000000000000000#64
/-- −20.0 -/
abbrev fpMinusTwenty : F64 := 0xC034000000000000#64
/-- 0.05, rounded -/
abbrev fp005 : F64 := 0x3FA999999999999A#64
/-- 0.1, rounded -/
abbrev fp01 : F64 := 0x3FB999999999999A#64
/-- 0.15, rounded -/
abbrev fp015 : F64 := 0x3FC3333333333333#64
/-- 12.0 -/
abbrev fpTwelve : F64 := 0x4028000000000000#64
/-- 100.0 -/
abbrev fpHundred : F64 := 0x4059000000000000#64
/-- 440.0 (R147 gives the pattern) -/
abbrev fp440 : F64 := 0x407B800000000000#64
/-- 880.0 (R147 gives the pattern) -/
abbrev fp880 : F64 := 0x408B800000000000#64
/-- 1024.0 -/
abbrev fp1024 : F64 := 0x4090000000000000#64
/-- 8192.0 -/
abbrev fp8192 : F64 := 0x40C0000000000000#64
/-- 48000.0 -/
abbrev fp48000 : F64 := 0x40E7700000000000#64
/-- +∞ -/
abbrev fpInf : F64 := 0x7FF0000000000000#64
/-- The binary64 value nearest π (R141 gives the pattern). -/
abbrev fpPi : F64 := 0x400921FB54442D18#64

end Sys2Proof
end

