-- ==== Sys2Proof/Syntax.lean ====
section
/-! DEFINITION. The 20 commands of the opcode map (30_encoding.md R114), one constructor per row. A command carries
the operand fields its row uses, as the raw bits of the word (R112): substitution and clamping are part of its meaning.
A field the row does not use is ignored (R111), so no constructor carries it. -/

namespace Sys2Proof

inductive Instr where
  /-- BYPASS i, flag (R230) -/
  | bypass (osc flag : BitVec 8)
  /-- COARSE i, semitones (R231) -/
  | coarse (osc : BitVec 8) (val : F64)
  /-- FINE i, cents (R232) -/
  | fine (osc : BitVec 8) (val : F64)
  /-- FMRANGE i, depth (R233) -/
  | fmrange (osc : BitVec 8) (val : F64)
  /-- FREQ i, Hz (R234) -/
  | freq (osc : BitVec 8) (val : F64)
  /-- GAIN i, dB (R235) -/
  | gain (osc : BitVec 8) (val : F64)
  /-- PITCHMODE i, mode (R236) -/
  | pitchmode (osc mode : BitVec 8)
  /-- OUTPUT i, target kind, target index (R237) -/
  | output (osc kind target : BitVec 8)
  /-- WAVEFORM i, waveform (R238) -/
  | waveform (osc wave : BitVec 8)
  /-- ATTACK seconds (R270) -/
  | attack (val : F64)
  /-- DECAY seconds (R271) -/
  | decay (val : F64)
  /-- SUSTAIN level (R272) -/
  | sustain (val : F64)
  /-- RELEASE seconds (R273) -/
  | release (val : F64)
  /-- MASTER dB (R274) -/
  | master (val : F64)
  /-- MIXERMODE mode (R275) -/
  | mixermode (mode : BitVec 8)
  /-- NOTEON pitch, velocity (R291) -/
  | noteon (pitch velocity : BitVec 8)
  /-- NOTEOFF pitch (R292) -/
  | noteoff (pitch : BitVec 8)
  /-- PITCHBEND lsb, msb (R293) -/
  | pitchbend (lsb msb : BitVec 8)
  /-- RESETMIDI (R310) -/
  | resetmidi
  /-- QUIT (R311) -/
  | quit
  deriving DecidableEq, Repr

/-- The command's opcode number in the map of R114. -/
def Instr.opcode : Instr → BitVec 8
  | .bypass _ _ => 0x01
  | .coarse _ _ => 0x02
  | .fine _ _ => 0x03
  | .fmrange _ _ => 0x04
  | .freq _ _ => 0x05
  | .gain _ _ => 0x06
  | .pitchmode _ _ => 0x07
  | .output _ _ _ => 0x08
  | .waveform _ _ => 0x09
  | .attack _ => 0x0A
  | .decay _ => 0x0B
  | .sustain _ => 0x0C
  | .release _ => 0x0D
  | .master _ => 0x0E
  | .mixermode _ => 0x0F
  | .noteon _ _ => 0x10
  | .noteoff _ => 0x11
  | .pitchbend _ _ => 0x12
  | .resetmidi => 0x13
  | .quit => 0x14

/-- The oscillator index of an oscillator command (R113 check 3: opcodes 0x01 to 0x09). -/
def Instr.oscIndex : Instr → Option (BitVec 8)
  | .bypass i _ => some i
  | .coarse i _ => some i
  | .fine i _ => some i
  | .fmrange i _ => some i
  | .freq i _ => some i
  | .gain i _ => some i
  | .pitchmode i _ => some i
  | .output i _ _ => some i
  | .waveform i _ => some i
  | .attack _ => none
  | .decay _ => none
  | .sustain _ => none
  | .release _ => none
  | .master _ => none
  | .mixermode _ => none
  | .noteon _ _ => none
  | .noteoff _ => none
  | .pitchbend _ _ => none
  | .resetmidi => none
  | .quit => none

/-- The value operand of a command that takes VAL (R113 check 4: opcodes 0x02 to 0x06 and 0x0A to 0x0E). -/
def Instr.value : Instr → Option F64
  | .bypass _ _ => none
  | .coarse _ v => some v
  | .fine _ v => some v
  | .fmrange _ v => some v
  | .freq _ v => some v
  | .gain _ v => some v
  | .pitchmode _ _ => none
  | .output _ _ _ => none
  | .waveform _ _ => none
  | .attack v => some v
  | .decay v => some v
  | .sustain v => some v
  | .release v => some v
  | .master v => some v
  | .mixermode _ => none
  | .noteon _ _ => none
  | .noteoff _ => none
  | .pitchbend _ _ => none
  | .resetmidi => none
  | .quit => none

end Sys2Proof
end

