-- ==== Sys2Proof/Decode.lean ====
section
/-! DEFINITION. Command words and commands (30_encoding.md): the fields of R110, the decoder of R113 checks 1 and 2
with the map of R114, the byte order of 20_memory.md R87, and the encoder of R121. -/

namespace Sys2Proof

/-- Why a command word stands for no command. -/
inductive DecodeError where
  /-- Not 16 bytes: a transport has delivered no command (R88). -/
  | notSixteenBytes
  /-- RSV is not zero (R116). -/
  | malformed
  /-- An opcode outside the map (R117). -/
  | reserved (opc : BitVec 8)
  deriving DecidableEq, Repr

/-- OPC, bits [7:0]. -/
def fieldOPC (w : CmdWord) : BitVec 8 := w.extractLsb' 0 8
/-- OSC, bits [15:8]. -/
def fieldOSC (w : CmdWord) : BitVec 8 := w.extractLsb' 8 8
/-- A, bits [23:16]. -/
def fieldA (w : CmdWord) : BitVec 8 := w.extractLsb' 16 8
/-- B, bits [31:24]. -/
def fieldB (w : CmdWord) : BitVec 8 := w.extractLsb' 24 8
/-- RSV, bits [63:32]. -/
def fieldRSV (w : CmdWord) : BitVec 32 := w.extractLsb' 32 32
/-- VAL, bits [127:64]; the pattern is not converted (R112). -/
def fieldVAL (w : CmdWord) : F64 := w.extractLsb' 64 64

/-- The command an opcode of the map stands for, with the fields its row uses (R114). -/
def decodeOpcode (w : CmdWord) : Option Instr :=
  match (fieldOPC w).toNat with
  | 0x01 => some (.bypass (fieldOSC w) (fieldA w))
  | 0x02 => some (.coarse (fieldOSC w) (fieldVAL w))
  | 0x03 => some (.fine (fieldOSC w) (fieldVAL w))
  | 0x04 => some (.fmrange (fieldOSC w) (fieldVAL w))
  | 0x05 => some (.freq (fieldOSC w) (fieldVAL w))
  | 0x06 => some (.gain (fieldOSC w) (fieldVAL w))
  | 0x07 => some (.pitchmode (fieldOSC w) (fieldA w))
  | 0x08 => some (.output (fieldOSC w) (fieldA w) (fieldB w))
  | 0x09 => some (.waveform (fieldOSC w) (fieldA w))
  | 0x0A => some (.attack (fieldVAL w))
  | 0x0B => some (.decay (fieldVAL w))
  | 0x0C => some (.sustain (fieldVAL w))
  | 0x0D => some (.release (fieldVAL w))
  | 0x0E => some (.master (fieldVAL w))
  | 0x0F => some (.mixermode (fieldA w))
  | 0x10 => some (.noteon (fieldA w) (fieldB w))
  | 0x11 => some (.noteoff (fieldA w))
  | 0x12 => some (.pitchbend (fieldA w) (fieldB w))
  | 0x13 => some .resetmidi
  | 0x14 => some .quit
  | _ => none

/-- The command a word stands for: RSV is checked first, then the opcode (R113, R118). -/
def decode (w : CmdWord) : Except DecodeError Instr :=
  if fieldRSV w ≠ 0 then .error .malformed
  else
    match decodeOpcode w with
    | some i => .ok i
    | none => .error (.reserved (fieldOPC w))

/-- The 16 bytes of a word in port order, the least significant first (R87). -/
def portBytes (w : CmdWord) : List Byte := (List.range 16).map fun b => w.extractLsb' (8 * b) 8

/-- The number that bytes make, the first the least significant. -/
def bytesToNat : List Byte → Nat
  | [] => 0
  | b :: bs => b.toNat + 256 * bytesToNat bs

/-- The word that exactly 16 bytes carry; a transport that delivers any other number has delivered no command word
(R87, R88). -/
def wordOfBytes (bs : List Byte) : Option CmdWord :=
  if bs.length = 16 then some (BitVec.ofNat 128 (bytesToNat bs)) else none

/-- The command that a transport's bytes stand for. -/
def decodeBytes (bs : List Byte) : Except DecodeError Instr :=
  match wordOfBytes bs with
  | some w => decode w
  | none => .error .notSixteenBytes

/-- The word with these fields and RSV = 0 (R110). -/
def packWord (opc osc a b : BitVec 8) (val : F64) : CmdWord :=
  (val ++ (0 : BitVec 32) ++ b ++ a ++ osc ++ opc : BitVec (64 + 32 + 8 + 8 + 8 + 8))

/-- The word of a command; unused fields are encoded as zero (R121). -/
def encode : Instr → CmdWord
  | .bypass i a => packWord 0x01 i a 0 0
  | .coarse i v => packWord 0x02 i 0 0 v
  | .fine i v => packWord 0x03 i 0 0 v
  | .fmrange i v => packWord 0x04 i 0 0 v
  | .freq i v => packWord 0x05 i 0 0 v
  | .gain i v => packWord 0x06 i 0 0 v
  | .pitchmode i a => packWord 0x07 i a 0 0
  | .output i a b => packWord 0x08 i a b 0
  | .waveform i a => packWord 0x09 i a 0 0
  | .attack v => packWord 0x0A 0 0 0 v
  | .decay v => packWord 0x0B 0 0 0 v
  | .sustain v => packWord 0x0C 0 0 0 v
  | .release v => packWord 0x0D 0 0 0 v
  | .master v => packWord 0x0E 0 0 0 v
  | .mixermode a => packWord 0x0F 0 a 0 0
  | .noteon p vel => packWord 0x10 0 p vel 0
  | .noteoff p => packWord 0x11 0 p 0 0
  | .pitchbend l m => packWord 0x12 0 l m 0
  | .resetmidi => packWord 0x13 0 0 0 0
  | .quit => packWord 0x14 0 0 0 0

/-- OPC and RSV, which every row checks (the mask of R114). -/
def rowMask : CmdWord := 0xFFFFFFFF000000FF
/-- The bits of OSC. -/
def oscMask : CmdWord := 0xFF00
/-- The bits of A. -/
def aMask : CmdWord := 0xFF0000
/-- The bits of B. -/
def bMask : CmdWord := 0xFF000000
/-- The bits of VAL. -/
def valMask : CmdWord := 0xFFFFFFFFFFFFFFFF0000000000000000

/-- The bits of the word that a command's row uses (R111, R114); the others are ignored. -/
def Instr.usedMask : Instr → CmdWord
  | .bypass _ _ => rowMask ||| oscMask ||| aMask
  | .coarse _ _ => rowMask ||| oscMask ||| valMask
  | .fine _ _ => rowMask ||| oscMask ||| valMask
  | .fmrange _ _ => rowMask ||| oscMask ||| valMask
  | .freq _ _ => rowMask ||| oscMask ||| valMask
  | .gain _ _ => rowMask ||| oscMask ||| valMask
  | .pitchmode _ _ => rowMask ||| oscMask ||| aMask
  | .output _ _ _ => rowMask ||| oscMask ||| aMask ||| bMask
  | .waveform _ _ => rowMask ||| oscMask ||| aMask
  | .attack _ => rowMask ||| valMask
  | .decay _ => rowMask ||| valMask
  | .sustain _ => rowMask ||| valMask
  | .release _ => rowMask ||| valMask
  | .master _ => rowMask ||| valMask
  | .mixermode _ => rowMask ||| aMask
  | .noteon _ _ => rowMask ||| aMask ||| bMask
  | .noteoff _ => rowMask ||| aMask
  | .pitchbend _ _ => rowMask ||| aMask ||| bMask
  | .resetmidi => rowMask
  | .quit => rowMask

/-- The word whose low `nbits` bits are those of `w` and whose other bits are zero. -/
def tableWord (nbits w : Nat) : CmdWord := BitVec.ofNat 128 (w % 2 ^ nbits)

/-- The instruction the decoder reads from a row's word, laid out as the port's bytes. -/
def decodeTableWord (nbits w : Nat) : Option Instr :=
  match decodeBytes (portBytes (tableWord nbits w)) with
  | .ok i => some i
  | .error _ => none

end Sys2Proof
end

