-- ==== Sys2Proof/Config.lean ====
section
/-! DEFINITION. What the spec leaves to an implementation (00_scope.md R7, R8; 93_implementation_defined.md).
The OPEN parameters with no register of their own are the plain record `Params`, which State carries and no step
writes: a claim about every state is a claim about every parameter. The numeric functions and the other open values
are opaque constants with no body: nothing can be proved of their values. -/

namespace Sys2Proof

/-- The OPEN parameters of R7 that no register holds. N_OSC is the length of State's oscillator bank, and the LEGATO
parameters are the amplifiers' LEGATO registers (10_state.md R36, R45). -/
structure Params where
  /-- HEADROOM, the factor of R205. -/
  headroom : F64
  /-- CMD_DEPTH, the FIFO's capacity (R83). -/
  cmdDepth : Nat
  /-- PB_RANGE, in semitones (R293). -/
  pbRange : F64
  deriving DecidableEq, Repr

/-- The binary64 operations that can produce a NaN, as the index of its free bits. -/
inductive FOp where
  | add | sub | mul | div | floor
  deriving DecidableEq, Repr

/-- The sign and payload of a NaN that an operation delivers: a free value (R10 fixes the operations, not the bits of
a NaN). Log entry 5. -/
opaque Config.nanBits : FOp → F64 → F64 → F64

/-- `sin` away from +0.0 (R8: a configuration function). Log entry 6. -/
opaque Config.sinFree : F64 → F64

/-- `asin` away from +0.0 (R8: a configuration function). Log entry 6. -/
opaque Config.asinFree : F64 → F64

/-- `exp2` away from zero (R8: a configuration function). Log entry 7. -/
opaque Config.exp2Free : F64 → F64

/-- `db_to_amp` away from +0.0, before the range of db_to_amp(−20.0) is enforced (R8: a configuration function). Log
entries 7 and 20. -/
opaque Config.dbToAmpFree : F64 → F64

/-- The noise draw of each count, before its range is enforced (R144: a free input). Log entry 8. -/
opaque Config.noise : Nat → F64

/-- The elapsed time of a timestamp that is NONE, which R170 does not define; no reachable state reads it.
Log entry 9. -/
opaque Config.elapsedOfNone : Stamp → F64

/-- The table index of a non-finite phase, which R145 does not define; no reachable state reads it. Log entry 9. -/
opaque Config.indexOfNonFinite : F64 → Nat

/-- `L`, the wavetable length (R7). -/
abbrev tableLength : Nat := 1024

/-- `N_HARM`, the harmonics summed for Saw (R7). -/
abbrev harmonics : Nat := 40

end Sys2Proof
end

