-- ==== Sys2Proof/Machine/Float.lean ====
section
/-! DEFINITION. The IEEE 754 binary64 operations of 00_scope.md R10: round to nearest, ties to even, subnormals kept,
no exception flags. Every finite value is a whole number of units of 2^-1074, so each operation is computed exactly on
integers and rounded once, by `fRound`. -/

namespace Sys2Proof.Machine

/-- The sign bit. -/
def fSign (x : F64) : Bool := x.getLsbD 63

/-- The biased exponent field, bits 62:52. -/
def fExp (x : F64) : Nat := x.toNat / 2 ^ 52 % 2 ^ 11

/-- The fraction field, bits 51:0. -/
def fFrac (x : F64) : Nat := x.toNat % 2 ^ 52

/-- `isfinite(x)` of R10: neither NaN nor an infinity. -/
def fIsFinite (x : F64) : Bool := fExp x != 2047

/-- NaN. -/
def fIsNaN (x : F64) : Bool := fExp x == 2047 && fFrac x != 0

/-- ±∞. -/
def fIsInf (x : F64) : Bool := fExp x == 2047 && fFrac x == 0

/-- ±0.0. -/
def fIsZero (x : F64) : Bool := x.toNat % 2 ^ 63 == 0

/-- The significand of a finite value, with the hidden bit of a normal one. -/
def fSig (x : F64) : Nat := if fExp x = 0 then fFrac x else 2 ^ 52 + fFrac x

/-- The magnitude of a finite value, in units of 2^-1074. -/
def fMag (x : F64) : Nat := fSig x * 2 ^ (fExp x - 1)

/-- A finite value, in units of 2^-1074. -/
def fVal (x : F64) : Int := if fSign x then -(fMag x : Int) else (fMag x : Int)

/-- 1.0 in the units of `fVal`. -/
def fUnit : Nat := 2 ^ 1074

/-- The sign bit put in front of 63 magnitude bits. -/
def fPack (neg : Bool) (mag : Nat) : F64 := BitVec.ofNat 64 (if neg then 2 ^ 63 + mag else mag)

/-- A quotient of naturals rounded to the nearest integer, ties to even. -/
def roundHalfEven (n d : Nat) : Nat :=
  let q := n / d
  let r := n % d
  if d < 2 * r ∨ (2 * r = d ∧ q % 2 = 1) then q + 1 else q

/-- The number of low bits a magnitude drops to keep 53 significant ones. -/
def roundShift (n d : Nat) : Nat := Nat.log2 (n / d) - 52

/-- The 63 magnitude bits nearest n/d units of 2^-1074, ties to even; an overflow is the pattern of ∞. -/
def roundMag (n d : Nat) : Nat :=
  let k := roundShift n d
  min (k * 2 ^ 52 + roundHalfEven n (d * 2 ^ k)) (2047 * 2 ^ 52)

/-- Rounding of the exact result ±n/d, in units of 2^-1074 (R10: to nearest, ties to even). -/
def fRound (neg : Bool) (n d : Nat) : F64 := fPack neg (roundMag n d)

/-- A quiet NaN whose sign and payload are free. -/
def fNaN (op : FOp) (x y : F64) : F64 := Config.nanBits op x y ||| 0x7FF8000000000000#64

/-- ±∞. -/
def fInfinity (neg : Bool) : F64 := fPack neg (2047 * 2 ^ 52)

/-- The value with its sign bit inverted. -/
def fNeg (x : F64) : F64 := x ^^^ 0x8000000000000000#64

/-- The sum of two values that are not NaN and not opposite infinities. -/
def fAddOrdered (x y : F64) : F64 :=
  if fIsInf x then x
  else if fIsInf y then y
  else
    let z := fVal x + fVal y
    if z = 0 then fPack (fSign x && fSign y) 0 else fRound (decide (z < 0)) z.natAbs 1

/-- `x + y`. -/
def fAdd (x y : F64) : F64 :=
  if fIsNaN x || fIsNaN y || (fIsInf x && fIsInf y && fSign x != fSign y) then fNaN .add x y
  else fAddOrdered x y

/-- `x − y`. -/
def fSub (x y : F64) : F64 :=
  if fIsNaN x || fIsNaN y || (fIsInf x && fIsInf y && fSign x == fSign y) then fNaN .sub x y
  else fAddOrdered x (fNeg y)

/-- `x × y`. -/
def fMul (x y : F64) : F64 :=
  let neg := fSign x != fSign y
  if fIsNaN x || fIsNaN y || (fIsInf x && fIsZero y) || (fIsZero x && fIsInf y) then fNaN .mul x y
  else if fIsInf x || fIsInf y then fInfinity neg
  else fRound neg (fMag x * fMag y) fUnit

/-- `x / y`. -/
def fDiv (x y : F64) : F64 :=
  let neg := fSign x != fSign y
  if fIsNaN x || fIsNaN y || (fIsInf x && fIsInf y) || (fIsZero x && fIsZero y) then fNaN .div x y
  else if fIsInf x || fIsZero y then fInfinity neg
  else if fIsInf y then fPack neg 0
  else fRound neg (fMag x * fUnit) (fMag y)

/-- The integer `floor(x)` of a finite value. -/
def fFloorInt (x : F64) : Int := fVal x / (fUnit : Int)

/-- `floor(x)`; a zero result keeps the sign of x (log entry 14). -/
def fFloor (x : F64) : F64 :=
  if fIsNaN x then fNaN .floor x x
  else if fIsInf x then x
  else
    let k := fFloorInt x
    if k = 0 then fPack (fSign x) 0 else fRound (decide (k < 0)) (k.natAbs * fUnit) 1

/-- The place of a value that is not NaN in the order of the reals, with −0.0 and +0.0 at one place. -/
def fKey (x : F64) : Int :=
  if fSign x then -((x.toNat % 2 ^ 63 : Nat) : Int) else ((x.toNat % 2 ^ 63 : Nat) : Int)

/-- `x < y`: false with a NaN. -/
def fLt (x y : F64) : Bool := !fIsNaN x && !fIsNaN y && decide (fKey x < fKey y)

/-- `x ≤ y`: false with a NaN. -/
def fLe (x y : F64) : Bool := !fIsNaN x && !fIsNaN y && decide (fKey x ≤ fKey y)

/-- `x == y`: false with a NaN, and +0.0 == −0.0. -/
def fEq (x y : F64) : Bool := !fIsNaN x && !fIsNaN y && decide (fKey x = fKey y)

/-- A free value kept in the range `lo ≤ v < hi` that the spec gives it: one outside stands for `inner`, a value of the
range. -/
def fWithin (lo hi inner v : F64) : F64 := if fLe lo v && fLt v hi then v else inner

/-- `float(n)` of an integer. -/
def fOfInt (n : Int) : F64 := fRound (decide (n < 0)) (n.natAbs * fUnit) 1

/-- `float(n)` of a natural number. -/
def fOfNat (n : Nat) : F64 := fRound false (n * fUnit) 1

end Sys2Proof.Machine
end

