-- ==== Sys2Proof/Machine/State.lean ====
section
/-! DEFINITION. The architectural state of the synthesis block (10_state.md), as plain data, its reset value (R63),
and the reasons a step can stop. -/

namespace Sys2Proof.Machine

/-- A fault stops the machine. The block has none: no command and no tick raises an exception or traps, and a model
has no fault outcome (60_exceptions.md R330, R343). The type is empty, which is exact: neither safe nor unsafe. -/
inductive Fault where
  deriving DecidableEq, Repr

/-- A refusal: the spec gives the step no meaning. -/
inductive Refusal where
  /-- Raised by an arm of `exec` for an instruction that has no meaning yet. Safe. -/
  | notModelled (mnemonic : String)
  /-- Raised by a reset whose sample-rate input is not finite and positive (R32, R343, R360). Safe: the spec says a
  model refuses it. -/
  | badSampleRate
  /-- Raised by a reset of a block whose parameters are outside R7: N_OSC outside 1..256, HEADROOM not finite, or
  CMD_DEPTH = 0 (R343; 93_implementation_defined.md items 3 to 5; log entry 12). Safe: the spec says a model refuses them. -/
  | badConfiguration
  deriving DecidableEq, Repr

/-- CONST or MIDI: the pitch mode PMODE of an oscillator (R37) and the mixer mode MMODE (R49). -/
inductive Mode where
  | const
  | midi
  deriving DecidableEq, Repr

/-- The waveform WAVE of an oscillator (R37, R115). -/
inductive Waveform where
  | noise
  | saw
  | sine
  | square
  | triangle
  deriving DecidableEq, Repr

/-- The output target OUT of an oscillator (R37). -/
inductive Target where
  | master
  | osc (j : Nat)
  deriving DecidableEq, Repr

/-- The envelope state ESTATE (R46). -/
inductive EnvState where
  | idle
  | attack
  | decay
  | sustain
  | release
  deriving DecidableEq, Repr

/-- An amplifier instance (R45): `osc[i].amp`, or `master.amp`. -/
structure Amplifier where
  /-- ENV_A, attack in seconds -/
  envA : F64
  /-- ENV_D, decay in seconds -/
  envD : F64
  /-- ENV_S, sustain level -/
  envS : F64
  /-- ENV_R, release in seconds -/
  envR : F64
  /-- GAIN_DB -/
  gainDb : F64
  /-- GAIN -/
  gain : F64
  /-- HELD, a set of pitches: strictly ascending (its order is not observable, R173) -/
  held : List Pitch
  /-- LAST, the last computed amplitude -/
  last : F64
  /-- START, the attack-start timestamp, or NONE -/
  start : Option Stamp
  /-- RSTART, the release-start timestamp, or NONE -/
  rstart : Option Stamp
  /-- ESTATE -/
  estate : EnvState
  /-- LEGATO, the configuration's flag (R45, R47) -/
  legato : Bool
  deriving DecidableEq, Repr

/-- An oscillator (R37). -/
structure Oscillator where
  /-- BYPASS -/
  bypass : Bool
  /-- FREQ, in Hz -/
  freq : F64
  /-- COARSE, in semitones -/
  coarse : F64
  /-- FINE, in cents -/
  fine : F64
  /-- DETUNE, the cached multiplier -/
  detune : F64
  /-- FMRANGE -/
  fmrange : F64
  /-- PMODE -/
  pmode : Mode
  /-- WAVE -/
  wave : Waveform
  /-- PHASE, in table entries -/
  phase : F64
  /-- OUT -/
  out : Target
  /-- FMIN and FMSLOT together: a slot exists exactly while its index is in FMIN (R40), so the set FMIN is the keys;
  strictly ascending -/
  slots : List (Nat × F64)
  /-- PSTACK, most recent first -/
  pstack : List Pitch
  /-- the owned amplifier -/
  amp : Amplifier
  deriving DecidableEq, Repr

/-- FMIN, the set of modulators that feed the oscillator (R40). -/
def Oscillator.fmin (o : Oscillator) : List Nat := o.slots.map Prod.fst

/-- A step the host takes on the block (20_memory.md R82, R90). -/
inductive HostStep where
  /-- a push of a command word on the command port (R85) -/
  | push (w : CmdWord)
  /-- the tick strobe (R203) -/
  | tick
  /-- the reset input, with the sample-rate input (R360) -/
  | reset (srIn : F64)
  /-- a read of the STATUS port (R61) -/
  | readStatus
  /-- a read of the TICK port (R61) -/
  | readTick
  /-- a read of the OUT_SAMPLE port (R61) -/
  | readOutSample
  deriving DecidableEq, Repr

/-- What the block returned to the host in its last step. -/
inductive Reply where
  | none
  /-- a tick's sample (R203, R206) -/
  | sample (y : F64)
  | status (v : BitVec 8)
  | tick (n : Stamp)
  | outSample (y : F64)
  deriving DecidableEq, Repr

/-- The block's state. The oscillator bank's length is N_OSC (R36). STATUS bit 3 is the HALTED flag (R33, R60): one
storage for the flag and its mirror (log entry 4). -/
structure State where
  /-- the OPEN parameters of R7; no step writes them (log entry 2) -/
  params : Params
  /-- SR, the sample rate (R32) -/
  sr : F64
  /-- TICK (R30) -/
  tick : Stamp
  /-- PB, the pitch-bend value (R34) -/
  pb : BitVec 14
  /-- BEND, the pitch-bend multiplier (R34) -/
  bend : F64
  /-- OUT_SAMPLE (R35) -/
  outSample : F64
  /-- STATUS, with HALTED as bit 3 (R60, R33) -/
  status : BitVec 8
  /-- the command FIFO, the oldest entry first (R50) -/
  fifo : List CmdWord
  /-- MMODE (R49) -/
  mmode : Mode
  /-- the oscillator bank (R36) -/
  osc : List Oscillator
  /-- the mixer's `master.amp` (R48) -/
  master : Amplifier
  /-- the model's own: the host's steps to come, the next first (R90; log entry 3) -/
  inbox : List HostStep
  /-- the model's own: what the last step returned to the host -/
  reply : Reply
  /-- the model's own: noise draws the environment has already chosen, the next first (R144) -/
  noiseIn : List F64
  /-- the model's own: how many draws have been taken from `Config.noise` (R144) -/
  noiseCount : Nat
  deriving DecidableEq, Repr

/-- N_OSC (R36). -/
def State.nOsc (s : State) : Nat := s.osc.length

/-- The reset value of an amplifier whose configuration gives it this LEGATO flag (R45, R63). -/
def Amplifier.reset (legato : Bool) : Amplifier :=
  { envA := fpZero, envD := fpZero, envS := fpOne, envR := fpZero, gainDb := fpZero, gain := fpOne, held := [],
    last := fpZero, start := none, rstart := none, estate := .idle, legato := legato }

/-- The reset value of an oscillator whose amplifier has this LEGATO flag (R37, R63). -/
def Oscillator.reset (legato : Bool) : Oscillator :=
  { bypass := true, freq := fp440, coarse := fpZero, fine := fpZero, detune := fpOne, fmrange := fpZero,
    pmode := .const, wave := .sine, phase := fpZero, out := .master, slots := [], pstack := [],
    amp := Amplifier.reset legato }

/-- The state of R63 for given parameters, LEGATO flags (one per oscillator, then the master's) and sample rate. -/
def State.afterReset (p : Params) (legatoOsc : List Bool) (legatoMaster : Bool) (sr : F64) : State :=
  { params := p, sr := sr, tick := 0, pb := 8192, bend := fpOne, outSample := fpZero, status := 0, fifo := [],
    mmode := .const, osc := legatoOsc.map Oscillator.reset, master := Amplifier.reset legatoMaster,
    inbox := [], reply := .none, noiseIn := [], noiseCount := 0 }

/-- The parameters of the machine `State.reset` starts: DESIGN CHOICE, log entry 1. -/
def resetParams : Params := { headroom := fpOne, cmdDepth := 16, pbRange := fpTwo }

/-- The machine right after reset (R63), for one choice of the OPEN parameters: N_OSC = 3, SR = 48000.0 and
`resetParams` (DESIGN CHOICE, log entry 1). -/
def State.reset : State := State.afterReset resetParams [false, false, false] false fp48000

/-- The outcome of a step or of a meaning. -/
abbrev Result := Host.Outcome State Fault Refusal

end Sys2Proof.Machine
end

