-- ==== Sys2Proof/Machine/Operands.lean ====
section
/-! DEFINITION. Every operand form: the decoding of enumerated operands and the clamps of values, with the
substitutes and the INVALID causes of 30_encoding.md R115 and 60_exceptions.md R332. -/

namespace Sys2Proof.Machine

/-- An operand as applied, and whether it had to be clamped or substituted (STATUS.INVALID). -/
structure Operand (α : Type) where
  value : α
  invalid : Bool
  deriving DecidableEq, Repr

/-- A flag: zero is false, anything else true; 2..255 are invalid (R230). -/
def flagOperand (a : BitVec 8) : Operand Bool := ⟨a != 0, decide (1 < a.toNat)⟩

/-- A pitch or mixer mode: 0 CONST, 1 MIDI, else CONST substituted (R236, R275). -/
def modeOperand (a : BitVec 8) : Operand Mode :=
  match a.toNat with
  | 0 => ⟨.const, false⟩
  | 1 => ⟨.midi, false⟩
  | _ => ⟨.const, true⟩

/-- A waveform code, else Sine substituted (R238). -/
def waveOperand (a : BitVec 8) : Operand Waveform :=
  match a.toNat with
  | 0 => ⟨.noise, false⟩
  | 1 => ⟨.saw, false⟩
  | 2 => ⟨.sine, false⟩
  | 3 => ⟨.square, false⟩
  | 4 => ⟨.triangle, false⟩
  | _ => ⟨.sine, true⟩

/-- An output target: kind 0 Master, 1 Osc(b), else Master substituted; b is ignored unless the kind is 1 (R237). -/
def targetOperand (a b : BitVec 8) : Operand Target :=
  match a.toNat with
  | 0 => ⟨.master, false⟩
  | 1 => ⟨.osc b.toNat, false⟩
  | _ => ⟨.master, true⟩

/-- A pitch, clamped to 127 (R291, R292). -/
def pitchOperand (a : BitVec 8) : Operand Pitch :=
  ⟨Fin.ofNat 128 (min a.toNat 127), decide (127 < a.toNat)⟩

/-- A bend byte, clamped to 127 (R293). -/
def bendByteOperand (a : BitVec 8) : Operand Nat := ⟨min a.toNat 127, decide (127 < a.toNat)⟩

/-- A value clamped to +0.0 from below (R234, R270, R271, R273): −0.0 is not below. -/
def nonNegativeOperand (v : F64) : Operand F64 := if fLt v fpZero then ⟨fpZero, true⟩ else ⟨v, false⟩

/-- A level clamped into [0, 1] (R272). -/
def levelOperand (v : F64) : Operand F64 :=
  if fLt v fpZero then ⟨fpZero, true⟩ else if fLt fpOne v then ⟨fpOne, true⟩ else ⟨v, false⟩

end Sys2Proof.Machine
end

