-- ==== Sys2Proof/Machine/Envelope.lean ====
section
/-! DEFINITION. The amplifier's state machine and amplitude calculation (41_envelope_amplifier.md R170 to R179). -/

namespace Sys2Proof.Machine

/-- `held ∪ {p}`, kept strictly ascending. -/
def pitchInsert (p : Pitch) : List Pitch → List Pitch
  | [] => [p]
  | q :: l => if p < q then p :: q :: l else if p = q then q :: l else q :: pitchInsert p l

/-- `held \ {p}`; also a note stack with p removed. -/
def pitchErase (p : Pitch) (l : List Pitch) : List Pitch := l.filter (· != p)

/-- `elapsed(stamp)` in seconds (R170): the u64 difference, over the sample rate. -/
def elapsed (now : Stamp) (sr : F64) : Option Stamp → F64
  | some stamp => fDiv (fOfNat (now - stamp).toNat) sr
  | none => Config.elapsedOfNone now

/-- `amp_note_on(amp, p)` at TICK = now (R173). -/
def ampNoteOn (now : Stamp) (p : Pitch) (a : Amplifier) : Amplifier :=
  if a.held = [] then { a with held := [p], start := some now, rstart := none, estate := .attack }
  else if p ∈ a.held then a
  else if a.legato then { a with held := pitchInsert p a.held }
  else { a with held := pitchInsert p a.held, start := some now, estate := .attack }

/-- `amp_note_off(amp, p)` at TICK = now (R174): the release anchor LAST is left as it is. -/
def ampNoteOff (now : Stamp) (p : Pitch) (a : Amplifier) : Amplifier :=
  if p ∈ a.held then
    if pitchErase p a.held = [] then
      { a with held := [], start := none, rstart := some now, estate := .release }
    else { a with held := pitchErase p a.held }
  else a

/-- The amplitude and the next envelope state of one calculation. -/
structure Envelope where
  amplitude : F64
  estate : EnvState
  deriving DecidableEq, Repr

/-- The held branch of `amp_calc` at elapsed time t (R175, R178). -/
def heldEnvelope (a : Amplifier) (t : F64) : Envelope :=
  if fLe t a.envA then
    let target := if fLt fpZero a.envD then fpOne else a.envS
    ⟨if fEq a.envA fpZero then target else fMul target (fDiv t a.envA), .attack⟩
  else if fLt (fAdd a.envA a.envD) t then ⟨a.envS, .sustain⟩
  else ⟨fAdd fpOne (fMul (fSub a.envS fpOne) (fDiv (fSub t a.envA) a.envD)), .decay⟩

/-- The release branch of `amp_calc` at elapsed time t (R175, R176). -/
def releaseEnvelope (a : Amplifier) (t : F64) : Envelope :=
  if fLe a.envR t then ⟨fpZero, .idle⟩ else ⟨fMul a.last (fSub fpOne (fDiv t a.envR)), .release⟩

/-- The amplitude of one calculation, by branch (R175 to R177). -/
def envelope (now : Stamp) (sr : F64) (a : Amplifier) : Envelope :=
  if a.held ≠ [] then heldEnvelope a (elapsed now sr a.start)
  else if a.estate = .release then releaseEnvelope a (elapsed now sr a.rstart)
  else ⟨fpZero, a.estate⟩

/-- The amplifier after one `amp_calc`: ESTATE, and LAST in the held branch only (R175). -/
def ampAfterCalc (now : Stamp) (sr : F64) (a : Amplifier) : Amplifier :=
  { a with
    estate := (envelope now sr a).estate
    last := if a.held ≠ [] then (envelope now sr a).amplitude else a.last }

/-- The sample `amp_calc(amp, x)` returns: `(x × a) × GAIN` (R175, R177). -/
def ampOutput (now : Stamp) (sr : F64) (a : Amplifier) (x : F64) : F64 :=
  fMul (fMul x (envelope now sr a).amplitude) a.gain

end Sys2Proof.Machine
end

