-- ==== Sys2Proof/Machine/Flags.lean ====
section
/-! DEFINITION. The sticky bits of STATUS (10_state.md R60; 60_exceptions.md R332 to R336). A bit is only ever ORed
in; reset alone clears it. -/

namespace Sys2Proof.Machine

/-- LAG, bit 0. -/
def statusLAG : BitVec 8 := 0x01
/-- INVALID, bit 1. -/
def statusINVALID : BitVec 8 := 0x02
/-- NONFINITE, bit 2. -/
def statusNONFINITE : BitVec 8 := 0x04
/-- HALTED, bit 3. -/
def statusHALTED : BitVec 8 := 0x08

/-- `set_status` of R11: the bits of the mask are ORed into STATUS. -/
def State.setStatus (s : State) (bits : BitVec 8) : State := { s with status := s.status ||| bits }

/-- `set_status` under a condition. -/
def State.setStatusIf (s : State) (c : Bool) (bits : BitVec 8) : State := s.setStatus (if c then bits else 0)

/-- HALTED (R33), the flag STATUS bit 3 mirrors. -/
def State.halted (s : State) : Bool := s.status.getLsbD 3

end Sys2Proof.Machine
end

