-- ==== Sys2Proof/Machine/Tables.lean ====
section
/-! DEFINITION. The configuration functions of 00_scope.md R8 with the properties the spec fixes, and the two ROMs
computed from them (20_memory.md R80, R81; 40_wavetable_oscillator.md R141, R145, R147). -/

namespace Sys2Proof.Machine

/-- `sin`: free but for sin(+0.0) = +0.0 (R142, R152, R371). Log entry 6. -/
def fSin (x : F64) : F64 := if x = fpZero then fpZero else Config.sinFree x

/-- `asin`: free but for asin(+0.0) = +0.0 (R142, R371). Log entry 6. -/
def fAsin (x : F64) : F64 := if x = fpZero then fpZero else Config.asinFree x

/-- `exp2(x)`: free but for exp2(0.0) = 1.0 (R8). Log entry 7. -/
def fExp2 (x : F64) : F64 := if fIsZero x then fpOne else Config.exp2Free x

/-- `db_to_amp(db)`: free but for db_to_amp(0.0) = 1.0 and db_to_amp(−20.0) ≈ 0.1 (R8), which the model reads as the
values from 0.05 to below 0.15, those that are 0.1 at the one decimal place R8 writes (DESIGN CHOICE, log entry 20).
Log entry 7. -/
def dbToAmp (db : F64) : F64 :=
  if db = fpZero then fpOne
  else if db = fpMinusTwenty then fWithin fp005 fp015 fp01 (Config.dbToAmpFree db)
  else Config.dbToAmpFree db

/-- `TWO_PI = 2.0 × PI` (R141). -/
def twoPi : F64 := fMul fpTwo fpPi

/-- `2.0 / PI` (R141). -/
def twoOverPi : F64 := fDiv fpTwo fpPi

/-- `ph = float(k) / 1024.0` (R141): the phase in cycles. -/
def cyclePhase (k : Nat) : F64 := fDiv (fOfNat k) fp1024

/-- `WT[Sine][k]` (R141). -/
def wtSine (k : Nat) : F64 := fSin (fMul twoPi (cyclePhase k))

/-- `WT[Square][k]` (R141): the sign of the sine, +1 at zero. -/
def wtSquare (k : Nat) : F64 := if fLe fpZero (wtSine k) then fpOne else fpMinusOne

/-- `WT[Triangle][k]` (R141). -/
def wtTriangle (k : Nat) : F64 := fMul (fAsin (wtSine k)) twoOverPi

/-- Harmonic h of Saw at index k (R141). -/
def sawHarmonic (k h : Nat) : F64 := fDiv (fSin (fMul (fMul twoPi (fOfNat h)) (cyclePhase k))) (fOfNat h)

/-- `WT[Saw][k]` (R141): harmonics 1 to 40 summed left to right from +0.0. -/
def wtSaw (k : Nat) : F64 :=
  fMul (((List.range harmonics).map (· + 1)).foldl (fun acc h => fAdd acc (sawHarmonic k h)) fpZero) twoOverPi

/-- `ROM_WT(w, ·)` (R80); Noise has no table. -/
def romWT : Waveform → Option (Nat → F64)
  | .noise => none
  | .saw => some wtSaw
  | .sine => some wtSine
  | .square => some wtSquare
  | .triangle => some wtTriangle

/-- `idx(p) = int(floor(p)) mod 1024` (R145); free for a non-finite p, which no PHASE is. -/
def tableIndex (p : F64) : Nat :=
  if fIsFinite p then (fFloorInt p % (tableLength : Int)).toNat else Config.indexOfNonFinite p % tableLength

/-- `ROM_HZ(n) = MIDI_HZ[n]` (R81, R147): the formula, and entry 81 exactly 880.0; the formula gives entry 69 (log entry 11). -/
def romHz (n : Pitch) : F64 :=
  if n = 81 then fp880 else fMul fp440 (fExp2 (fDiv (fOfInt ((n.val : Int) - 69)) fpTwelve))

end Sys2Proof.Machine
end

