-- ==== Sys2Proof/Machine/Ops.lean ====
section
/-! DEFINITION. The named operations over the block's registers: the oscillator bank and its FM slots, the common
checks of 30_encoding.md R113, and the shared effects of commands. The block takes no exception (60_exceptions.md
R330): what stands in its place is `dropInvalid`, the one way a command is turned away. -/

namespace Sys2Proof.Machine

/-- The next step on a next state; a fault or a refusal stays. -/
def andThen (r : Result) (k : State → Result) : Result :=
  match r with
  | .next s => k s
  | .fault e => .fault e
  | .refused e => .refused e

/-- `osc[i] <- o`; nothing where there is no oscillator i. -/
def State.setOsc (s : State) (i : Nat) (o : Oscillator) : State := { s with osc := s.osc.set i o }

/-- An update of every oscillator of the bank. -/
def State.mapOsc (s : State) (f : Oscillator → Oscillator) : State := { s with osc := s.osc.map f }

/-- `master.amp <- a`. -/
def State.setMaster (s : State) (a : Amplifier) : State := { s with master := a }

/-- The state with what the step returns to the host. -/
def State.withReply (s : State) (r : Reply) : State := { s with reply := r }

/-- `FMIN ∪ {k}` with `FMSLOT[k] <- v`, kept strictly ascending (R237). -/
def slotInsert (k : Nat) (v : F64) : List (Nat × F64) → List (Nat × F64)
  | [] => [(k, v)]
  | e :: l => if k < e.1 then (k, v) :: e :: l else if k = e.1 then (k, v) :: l else e :: slotInsert k v l

/-- `FMIN \ {k}`, with slot k deleted (R237). -/
def slotErase (k : Nat) (l : List (Nat × F64)) : List (Nat × F64) := l.filter (·.1 != k)

/-- `FMSLOT[k] <- v` of an existing slot (R204). -/
def slotWrite (k : Nat) (v : F64) (l : List (Nat × F64)) : List (Nat × F64) :=
  l.map fun e => if e.1 = k then (k, v) else e

/-- A command dropped with STATUS.INVALID and no other effect (R113, R116, R117, R312). -/
def dropInvalid (s : State) : Result := .next (s.setStatus statusINVALID)

/-- Check 3 of R113: the command runs on oscillator i, or is dropped where i ≥ N_OSC. -/
def withOsc (s : State) (i : BitVec 8) (k : Oscillator → Result) : Result :=
  match s.osc[i.toNat]? with
  | some o => k o
  | none => dropInvalid s

/-- Check 4 of R113: the command runs on a finite value, or is dropped. -/
def withFinite (s : State) (v : F64) (k : Result) : Result := if fIsFinite v then k else dropInvalid s

/-- `DETUNE` as COARSE and FINE determine it (R39, R231, R232). -/
def detuneOf (coarse fine : F64) : F64 := fExp2 (fDiv (fAdd coarse (fDiv fine fpHundred)) fpTwelve)

/-- An amplifier with a gain in dB, and GAIN recomputed in the same step (R171, R235, R274). -/
def Amplifier.setGain (a : Amplifier) (db : F64) : Amplifier := { a with gainDb := db, gain := dbToAmp db }

/-- `BEND` as PB determines it (R293). -/
def bendOf (range : F64) (pb : BitVec 14) : F64 :=
  fExp2 (fDiv (fMul range (fDiv (fOfInt ((pb.toNat : Int) - 8192)) fp8192)) fpTwelve)

/-- NOTEON on one oscillator: its note stack, its FREQ and PHASE in MIDI mode, its amplifier (R291). -/
def Oscillator.noteOn (now : Stamp) (p : Pitch) (o : Oscillator) : Oscillator :=
  { o with
    pstack := if p ∈ o.pstack then o.pstack else p :: o.pstack
    phase := if o.pmode = .midi ∧ o.pstack = [] then fpZero else o.phase
    freq := if o.pmode = .midi then romHz p else o.freq
    amp := ampNoteOn now p o.amp }

/-- FREQ after NOTEOFF: in MIDI mode with a stack that is still non-empty, the new front pitch (R292). -/
def freqAfterNoteOff (o : Oscillator) (stack : List Pitch) : F64 :=
  match stack with
  | [] => o.freq
  | q :: _ => if o.pmode = .midi then romHz q else o.freq

/-- NOTEOFF on one oscillator (R292). -/
def Oscillator.noteOff (now : Stamp) (p : Pitch) (o : Oscillator) : Oscillator :=
  { o with
    pstack := pitchErase p o.pstack
    freq := freqAfterNoteOff o (pitchErase p o.pstack)
    amp := ampNoteOff now p o.amp }

/-- Whether a route of osc[i] = `oi` is rejected: OSC(j) where j is no other oscillator that is itself Master-routed,
or where osc[i] has FM inputs (R237). -/
def routeRejected (s : State) (i : Nat) (oi : Oscillator) : Target → Bool
  | .master => false
  | .osc j =>
    match s.osc[j]? with
    | none => true
    | some oj => j == i || oj.out != .master || oi.slots != []

/-- osc[i] leaves the FM inputs of its old target (R237). -/
def leaveTarget (s : State) (i : Nat) (old : Target) : State :=
  match old with
  | .master => s
  | .osc k =>
    match s.osc[k]? with
    | some ok => s.setOsc k { ok with slots := slotErase i ok.slots }
    | none => s

/-- osc[i] joins the FM inputs of its new target, with a slot of +0.0 (R237). -/
def joinTarget (s : State) (i : Nat) (new : Target) : State :=
  match new with
  | .master => s
  | .osc j =>
    match s.osc[j]? with
    | some oj => s.setOsc j { oj with slots := slotInsert i fpZero oj.slots }
    | none => s

/-- `osc[i].OUT <- t`. -/
def setTarget (s : State) (i : Nat) (t : Target) : State :=
  match s.osc[i]? with
  | some o => s.setOsc i { o with out := t }
  | none => s

/-- An accepted change of route: both registries and OUT in one step (R237). -/
def reroute (s : State) (i : Nat) (old new : Target) : State :=
  setTarget (joinTarget (leaveTarget s i old) i new) i new

end Sys2Proof.Machine
end

