-- ==== Sys2Proof/Machine/MasterCmd.lean ====
section
/-! DEFINITION. The six master commands (44_cmd_master.md R270 to R275). The common check of 30_encoding.md R113 on the
value stands first in each value command. -/

namespace Sys2Proof.Machine

/-- ATTACK (R270). -/
def execAttack (val : F64) (s : State) : Result :=
  withFinite s val <|
    .next ((s.setMaster { s.master with envA := (nonNegativeOperand val).value }).setStatusIf
      (nonNegativeOperand val).invalid statusINVALID)

/-- DECAY (R271). -/
def execDecay (val : F64) (s : State) : Result :=
  withFinite s val <|
    .next ((s.setMaster { s.master with envD := (nonNegativeOperand val).value }).setStatusIf
      (nonNegativeOperand val).invalid statusINVALID)

/-- SUSTAIN (R272). -/
def execSustain (val : F64) (s : State) : Result :=
  withFinite s val <|
    .next ((s.setMaster { s.master with envS := (levelOperand val).value }).setStatusIf
      (levelOperand val).invalid statusINVALID)

/-- RELEASE (R273). -/
def execRelease (val : F64) (s : State) : Result :=
  withFinite s val <|
    .next ((s.setMaster { s.master with envR := (nonNegativeOperand val).value }).setStatusIf
      (nonNegativeOperand val).invalid statusINVALID)

/-- MASTER (R274). -/
def execMaster (val : F64) (s : State) : Result :=
  withFinite s val <| .next (s.setMaster (s.master.setGain val))

/-- MIXERMODE (R275). -/
def execMixermode (mode : BitVec 8) (s : State) : Result :=
  .next ({ s with mmode := (modeOperand mode).value }.setStatusIf (modeOperand mode).invalid statusINVALID)

end Sys2Proof.Machine
end

