-- ==== Sys2Proof/Machine/NoteCmd.lean ====
section
/-! DEFINITION. The note and pitch-bend commands (45_cmd_note.md R290 to R293). A note command reaches every
oscillator's stack and amplifier, and then the master amplifier, in every mode (R290). -/

namespace Sys2Proof.Machine

/-- NOTEON (R291); the velocity is not read. -/
def execNoteon (pitch _velocity : BitVec 8) (s : State) : Result :=
  .next (((s.mapOsc (Oscillator.noteOn s.tick (pitchOperand pitch).value)).setMaster
    (ampNoteOn s.tick (pitchOperand pitch).value s.master)).setStatusIf (pitchOperand pitch).invalid statusINVALID)

/-- NOTEOFF (R292). -/
def execNoteoff (pitch : BitVec 8) (s : State) : Result :=
  .next (((s.mapOsc (Oscillator.noteOff s.tick (pitchOperand pitch).value)).setMaster
    (ampNoteOff s.tick (pitchOperand pitch).value s.master)).setStatusIf (pitchOperand pitch).invalid statusINVALID)

/-- `PB` of two bend bytes: msb × 128 + lsb (R293). -/
def bendWord (lsb msb : BitVec 8) : BitVec 14 :=
  BitVec.ofNat 14 ((bendByteOperand msb).value * 128 + (bendByteOperand lsb).value)

/-- PITCHBEND (R293). -/
def execPitchbend (lsb msb : BitVec 8) (s : State) : Result :=
  .next ({ s with pb := bendWord lsb msb, bend := bendOf s.params.pbRange (bendWord lsb msb) }.setStatusIf
    ((bendByteOperand lsb).invalid || (bendByteOperand msb).invalid) statusINVALID)

end Sys2Proof.Machine
end

