-- ==== Sys2Proof/Machine/OscillatorCmd.lean ====
section
/-! DEFINITION. The nine oscillator commands (43_cmd_oscillator.md R230 to R238). The common checks of 30_encoding.md
R113 stand first in each: the index (`withOsc`), then the value (`withFinite`). -/

namespace Sys2Proof.Machine

/-- BYPASS (R230). -/
def execBypass (osc flag : BitVec 8) (s : State) : Result :=
  withOsc s osc fun o =>
    .next ((s.setOsc osc.toNat { o with bypass := (flagOperand flag).value }).setStatusIf
      (flagOperand flag).invalid statusINVALID)

/-- COARSE (R231). -/
def execCoarse (osc : BitVec 8) (val : F64) (s : State) : Result :=
  withOsc s osc fun o => withFinite s val <|
    .next (s.setOsc osc.toNat { o with coarse := val, detune := detuneOf val o.fine })

/-- FINE (R232). -/
def execFine (osc : BitVec 8) (val : F64) (s : State) : Result :=
  withOsc s osc fun o => withFinite s val <|
    .next (s.setOsc osc.toNat { o with fine := val, detune := detuneOf o.coarse val })

/-- FMRANGE (R233). -/
def execFmrange (osc : BitVec 8) (val : F64) (s : State) : Result :=
  withOsc s osc fun o => withFinite s val <| .next (s.setOsc osc.toNat { o with fmrange := val })

/-- FREQ (R234). -/
def execFreq (osc : BitVec 8) (val : F64) (s : State) : Result :=
  withOsc s osc fun o => withFinite s val <|
    .next ((s.setOsc osc.toNat { o with freq := (nonNegativeOperand val).value }).setStatusIf
      (nonNegativeOperand val).invalid statusINVALID)

/-- GAIN (R235). -/
def execGain (osc : BitVec 8) (val : F64) (s : State) : Result :=
  withOsc s osc fun o => withFinite s val <| .next (s.setOsc osc.toNat { o with amp := o.amp.setGain val })

/-- PITCHMODE (R236). -/
def execPitchmode (osc mode : BitVec 8) (s : State) : Result :=
  withOsc s osc fun o =>
    .next ((s.setOsc osc.toNat { o with pmode := (modeOperand mode).value }).setStatusIf
      (modeOperand mode).invalid statusINVALID)

/-- OUTPUT (R237): a rejected route is dropped, the same target changes nothing, any other target moves the route. -/
def execOutput (osc kind target : BitVec 8) (s : State) : Result :=
  withOsc s osc fun o =>
    if routeRejected s osc.toNat o (targetOperand kind target).value then dropInvalid s
    else if (targetOperand kind target).value = o.out then
      .next (s.setStatusIf (targetOperand kind target).invalid statusINVALID)
    else
      .next ((reroute s osc.toNat o.out (targetOperand kind target).value).setStatusIf
        (targetOperand kind target).invalid statusINVALID)

/-- WAVEFORM (R238). -/
def execWaveform (osc wave : BitVec 8) (s : State) : Result :=
  withOsc s osc fun o =>
    .next ((s.setOsc osc.toNat { o with wave := (waveOperand wave).value }).setStatusIf
      (waveOperand wave).invalid statusINVALID)

end Sys2Proof.Machine
end

