-- ==== Sys2Proof/Machine/SystemCmd.lean ====
section
/-! DEFINITION. The system commands (46_cmd_system.md R310, R311). -/

namespace Sys2Proof.Machine

/-- RESETMIDI (R310): no operation; no register of the block changes. -/
def execResetmidi (s : State) : Result := .next s

/-- QUIT (R311): HALTED is set, and every FIFO entry after this command is discarded. -/
def execQuit (s : State) : Result := .next { s.setStatus statusHALTED with fifo := [] }

end Sys2Proof.Machine
end

