-- ==== Sys2Proof/Machine/Dispatch.lean ====
section
/-! DEFINITION. One arm per command: the meaning of each row of the opcode map (30_encoding.md R114, R118). -/

namespace Sys2Proof.Machine

def exec (i : Instr) (s : State) : Host.Outcome State Fault Refusal :=
  match i with
  | .bypass osc flag => Sys2Proof.Machine.execBypass osc flag s
  | .coarse osc val => Sys2Proof.Machine.execCoarse osc val s
  | .fine osc val => Sys2Proof.Machine.execFine osc val s
  | .fmrange osc val => Sys2Proof.Machine.execFmrange osc val s
  | .freq osc val => Sys2Proof.Machine.execFreq osc val s
  | .gain osc val => Sys2Proof.Machine.execGain osc val s
  | .pitchmode osc mode => Sys2Proof.Machine.execPitchmode osc mode s
  | .output osc kind target => Sys2Proof.Machine.execOutput osc kind target s
  | .waveform osc wave => Sys2Proof.Machine.execWaveform osc wave s
  | .attack val => Sys2Proof.Machine.execAttack val s
  | .decay val => Sys2Proof.Machine.execDecay val s
  | .sustain val => Sys2Proof.Machine.execSustain val s
  | .release val => Sys2Proof.Machine.execRelease val s
  | .master val => Sys2Proof.Machine.execMaster val s
  | .mixermode mode => Sys2Proof.Machine.execMixermode mode s
  | .noteon pitch velocity => Sys2Proof.Machine.execNoteon pitch velocity s
  | .noteoff pitch => Sys2Proof.Machine.execNoteoff pitch s
  | .pitchbend lsb msb => Sys2Proof.Machine.execPitchbend lsb msb s
  | .resetmidi => Sys2Proof.Machine.execResetmidi s
  | .quit => Sys2Proof.Machine.execQuit s

end Sys2Proof.Machine
end

