-- ==== Sys2Proof/Machine/OscCalc.lean ====
section
/-! DEFINITION. The oscillator's datapath (40_wavetable_oscillator.md R144 to R152): noise draws, phase wrap, effective
and instantaneous frequency, and the calculation of one oscillator. -/

namespace Sys2Proof.Machine

/-- A result of the datapath: the f64 it returns and the state it leaves. -/
structure Computed where
  value : F64
  state : State
  deriving DecidableEq, Repr

/-- A draw's range, −1.0 ≤ v < 1.0 (R144): a value outside it is no draw, and stands for +0.0. -/
def noiseInRange (v : F64) : F64 := fWithin fpMinusOne fpOne fpZero v

/-- `draw_noise()` (R144): a free input, either one the environment has already chosen or the next of
`Config.noise`. -/
def drawNoise (s : State) : Computed :=
  match s.noiseIn with
  | v :: rest => ⟨noiseInRange v, { s with noiseIn := rest }⟩
  | [] => ⟨noiseInRange (Config.noise s.noiseCount), { s with noiseCount := s.noiseCount + 1 }⟩

/-- The remainder of `wrap`, before its guards (R146). -/
def phaseRemainder (x : F64) : F64 := fSub x (fMul fp1024 (fFloor (fDiv x fp1024)))

/-- The guards of `wrap` (R146). -/
def phaseGuarded (r : F64) : F64 :=
  let r' := if fLt r fpZero then fAdd r fp1024 else r
  if fLe fp1024 r' then fpZero else r'

/-- `wrap(x)` (R146); a non-finite x gives +0.0, and NONFINITE is set where `fIsFinite x` is false. -/
def wrapPhase (x : F64) : F64 := if fIsFinite x then phaseGuarded (phaseRemainder x) else fpZero

/-- `f_eff(i)` (R148). -/
def effectiveFreq (o : Oscillator) (bend : F64) : F64 :=
  fMul (fMul o.freq o.detune) (if o.pmode = .midi then bend else fpOne)

/-- The instantaneous frequency: f_eff and each FM slot scaled by half the depth, in ascending index (R149). -/
def instantFreq (o : Oscillator) (bend : F64) : F64 :=
  o.slots.foldl (fun f e => fAdd f (fMul e.2 (fDiv o.fmrange fpTwo))) (effectiveFreq o bend)

/-- The phase increment: 1.0 for Noise, else `(f × 1024.0) / SR` (R151). -/
def phaseIncrement (o : Oscillator) (bend sr : F64) : F64 :=
  if o.wave = .noise then fpOne else fDiv (fMul (instantFreq o bend) fp1024) sr

/-- The sum of PHASE and the increment that `wrap` maps back (R150). -/
def phaseSum (o : Oscillator) (bend sr : F64) : F64 := fAdd o.phase (phaseIncrement o bend sr)

/-- The raw sample: a noise draw, or the table entry at PHASE before it advances (R144, R145, R150). -/
def rawSample (o : Oscillator) (s : State) : Computed :=
  match romWT o.wave with
  | none => drawNoise s
  | some table => ⟨table (tableIndex o.phase), s⟩

/-- The oscillator after a calculation: PHASE, and in MIDI pitch mode the amplifier (R150). -/
def Oscillator.afterCalc (o : Oscillator) (s : State) : Oscillator :=
  { o with
    phase := wrapPhase (phaseSum o s.bend s.sr)
    amp := if o.pmode = .midi then ampAfterCalc s.tick s.sr o.amp else o.amp }

/-- The sample an oscillator that is not bypassed returns for a raw sample (R150). -/
def Oscillator.shaped (o : Oscillator) (s : State) (raw : F64) : F64 :=
  if o.pmode = .midi then ampOutput s.tick s.sr o.amp raw else raw

/-- `osc_calc(i)` (R150); an index with no oscillator, which the tick never passes, returns +0.0. -/
def oscCalc (i : Nat) (s : State) : Computed :=
  match s.osc[i]? with
  | none => ⟨fpZero, s⟩
  | some o =>
    if o.bypass then ⟨fpZero, s⟩
    else
      ⟨o.shaped s (rawSample o s).value,
        ((rawSample o s).state.setOsc i (o.afterCalc s)).setStatusIf
          (!fIsFinite (phaseSum o s.bend s.sr)) statusNONFINITE⟩

end Sys2Proof.Machine
end

