-- ==== Sys2Proof/Machine/Tick.lean ====
section
/-! DEFINITION. The drain of the command FIFO (20_memory.md R86; 30_encoding.md R118), the mixer and the tick
(42_mixer_engine.md R200 to R206). -/

namespace Sys2Proof.Machine

/-- `apply(c)` (R118): a word that stands for no command is dropped with INVALID; checks 3 and 4 of R113 stand in the
meanings. -/
def applyWord (w : CmdWord) (s : State) : Result :=
  match decode w with
  | .ok i => exec i s
  | .error _ => dropInvalid s

/-- The FIFO's entries taken one by one from the oldest, at most n of them (R86). QUIT empties the FIFO, so nothing
after it is applied. -/
def drainUpTo : Nat → State → Result
  | 0, s => .next s
  | n + 1, s =>
    match s.fifo with
    | [] => .next s
    | w :: rest => andThen (applyWord w { s with fifo := rest }) (drainUpTo n)

/-- `drain()` (R86): every entry present, in order. -/
def drain (s : State) : Result := drainUpTo s.fifo.length s

/-- `FMSLOT[i]` of oscillator j receives a modulator's sample (R204). -/
def deliver (s : State) (i j : Nat) (v : F64) : State :=
  match s.osc[j]? with
  | some oj => s.setOsc j { oj with slots := slotWrite i v oj.slots }
  | none => s

/-- Phase 1 of the tick at index i: a modulator is calculated and its sample delivered (R203, R204). -/
def tickModulator (s : State) (i : Nat) : State :=
  match s.osc[i]? with
  | some o =>
    match o.out with
    | .osc j => deliver (oscCalc i s).state i j (oscCalc i s).value
    | .master => s
  | none => s

/-- Phase 2 of the tick at index i: a Master-routed oscillator is calculated and added to the sum (R203). -/
def tickCarrier (c : Computed) (i : Nat) : Computed :=
  match c.state.osc[i]? with
  | some o =>
    match o.out with
    | .master => ⟨fAdd c.value (oscCalc i c.state).value, (oscCalc i c.state).state⟩
    | .osc _ => c
  | none => c

/-- Phase 1: all modulators, in ascending index (R203). -/
def modulators (s : State) : State := (List.range s.nOsc).foldl tickModulator s

/-- Phase 2: the sum of all carriers from +0.0, in ascending index (R203). -/
def carriers (s : State) : Computed := (List.range s.nOsc).foldl tickCarrier ⟨fpZero, s⟩

/-- `mixer(sum)` (R200). -/
def mixer (c : Computed) : Computed :=
  match c.state.mmode with
  | .midi =>
    ⟨ampOutput c.state.tick c.state.sr c.state.master c.value,
      c.state.setMaster (ampAfterCalc c.state.tick c.state.sr c.state.master)⟩
  | .const => ⟨fMul c.value c.state.master.gain, c.state⟩

/-- The sample of the mixer's output, with a non-finite one replaced by silence (R205). -/
def finalSample (y : F64) : F64 := if fIsFinite y then y else fpZero

/-- The end of the tick: headroom, the guard, OUT_SAMPLE, TICK and the returned sample (R203, R205, R206). -/
def emit (c : Computed) : State :=
  let y := fMul c.value c.state.params.headroom
  { c.state.setStatusIf (!fIsFinite y) statusNONFINITE with
    outSample := finalSample y, tick := c.state.tick + 1, reply := .sample (finalSample y) }

/-- The tick after its drain, in a block that is not halted (R203). -/
def computeSample (s : State) : State := emit (mixer (carriers (modulators s)))

/-- What a tick returns where it computes nothing: +0.0 (R203). -/
def silentTick (s : State) : State := s.withReply (.sample fpZero)

/-- The rest of a tick once the FIFO is drained: nothing where QUIT was drained (R203). -/
def afterDrain (s : State) : Result := if s.halted then .next (silentTick s) else .next (computeSample s)

/-- `tick()` (R203). -/
def tick (s : State) : Result := if s.halted then .next (silentTick s) else andThen (drain s) afterDrain

/-- The state whose next step is the tick that drains exactly this word. -/
def placeCommand (s : State) (w : CmdWord) : State :=
  { s with status := s.status &&& ~~~statusHALTED, fifo := [w], inbox := .tick :: s.inbox }

end Sys2Proof.Machine
end

