-- ==== Sys2Proof/Machine/HostPort.lean ====
section
/-! DEFINITION. The host's steps on the block: the command port (20_memory.md R85), the reset input
(70_reset_and_hazards.md R360), the read ports (10_state.md R61) and the render procedure (42_mixer_engine.md R207). -/

namespace Sys2Proof.Machine

/-- `push(c)` (R85): discarded while halted; into a full FIFO, the oldest entry is lost and LAG is set. -/
def push (w : CmdWord) (s : State) : State :=
  if s.halted then s
  else if s.fifo.length = s.params.cmdDepth then
    { s with fifo := s.fifo.tail ++ [w] }.setStatus statusLAG
  else { s with fifo := s.fifo ++ [w] }

/-- A sample rate a reset accepts: finite and > 0 (R32). -/
def sampleRateOk (sr : F64) : Bool := fIsFinite sr && fLt fpZero sr

/-- Parameters a reset accepts (R7, R343). -/
def configurationOk (nOsc : Nat) (p : Params) : Bool :=
  decide (1 ≤ nOsc) && decide (nOsc ≤ 256) && fIsFinite p.headroom && decide (1 ≤ p.cmdDepth)

/-- The reset of a block with given parameters and LEGATO flags (R360, R343). -/
def powerOn (p : Params) (legatoOsc : List Bool) (legatoMaster : Bool) (sr : F64) : Result :=
  if !sampleRateOk sr then .refused .badSampleRate
  else if !configurationOk legatoOsc.length p then .refused .badConfiguration
  else .next (State.afterReset p legatoOsc legatoMaster sr)

/-- The environment of a step, carried over a reset: the host's coming steps and the noise inputs (log entry 13). -/
def keepEnvironment (s t : State) : State :=
  { t with inbox := s.inbox, noiseIn := s.noiseIn, noiseCount := s.noiseCount }

/-- `reset(sr_in)` (R360): the parameters and the LEGATO flags, which are configuration, stay. -/
def resetBlock (sr : F64) (s : State) : Result :=
  andThen (powerOn s.params (s.osc.map fun o => o.amp.legato) s.master.legato sr) fun t => .next (keepEnvironment s t)

/-- One step of the host (R90). A read changes no register of the block (R89). -/
def hostStep (h : HostStep) (s : State) : Result :=
  match h with
  | .push w => .next ((push w s).withReply .none)
  | .tick => tick s
  | .reset sr => resetBlock sr s
  | .readStatus => .next (s.withReply (.status s.status))
  | .readTick => .next (s.withReply (.tick s.tick))
  | .readOutSample => .next (s.withReply (.outSample s.outSample))

/-- The sample a tick has just returned. -/
def returnedSample (s : State) : F64 :=
  match s.reply with
  | .sample y => y
  | _ => fpZero

/-- A buffer that has been rendered, and the state its ticks leave. -/
structure Rendered (α : Type) where
  buffer : List α
  state : State
  deriving DecidableEq, Repr

/-- The frames of `render`: one tick each, its sample converted and written to every channel (R207). -/
def renderFrames {α : Type} (convert : F64 → α) (channels : Nat) :
    Nat → State → Host.Outcome (Rendered α) Fault Refusal
  | 0, s => .next ⟨[], s⟩
  | f + 1, s =>
    match tick s with
    | .fault e => .fault e
    | .refused e => .refused e
    | .next t =>
      match renderFrames convert channels f t with
      | .fault e => .fault e
      | .refused e => .refused e
      | .next r => .next ⟨List.replicate channels (convert (returnedSample t)) ++ r.buffer, r.state⟩

/-- `render(buf, C)` of a buffer of `len` elements, CONVERT the backend's (R206, R207): a trailing partial frame is
filled with silence. -/
def render {α : Type} (convert : F64 → α) (len channels : Nat) (s : State) :
    Host.Outcome (Rendered α) Fault Refusal :=
  match renderFrames convert channels (len / channels) s with
  | .fault e => .fault e
  | .refused e => .refused e
  | .next r => .next ⟨r.buffer ++ List.replicate (len % channels) (convert fpZero), r.state⟩

end Sys2Proof.Machine
end

