-- ==== Sys2Proof/Machine/Step.lean ====
section
/-! DEFINITION. One step of the machine: the next of the host's atomic steps (20_memory.md R90). -/

namespace Sys2Proof.Machine

/-- One step: the host's next step, or nothing where the host takes none (R342). -/
def step (s : State) : Host.Outcome State Fault Refusal :=
  match s.inbox with
  | [] => .next s
  | h :: rest => hostStep h { s with inbox := rest }

/-- The state whose next step runs exactly the command with these bits: the word alone in the FIFO of a block that is
not halted, and the tick strobe next (log entry 10). -/
def State.withFetchWord (s : State) (nbits w : Nat) : State := placeCommand s (tableWord nbits w)

end Sys2Proof.Machine
end

