-- ==== Sys2Proof/WellFormed.lean ====
section
/-! DEFINITION. Well-formed commands: those in which the command word itself gives no cause of STATUS.INVALID
(60_exceptions.md R332, causes 3 to 15). A command that is not well-formed still runs: it is clamped, substituted or
dropped by its meaning. Whether a route is legal (the rest of cause 9) depends on the state, and is not asked here. -/

namespace Sys2Proof

open Machine

/-- R113 check 3: an oscillator command names an oscillator of the bank. -/
def Instr.indexInBank (nOsc : Nat) (i : Instr) : Bool :=
  match i.oscIndex with
  | some k => decide (k.toNat < nOsc)
  | none => true

/-- R113 check 4: a value operand is finite. -/
def Instr.valueFinite (i : Instr) : Bool :=
  match i.value with
  | some v => fIsFinite v
  | none => true

/-- The operand is in the range its rule states (R115; R234, R270 to R273 for the values). -/
def Instr.operandsInRange : Instr → Bool
  | .bypass _ a => decide (a.toNat ≤ 1)
  | .coarse _ _ => true
  | .fine _ _ => true
  | .fmrange _ _ => true
  | .freq _ v => !fLt v fpZero
  | .gain _ _ => true
  | .pitchmode _ a => decide (a.toNat ≤ 1)
  | .output _ a _ => decide (a.toNat ≤ 1)
  | .waveform _ a => decide (a.toNat ≤ 4)
  | .attack v => !fLt v fpZero
  | .decay v => !fLt v fpZero
  | .sustain v => !fLt v fpZero && !fLt fpOne v
  | .release v => !fLt v fpZero
  | .master _ => true
  | .mixermode a => decide (a.toNat ≤ 1)
  | .noteon p _ => decide (p.toNat ≤ 127)
  | .noteoff p => decide (p.toNat ≤ 127)
  | .pitchbend l m => decide (l.toNat ≤ 127) && decide (m.toNat ≤ 127)
  | .resetmidi => true
  | .quit => true

/-- A route to OSC(j) names another oscillator of the bank (the part of R332 cause 9 the word shows). -/
def Instr.routeNamesOther (nOsc : Nat) : Instr → Bool
  | .output i a b => a != 1 || (decide (b.toNat < nOsc) && b != i)
  | _ => true

/-- The command word gives no cause of INVALID in a block of `nOsc` oscillators. -/
def Instr.wellFormed (nOsc : Nat) (i : Instr) : Bool :=
  i.indexInBank nOsc && i.valueFinite && i.operandsInRange && i.routeNamesOther nOsc

end Sys2Proof
end

