-- ==== Sys2Proof/Safety.lean ====
section
/-! DEFINITION. What claims about the block are stated in: the invariants the spec gives the machine, and what a step
that is safe answers. The block has no fault (60_exceptions.md R330, R343), so a run is safe as long as no reset is
refused. -/

namespace Sys2Proof.Machine

/-- A step that the spec gives a meaning (R343). -/
def State.SafeStep (s : State) : Prop := ∃ t, step s = .next t

/-- The routing invariant of R41: `i ∈ osc[j].FMIN ⟺ osc[i].OUT = OSC(j)` for all i ≠ j. -/
def State.Routed (s : State) : Prop :=
  ∀ (i j : Nat) (oi oj : Oscillator), s.osc[i]? = some oi → s.osc[j]? = some oj → i ≠ j → (i ∈ oj.fmin ↔ oi.out = .osc j)

/-- The one-level invariant of R42. -/
def State.OneLevel (s : State) : Prop :=
  ∀ (k j : Nat) (ok : Oscillator), s.osc[k]? = some ok → ok.out = .osc j →
    j ≠ k ∧ ok.fmin = [] ∧ ∃ oj : Oscillator, s.osc[j]? = some oj ∧ oj.out = .master

/-- The legal values of FMIN (R37): other oscillators of the bank, in the canonical order. -/
def State.SlotsLegal (s : State) : Prop :=
  ∀ (i : Nat) (o : Oscillator), s.osc[i]? = some o → o.fmin.Pairwise (· < ·) ∧ ∀ k ∈ o.fmin, k < s.nOsc ∧ k ≠ i

/-- R41, R42 and the legal values of FMIN together. -/
structure State.RoutingInv (s : State) : Prop where
  routed : s.Routed
  oneLevel : s.OneLevel
  slotsLegal : s.SlotsLegal

/-- R62: every note stack and every held set hold the same pitches. -/
def State.NotesAgree (s : State) : Prop :=
  ∀ (i : Nat) (o : Oscillator), s.osc[i]? = some o → ∀ p : Pitch, (p ∈ o.pstack ↔ p ∈ o.amp.held) ∧ (p ∈ o.amp.held ↔ p ∈ s.master.held)

/-- A property of every amplifier instance: each oscillator's and the master's (R45). -/
def State.EveryAmp (s : State) (P : Amplifier → Prop) : Prop := (∀ o ∈ s.osc, P o.amp) ∧ P s.master

/-- R46 and the timestamps that go with it (R173, R174): while a pitch is held the envelope attacks, decays or
sustains from a START; while none is, it idles or releases, and it releases from an RSTART. -/
structure Amplifier.StateLegal (a : Amplifier) : Prop where
  heldAscending : a.held.Pairwise (· < ·)
  heldState : a.held ≠ [] → a.estate = .attack ∨ a.estate = .decay ∨ a.estate = .sustain
  freeState : a.held = [] → a.estate = .idle ∨ a.estate = .release
  heldStart : a.start.isSome ↔ a.held ≠ []
  heldNoRelease : a.held ≠ [] → a.rstart = none
  releaseStart : a.estate = .release → a.rstart.isSome

/-- R45's legal values of the envelope and gain registers, and R171: GAIN = db_to_amp(GAIN_DB). -/
structure Amplifier.ValuesLegal (a : Amplifier) : Prop where
  attackTime : fIsFinite a.envA ∧ fLe fpZero a.envA
  decayTime : fIsFinite a.envD ∧ fLe fpZero a.envD
  sustainLevel : fIsFinite a.envS ∧ fLe fpZero a.envS ∧ fLe a.envS fpOne
  releaseTime : fIsFinite a.envR ∧ fLe fpZero a.envR
  gainDbFinite : fIsFinite a.gainDb
  gainCached : a.gain = dbToAmp a.gainDb

/-- R37's legal values of an oscillator's parameter registers, R39: DETUNE is the cached multiplier, R44: the note
stack holds distinct pitches, and R47: the envelope is the gate. FREQ is finite and not below zero, or an entry of
ROM_HZ as it stands: that every entry is finite and not negative is a property of `exp2`, which R8 leaves open
(log entry 11). -/
structure Oscillator.ValuesLegal (o : Oscillator) : Prop where
  freqLegal : (fIsFinite o.freq = true ∧ fLe fpZero o.freq = true) ∨ ∃ p, o.freq = romHz p
  coarseFinite : fIsFinite o.coarse
  fineFinite : fIsFinite o.fine
  fmrangeFinite : fIsFinite o.fmrange
  detuneCached : o.detune = detuneOf o.coarse o.fine
  stackDistinct : o.pstack.Nodup
  gateEnvelope : o.amp.envA = fpZero ∧ o.amp.envD = fpZero ∧ o.amp.envS = fpOne ∧ o.amp.envR = fpZero

/-- The legal values of the registers: the oscillators', the amplifiers', STATUS's reserved bits (R60), a finite
OUT_SAMPLE (R205), and a FIFO within CMD_DEPTH (R50, R83). -/
structure State.ValuesLegal (s : State) : Prop where
  oscillators : ∀ o ∈ s.osc, o.ValuesLegal
  amplifiers : s.EveryAmp Amplifier.ValuesLegal
  statusReserved : s.status &&& 0xF0 = 0
  outSampleFinite : fIsFinite s.outSample
  depthPositive : 1 ≤ s.params.cmdDepth
  fifoBounded : s.fifo.length ≤ s.params.cmdDepth

/-- A legal PHASE (R43): `+0.0 ≤ PHASE < 1024.0`. -/
def phaseLegal (p : F64) : Prop := fLe fpZero p ∧ fLt p fp1024

/-- R43 for the whole bank. -/
def State.PhasesLegal (s : State) : Prop := ∀ o ∈ s.osc, phaseLegal o.phase

/-- The registers of a state that the block's own rules speak of: all but the model's environment (the host's coming
steps, the reply, the noise inputs). -/
def State.registers (s : State) : State := { s with inbox := [], reply := .none, noiseIn := [], noiseCount := 0 }

/-- Whether a command word gives a cause of STATUS.INVALID in a state (R332): a word that is no command, a command
that is not well-formed, or a route to an oscillator that is not Master-routed or of one that has FM inputs. -/
def causeOfInvalid (w : CmdWord) (s : State) : Bool :=
  match decode w with
  | .error _ => true
  | .ok i =>
    !i.wellFormed s.nOsc ||
      match i with
      | .output k a b =>
        match s.osc[k.toNat]?, s.osc[b.toNat]? with
        | some ok, some oj => a == 1 && (oj.out != .master || ok.fmin != [])
        | _, _ => false
      | _ => false

/-! ### Binary64 results (00_scope.md R10) -/

/-- z is what R10 makes of the exact number e/d, in units of 2^-1074: a finite value nearest to it, with an even
significand where another finite value is as near; an infinity exactly from the midpoint between the largest finite
value and 2^1024 on; and with the exact number's sign where that is not zero. -/
structure RoundsTo (z : F64) (e : Int) (d : Nat) : Prop where
  finite_iff : fIsFinite z = true ↔ e.natAbs < (2 ^ 54 - 1) * 2 ^ 2044 * d
  overflow : fIsFinite z = false → fIsInf z = true
  nearest : fIsFinite z = true → ∀ w : F64, fIsFinite w = true → (fVal z * d - e).natAbs ≤ (fVal w * d - e).natAbs
  tieEven : fIsFinite z = true → ∀ w : F64, fIsFinite w = true →
    (fVal z * d - e).natAbs = (fVal w * d - e).natAbs → fVal w ≠ fVal z → fSig z % 2 = 0
  sign : e ≠ 0 → fSign z = decide (e < 0)

/-! ### What a tick computes, in terms of the state it drains to (42_mixer_engine.md R203, R204) -/

/-- Whether oscillator i feeds the mixer. -/
def State.isCarrier (s : State) (i : Nat) : Bool := s.osc[i]?.map Oscillator.out == some .master

/-- The carriers in ascending index. -/
def State.carrierIndices (s : State) : List Nat := (List.range s.nOsc).filter s.isCarrier

/-- R203's evaluation order: the modulators in ascending index, then the carriers. -/
def State.evaluationOrder (s : State) : List Nat :=
  (List.range s.nOsc).filter (fun i => !s.isCarrier i) ++ s.carrierIndices

/-- Whether the calculation of an oscillator takes a noise draw (R144, R150). -/
def Oscillator.takesDraw (o : Oscillator) : Bool := !o.bypass && decide (o.wave = .noise)

/-- How many draws a tick takes for a list of oscillators. -/
def State.drawsOf (s : State) (l : List Nat) : Nat := l.countP fun i => s.osc[i]?.any Oscillator.takesDraw

/-- How many draws a tick takes before it calculates oscillator i. -/
def State.drawsBefore (s : State) (i : Nat) : Nat := s.drawsOf (s.evaluationOrder.takeWhile (· != i))

/-- The state from which n noise inputs have been taken, and nothing else (R144). -/
def State.afterDraws (s : State) (n : Nat) : State :=
  { s with noiseIn := s.noiseIn.drop n, noiseCount := s.noiseCount + (n - s.noiseIn.length) }

/-- The sample oscillator i computes in a tick that drains to s: its `osc_calc` on the registers the tick finds, once
the oscillators before it have taken their draws. -/
def State.tickSample (s : State) (i : Nat) : F64 := (oscCalc i (s.afterDraws (s.drawsBefore i))).value

/-- The sum of PHASE and increment of an oscillator in a tick that drains to s (R148 to R151), its FM inputs at the
samples of the same tick (R204). -/
def State.tickPhaseSum (s : State) (o : Oscillator) : F64 :=
  fAdd o.phase
    (if o.wave = .noise then fpOne
    else
      fDiv
        (fMul
          (o.fmin.foldl (fun f k => fAdd f (fMul (s.tickSample k) (fDiv o.fmrange fpTwo)))
            (fMul (fMul o.freq o.detune) (if o.pmode = .midi then s.bend else fpOne)))
          fp1024)
        s.sr)

end Sys2Proof.Machine
end

