-- ==== Sys2Proof/Certificates/Slice0/Obligations.lean ====
section
/-! DEFINITION. The statements for the provers. Every statement about a state is about every value of the OPEN
parameters, which State carries, and about every value of the free constants of Config. STATUS is written with its bits
as numbers: 0x01 LAG, 0x02 INVALID, 0x04 NONFINITE, 0x08 HALTED (10_state.md R60). -/

open Sys2Proof Sys2Proof.Machine

/-! ### Encoding (30_encoding.md, 20_memory.md) -/

/-- R123: the worked encodings, each word with the command it stands for, and the bytes R123 gives. -/
def Obligations.WorkedEncodings : Prop :=
  (encode (.freq 0 0x407B800000000000) = 0x407B8000000000000000000000000005
    ∧ decode 0x407B8000000000000000000000000005 = .ok (.freq 0 0x407B800000000000)
    ∧ portBytes 0x407B8000000000000000000000000005 = [0x05, 0, 0, 0, 0, 0, 0, 0, 0, 0, 0, 0, 0, 0x80, 0x7B, 0x40])
  ∧ (encode (.noteon 69 100) = 0x00000000000000000000000064450010
    ∧ decode 0x00000000000000000000000064450010 = .ok (.noteon 69 100)
    ∧ portBytes 0x00000000000000000000000064450010 = [0x10, 0, 0x45, 0x64, 0, 0, 0, 0, 0, 0, 0, 0, 0, 0, 0, 0])
  ∧ (encode (.sustain 0x3FC999999999999A) = 0x3FC999999999999A000000000000000C
    ∧ decode 0x3FC999999999999A000000000000000C = .ok (.sustain 0x3FC999999999999A))
  ∧ (encode (.output 1 1 0) = 0x00000000000000000000000000010108
    ∧ decode 0x00000000000000000000000000010108 = .ok (.output 1 1 0))
  ∧ (encode (.gain 2 0xC034000000000000) = 0xC0340000000000000000000000000206
    ∧ decode 0xC0340000000000000000000000000206 = .ok (.gain 2 0xC034000000000000))
  ∧ (encode .quit = 0x00000000000000000000000000000014
    ∧ decode 0x00000000000000000000000000000014 = .ok .quit)

/-- R110 to R114, R121: decoding an encoded command gives it back, with every operand at every value its field admits,
from the word and from the 16 bytes of the port. -/
def Obligations.DecodeOfEncode : Prop :=
  ∀ i : Instr, decode (encode i) = .ok i ∧ decodeBytes (portBytes (encode i)) = .ok i

/-- R111, R113, R114: a word stands for a command exactly where its OPC, its RSV and the fields the command's row uses
are the command's; every other bit of the word is ignored. -/
def Obligations.DecodeReadsExactlyTheUsedBits : Prop :=
  ∀ (w : CmdWord) (i : Instr), decode w = .ok i ↔ w &&& i.usedMask = encode i

/-- R87, R88: the port's byte b holds bits [8b+7 : 8b] of the word; the 16 bytes carry the word back, and any other
number of bytes carries no word. -/
def Obligations.PortBytesLittleEndian : Prop :=
  (∀ (w : CmdWord) (b k : Nat), b < 16 → k < 8 →
      ∃ x, (portBytes w)[b]? = some x ∧ x.getLsbD k = w.getLsbD (8 * b + k))
  ∧ (∀ w : CmdWord, wordOfBytes (portBytes w) = some w)
  ∧ ∀ bs : List Byte, bs.length ≠ 16 → wordOfBytes bs = none

/-! ### The common checks (30_encoding.md R113, R116, R117; 60_exceptions.md R332) -/

/-- R116, R312: a word with a bit of RSV set, whatever else it holds, and a word with a reserved opcode change nothing
but STATUS.INVALID, and the drain goes on with the later commands. -/
def Obligations.MalformedOrReservedWordDropped : Prop :=
  ∀ (w : CmdWord) (s : State),
    w.extractLsb' 32 32 ≠ 0 ∨ w.extractLsb' 0 8 = 0 ∨ 0x15 ≤ (w.extractLsb' 0 8).toNat →
      applyWord w s = .next { s with status := s.status ||| 0x02 }
      ∧ ∀ rest, s.fifo = w :: rest → drain s = drain { s with fifo := rest, status := s.status ||| 0x02 }

/-- R113, checks 3 and 4: an oscillator command whose index is N_OSC or more, and a value command whose value is not
finite, change nothing but STATUS.INVALID. -/
def Obligations.BadIndexOrValueDropped : Prop :=
  ∀ (i : Instr) (s : State),
    (∃ k, i.oscIndex = some k ∧ s.nOsc ≤ k.toNat) ∨ (∃ v, i.value = some v ∧ fIsFinite v = false) →
      exec i s = .next { s with status := s.status ||| 0x02 }

/-- R332, R335: a command word sets INVALID where it gives one of the causes of the table, and nowhere else; QUIT
sets HALTED and nothing else; no command touches another bit of STATUS. -/
def Obligations.StatusBitsOfACommand : Prop :=
  ∀ (w : CmdWord) (s : State), ∃ t, applyWord w s = .next t
    ∧ (decode w = .ok .quit → t.status = s.status ||| 0x08)
    ∧ (decode w ≠ .ok .quit → t.status = s.status ||| (if causeOfInvalid w s then 0x02 else 0x00))

/-! ### The oscillator commands (43_cmd_oscillator.md) -/

/-- R230: BYPASS writes the flag and nothing else; a flag above 1 is applied as true, with INVALID. -/
def Obligations.BypassWritesTheFlag : Prop :=
  ∀ (i a : BitVec 8) (s : State) (o : Oscillator), s.osc[i.toNat]? = some o →
    exec (.bypass i a) s = .next
      { s with
        osc := s.osc.set i.toNat { o with bypass := decide (a ≠ 0) }
        status := if 1 < a.toNat then s.status ||| 0x02 else s.status }

/-- R231, R232: COARSE and FINE write their register and recompute DETUNE from both, and nothing else. -/
def Obligations.DetuneCommandsRecomputeDetune : Prop :=
  ∀ (i : BitVec 8) (v : F64) (s : State) (o : Oscillator), s.osc[i.toNat]? = some o → fIsFinite v = true →
    exec (.coarse i v) s = .next
      { s with
        osc := s.osc.set i.toNat
          { o with coarse := v, detune := fExp2 (fDiv (fAdd v (fDiv o.fine fpHundred)) fpTwelve) } }
    ∧ exec (.fine i v) s = .next
      { s with
        osc := s.osc.set i.toNat
          { o with fine := v, detune := fExp2 (fDiv (fAdd o.coarse (fDiv v fpHundred)) fpTwelve) } }

/-- R233, R234, R235: FMRANGE, FREQ and GAIN write their registers and nothing else; a negative frequency is clamped
to +0.0 with INVALID, and −0.0 is kept; GAIN recomputes the amplifier's GAIN from GAIN_DB. -/
def Obligations.FmrangeFreqGainWriteTheirRegisters : Prop :=
  ∀ (i : BitVec 8) (v : F64) (s : State) (o : Oscillator), s.osc[i.toNat]? = some o → fIsFinite v = true →
    exec (.fmrange i v) s = .next { s with osc := s.osc.set i.toNat { o with fmrange := v } }
    ∧ exec (.freq i v) s = .next
      { s with
        osc := s.osc.set i.toNat { o with freq := if fLt v fpZero then fpZero else v }
        status := if fLt v fpZero then s.status ||| 0x02 else s.status }
    ∧ exec (.gain i v) s = .next
      { s with osc := s.osc.set i.toNat { o with amp := { o.amp with gainDb := v, gain := dbToAmp v } } }

/-- R236, R238: PITCHMODE and WAVEFORM select their code and write nothing else (not FREQ, not PHASE); an unknown code
selects CONST, or Sine, with INVALID. -/
def Obligations.PitchmodeAndWaveformSelect : Prop :=
  ∀ (i a : BitVec 8) (s : State) (o : Oscillator), s.osc[i.toNat]? = some o →
    exec (.pitchmode i a) s = .next
      { s with
        osc := s.osc.set i.toNat { o with pmode := if a = 1 then .midi else .const }
        status := if 1 < a.toNat then s.status ||| 0x02 else s.status }
    ∧ exec (.waveform i a) s = .next
      { s with
        osc := s.osc.set i.toNat
          { o with wave :=
              if a = 0 then .noise else if a = 1 then .saw else if a = 3 then .square
              else if a = 4 then .triangle else .sine }
        status := if 4 < a.toNat then s.status ||| 0x02 else s.status }

/-- R237: an accepted OUTPUT i → OSC(j) moves the route in one step. The new carrier gains i with a slot of +0.0, the
old one loses it with its slot, every other slot stays, OUT of i alone changes, and no other register does. -/
def Obligations.OutputJoinsTheCarrier : Prop :=
  ∀ (i b : BitVec 8) (s : State) (oi oj : Oscillator),
    s.osc[i.toNat]? = some oi → s.osc[b.toNat]? = some oj → b ≠ i → oj.out = .master → oi.fmin = [] →
    oi.out ≠ .osc b.toNat →
    ∃ t, exec (.output i 1 b) s = .next t ∧ t = { s with osc := t.osc } ∧ t.nOsc = s.nOsc
      ∧ ∀ (k : Nat) (o : Oscillator), s.osc[k]? = some o → ∃ o', t.osc[k]? = some o'
        ∧ o' = { o with slots := o'.slots, out := if k = i.toNat then .osc b.toNat else o.out }
        ∧ (∀ m, m ∈ o'.fmin ↔ (m ∈ o.fmin ∧ ¬(m = i.toNat ∧ oi.out = .osc k)) ∨ (m = i.toNat ∧ k = b.toNat))
        ∧ (k = b.toNat → o'.slots.lookup i.toNat = some fpZero)
        ∧ (oi.out = .osc k → o'.slots.lookup i.toNat = none)
        ∧ (∀ m, m ≠ i.toNat → o'.slots.lookup m = o.slots.lookup m)
        ∧ (k ≠ b.toNat → oi.out ≠ .osc k → o'.slots = o.slots)

/-- R237: OUTPUT i → Master, and every unknown target kind with INVALID set, takes i from its carrier's FM inputs and
changes no other route and no other register. B is not read. -/
def Obligations.OutputReturnsToMaster : Prop :=
  ∀ (i a b : BitVec 8) (s : State) (oi : Oscillator), s.osc[i.toNat]? = some oi → a ≠ 1 →
    ∃ t, exec (.output i a b) s = .next t ∧ t.nOsc = s.nOsc
      ∧ t = { s with osc := t.osc, status := if 1 < a.toNat then s.status ||| 0x02 else s.status }
      ∧ ∀ (k : Nat) (o : Oscillator), s.osc[k]? = some o → ∃ o', t.osc[k]? = some o'
        ∧ o' = { o with slots := o'.slots, out := if k = i.toNat then .master else o.out }
        ∧ (oi.out = .osc k → o'.slots = o.slots.filter fun e => e.1 != i.toNat)
        ∧ (oi.out ≠ .osc k → o'.slots = o.slots)

/-- R237: a route to the oscillator itself, to none of the bank, to one that is not Master-routed, or of one that has FM
inputs is rejected: nothing changes but STATUS.INVALID. A route to the present target changes nothing at all. -/
def Obligations.OutputRejectsIllegalRoutes : Prop :=
  (∀ (i b : BitVec 8) (s : State) (oi : Oscillator), s.osc[i.toNat]? = some oi →
    s.nOsc ≤ b.toNat ∨ b = i ∨ (∃ oj, s.osc[b.toNat]? = some oj ∧ oj.out ≠ .master) ∨ oi.fmin ≠ [] →
    exec (.output i 1 b) s = .next { s with status := s.status ||| 0x02 })
  ∧ ∀ (i b : BitVec 8) (s : State) (oi oj : Oscillator), s.osc[i.toNat]? = some oi → s.osc[b.toNat]? = some oj →
    b ≠ i → oj.out = .master → oi.fmin = [] → oi.out = .osc b.toNat → exec (.output i 1 b) s = .next s

/-- R36: oscillators alias no state. Two commands other than OUTPUT on different oscillators leave the same state in
either order. -/
def Obligations.OscillatorCommandsCommute : Prop :=
  ∀ (c d : Instr) (i k : BitVec 8) (s : State), c.oscIndex = some i → d.oscIndex = some k → i ≠ k →
    c.opcode ≠ 0x08 → d.opcode ≠ 0x08 → andThen (exec c s) (exec d) = andThen (exec d s) (exec c)

/-! ### The master commands (44_cmd_master.md) -/

/-- R270, R271, R273: ATTACK, DECAY and RELEASE write one time of the master envelope and nothing else; a negative time
is clamped to +0.0 with INVALID, and −0.0 is kept. -/
def Obligations.MasterTimesWriteTheEnvelope : Prop :=
  ∀ (v : F64) (s : State), fIsFinite v = true →
    exec (.attack v) s = .next
      { s with
        master := { s.master with envA := if fLt v fpZero then fpZero else v }
        status := if fLt v fpZero then s.status ||| 0x02 else s.status }
    ∧ exec (.decay v) s = .next
      { s with
        master := { s.master with envD := if fLt v fpZero then fpZero else v }
        status := if fLt v fpZero then s.status ||| 0x02 else s.status }
    ∧ exec (.release v) s = .next
      { s with
        master := { s.master with envR := if fLt v fpZero then fpZero else v }
        status := if fLt v fpZero then s.status ||| 0x02 else s.status }

/-- R272: SUSTAIN writes the master's level clamped into [0, 1], with INVALID where it had to clamp. -/
def Obligations.SustainClampsTheLevel : Prop :=
  ∀ (v : F64) (s : State), fIsFinite v = true →
    exec (.sustain v) s = .next
      { s with
        master := { s.master with envS := if fLt v fpZero then fpZero else if fLt fpOne v then fpOne else v }
        status := if fLt v fpZero ∨ fLt fpOne v then s.status ||| 0x02 else s.status }

/-- R274, R275: MASTER writes the master gain in dB and its cached factor; MIXERMODE selects the mode, CONST with
INVALID for an unknown code; neither writes anything else. -/
def Obligations.MasterGainAndMixerMode : Prop :=
  (∀ (v : F64) (s : State), fIsFinite v = true →
    exec (.master v) s = .next { s with master := { s.master with gainDb := v, gain := dbToAmp v } })
  ∧ ∀ (a : BitVec 8) (s : State),
    exec (.mixermode a) s = .next
      { s with
        mmode := if a = 1 then .midi else .const
        status := if 1 < a.toNat then s.status ||| 0x02 else s.status }

/-! ### The note and system commands (45_cmd_note.md, 46_cmd_system.md) -/

/-- R290, R291: NOTEON reaches every oscillator and the master amplifier. The pitch, clamped to 127, is pushed where it
is new; in MIDI mode alone FREQ follows it, and PHASE restarts where the stack was empty. -/
def Obligations.NoteonReachesEveryTracker : Prop :=
  ∀ (a v : BitVec 8) (p : Pitch) (s : State), p.val = min a.toNat 127 →
    ∃ t, exec (.noteon a v) s = .next t ∧ t.nOsc = s.nOsc
      ∧ t = { s with
          osc := t.osc, master := ampNoteOn s.tick p s.master
          status := if 127 < a.toNat then s.status ||| 0x02 else s.status }
      ∧ ∀ (k : Nat) (o : Oscillator), s.osc[k]? = some o → t.osc[k]? = some
        { o with
          pstack := if p ∈ o.pstack then o.pstack else p :: o.pstack
          phase := if o.pmode = .midi ∧ o.pstack = [] then fpZero else o.phase
          freq := if o.pmode = .midi then romHz p else o.freq
          amp := ampNoteOn s.tick p o.amp }

/-- R290, R292: NOTEOFF reaches every oscillator and the master amplifier. The pitch, clamped to 127, leaves every
stack; in MIDI mode FREQ takes the new front pitch where the stack is not empty, and keeps its value where it is. -/
def Obligations.NoteoffReachesEveryTracker : Prop :=
  ∀ (a : BitVec 8) (p : Pitch) (s : State), p.val = min a.toNat 127 →
    ∃ t, exec (.noteoff a) s = .next t ∧ t.nOsc = s.nOsc
      ∧ t = { s with
          osc := t.osc, master := ampNoteOff s.tick p s.master
          status := if 127 < a.toNat then s.status ||| 0x02 else s.status }
      ∧ ∀ (k : Nat) (o : Oscillator), s.osc[k]? = some o → ∃ o', t.osc[k]? = some o'
        ∧ o' = { o with pstack := o.pstack.filter (· != p), freq := o'.freq, amp := ampNoteOff s.tick p o.amp }
        ∧ (o.pmode = .const ∨ o'.pstack = [] → o'.freq = o.freq)
        ∧ ∀ q l, o.pmode = .midi → o'.pstack = q :: l → o'.freq = romHz q

/-- R291: the velocity of a NOTEON has no effect, whatever its value. -/
def Obligations.VelocityIsNotRead : Prop :=
  ∀ (a v v' : BitVec 8) (s : State), exec (.noteon a v) s = exec (.noteon a v') s

/-- R293: PITCHBEND assembles PB from its two bytes, each clamped to 127 with INVALID, computes BEND from PB, and
writes nothing else; the centre gives exactly 1.0 for every PB_RANGE that is finite (for a negative
one this rests on exp2(−0.0) = 1.0, which the model reads from R293: log entry 7). -/
def Obligations.PitchbendWritesPbAndBend : Prop :=
  ∀ (l m : BitVec 8) (s : State),
    ∃ t, exec (.pitchbend l m) s = .next t
      ∧ t = { s with
          pb := t.pb, bend := t.bend
          status := if 127 < l.toNat ∨ 127 < m.toNat then s.status ||| 0x02 else s.status }
      ∧ t.pb.toNat = min m.toNat 127 * 128 + min l.toNat 127
      ∧ t.bend = fExp2 (fDiv (fMul s.params.pbRange (fDiv (fOfInt ((t.pb.toNat : Int) - 8192)) fp8192)) fpTwelve)
      ∧ (l = 0 → m = 64 → fIsFinite s.params.pbRange = true → t.pb = 8192 ∧ t.bend = fpOne)

/-- R310: RESETMIDI changes no register. -/
def Obligations.ResetmidiChangesNothing : Prop := ∀ s : State, exec .resetmidi s = .next s

/-- R311: QUIT sets HALTED, the later entries of the FIFO are discarded unapplied, and the rest of the state is frozen,
not cleared; the tick that drains it computes nothing, returns +0.0 and does not advance TICK. -/
def Obligations.QuitHaltsTheBlock : Prop :=
  (∀ s : State, exec .quit s = .next { s with status := s.status ||| 0x08, fifo := [] })
  ∧ ∀ (s : State) (w : CmdWord) (rest : List CmdWord), s.halted = false → s.fifo = w :: rest → decode w = .ok .quit →
    tick s = .next { s with status := s.status ||| 0x08, fifo := [], reply := .sample fpZero }

/-- Every command completes: no command and no word of the FIFO ends in a fault or a refusal (R330, R343). -/
def Obligations.EveryCommandCompletes : Prop :=
  (∀ (i : Instr) (s : State), ∃ t, exec i s = .next t) ∧ ∀ (w : CmdWord) (s : State), ∃ t, applyWord w s = .next t

/-- What no command writes (R30, R31, R32, R35, R47): TICK, SR, OUT_SAMPLE, the parameters, the size of the bank, an
oscillator's envelope, a LEGATO flag, an amplifier's LAST, and, but for QUIT, the FIFO; nor the model's environment. -/
def Obligations.NoCommandWritesTheseRegisters : Prop :=
  ∀ (i : Instr) (s t : State), exec i s = .next t →
    t.tick = s.tick ∧ t.sr = s.sr ∧ t.outSample = s.outSample ∧ t.params = s.params ∧ t.nOsc = s.nOsc
    ∧ (i ≠ .quit → t.fifo = s.fifo)
    ∧ t.inbox = s.inbox ∧ t.reply = s.reply ∧ t.noiseIn = s.noiseIn ∧ t.noiseCount = s.noiseCount
    ∧ t.master.legato = s.master.legato ∧ t.master.last = s.master.last
    ∧ ∀ (k : Nat) (o o' : Oscillator), s.osc[k]? = some o → t.osc[k]? = some o' →
      o'.amp.envA = o.amp.envA ∧ o'.amp.envD = o.amp.envD ∧ o'.amp.envS = o.amp.envS ∧ o'.amp.envR = o.amp.envR
      ∧ o'.amp.legato = o.amp.legato ∧ o'.amp.last = o.amp.last

/-- R41: OUTPUT alone changes a route: every other command leaves every OUT and every FM slot as it is. -/
def Obligations.OnlyOutputChangesRoutes : Prop :=
  ∀ (i : Instr) (s t : State), i.opcode ≠ 0x08 → exec i s = .next t →
    ∀ (k : Nat) (o o' : Oscillator), s.osc[k]? = some o → t.osc[k]? = some o' → o'.out = o.out ∧ o'.slots = o.slots

/-! ### The amplifier (41_envelope_amplifier.md) -/

/-- R173: `amp_note_on`. The first pitch starts the attack and clears the release; a further new pitch restarts it only
without legato; a pitch already held changes nothing. -/
def Obligations.AmpNoteOnTransitions : Prop :=
  ∀ (now : Stamp) (p : Pitch) (a : Amplifier),
    (a.held = [] → ampNoteOn now p a = { a with held := [p], start := some now, rstart := none, estate := .attack })
    ∧ (p ∈ a.held → ampNoteOn now p a = a)
    ∧ (a.held ≠ [] → p ∉ a.held →
        (∀ q, q ∈ (ampNoteOn now p a).held ↔ q = p ∨ q ∈ a.held)
        ∧ ampNoteOn now p a = { a with
            held := (ampNoteOn now p a).held
            start := if a.legato then a.start else some now
            estate := if a.legato then a.estate else .attack })

/-- R174: `amp_note_off`. The last held pitch starts the release, from the anchor LAST as it is; another held pitch only
leaves the set; a pitch that is not held changes nothing. -/
def Obligations.AmpNoteOffTransitions : Prop :=
  ∀ (now : Stamp) (p : Pitch) (a : Amplifier),
    (p ∉ a.held → ampNoteOff now p a = a)
    ∧ (p ∈ a.held → (∀ q ∈ a.held, q = p) →
        ampNoteOff now p a = { a with held := [], start := none, rstart := some now, estate := .release })
    ∧ (p ∈ a.held → (∃ q ∈ a.held, q ≠ p) →
        ampNoteOff now p a = { a with held := a.held.filter (· != p) })

/-- R175, R177, R178: the held branch of `amp_calc` at the elapsed time t of START: attack, decay or sustain, with LAST
written, and the sample `(x × a) × GAIN`. -/
def Obligations.AmpCalcHeldBranch : Prop :=
  ∀ (now st : Stamp) (sr x t : F64) (a : Amplifier), a.held ≠ [] → a.start = some st →
    t = fDiv (fOfNat (now - st).toNat) sr →
    (fLe t a.envA = true →
      ∀ target, target = (if fLt fpZero a.envD then fpOne else a.envS) →
      ∀ y, y = (if fEq a.envA fpZero then target else fMul target (fDiv t a.envA)) →
        ampAfterCalc now sr a = { a with estate := .attack, last := y }
        ∧ ampOutput now sr a x = fMul (fMul x y) a.gain)
    ∧ (fLe t a.envA = false → fLt (fAdd a.envA a.envD) t = true →
        ampAfterCalc now sr a = { a with estate := .sustain, last := a.envS }
        ∧ ampOutput now sr a x = fMul (fMul x a.envS) a.gain)
    ∧ (fLe t a.envA = false → fLt (fAdd a.envA a.envD) t = false →
      ∀ y, y = fAdd fpOne (fMul (fSub a.envS fpOne) (fDiv (fSub t a.envA) a.envD)) →
        ampAfterCalc now sr a = { a with estate := .decay, last := y }
        ∧ ampOutput now sr a x = fMul (fMul x y) a.gain)

/-- R175, R176, R177: the release branch at the elapsed time t of RSTART, and the idle branch: LAST is read, not
written; a release that has run its time ends at +0.0 in IDLE. -/
def Obligations.AmpCalcReleaseAndIdle : Prop :=
  ∀ (now : Stamp) (sr x : F64) (a : Amplifier), a.held = [] →
    (∀ st t, a.estate = .release → a.rstart = some st → t = fDiv (fOfNat (now - st).toNat) sr →
      (fLe a.envR t = true →
        ampAfterCalc now sr a = { a with estate := .idle } ∧ ampOutput now sr a x = fMul (fMul x fpZero) a.gain)
      ∧ (fLe a.envR t = false →
        ampAfterCalc now sr a = a
        ∧ ampOutput now sr a x = fMul (fMul x (fMul a.last (fSub fpOne (fDiv t a.envR)))) a.gain))
    ∧ (a.estate ≠ .release → ampAfterCalc now sr a = a ∧ ampOutput now sr a x = fMul (fMul x fpZero) a.gain)

/-! ### The oscillator's datapath (40_wavetable_oscillator.md) -/

/-- R8, R141, R142, R147: the four tables and MIDI_HZ are the formulas of the spec over sin, asin and exp2, with π, 2π and
2/π rounded as R141 says; Noise has no table. R8: the properties it names of the configuration functions hold;
that its ≈ 0.1 is the range from 0.05 to below 0.15 is the model's choice (log entry 20). Every entry of the Square table is +1.0 or −1.0; MIDI_HZ[69] and
MIDI_HZ[81] are exact. The first entries of Sine, Triangle and Saw are +0.0 and of Square +1.0: these rest on
sin(+0.0) = asin(+0.0) = +0.0, which the model reads from R142, R152 and R371 (log entry 6). -/
def Obligations.RomProperties : Prop :=
  (∀ k, wtSquare k = fpOne ∨ wtSquare k = fpMinusOne)
  ∧ (wtSine 0 = fpZero ∧ wtTriangle 0 = fpZero ∧ wtSaw 0 = fpZero ∧ wtSquare 0 = fpOne)
  ∧ romHz 69 = 0x407B800000000000 ∧ romHz 81 = 0x408B800000000000
  ∧ (fExp2 fpZero = fpOne ∧ dbToAmp fpZero = fpOne
    ∧ fLe 0x3FA999999999999A (dbToAmp 0xC034000000000000) = true
    ∧ fLt (dbToAmp 0xC034000000000000) 0x3FC3333333333333 = true)
  ∧ (∀ n : Pitch, n ≠ 81 → romHz n = fMul fp440 (fExp2 (fDiv (fOfInt ((n.val : Int) - 69)) fpTwelve)))
  ∧ (romWT .sine = some wtSine ∧ romWT .square = some wtSquare ∧ romWT .triangle = some wtTriangle
    ∧ romWT .saw = some wtSaw ∧ romWT .noise = none)
  ∧ ∀ (k : Nat) (ph tau overPi : F64),
    ph = fDiv (fOfNat k) fp1024 → tau = 0x401921FB54442D18 → overPi = fDiv fpTwo 0x400921FB54442D18 →
    wtSine k = fSin (fMul tau ph)
    ∧ wtSquare k = (if fLe fpZero (wtSine k) then fpOne else fpMinusOne)
    ∧ wtTriangle k = fMul (fAsin (wtSine k)) overPi
    ∧ wtSaw k = fMul
        ((List.range' 1 40).foldl
          (fun acc h => fAdd acc (fDiv (fSin (fMul (fMul tau (fOfNat h)) ph)) (fOfNat h))) fpZero)
        overPi

/-- R144: every draw lies in [−1.0, 1.0), whatever the environment offers, and takes one input; an offer in the range
is the draw. That an offer outside the range stands for +0.0 is the model's choice (log entry 8), and not stated. -/
def Obligations.NoiseDrawInRange : Prop :=
  ∀ s : State, fLe fpMinusOne (drawNoise s).value = true ∧ fLt (drawNoise s).value fpOne = true
    ∧ ((drawNoise s).state = { s with noiseIn := s.noiseIn.tail } ∧ s.noiseIn ≠ []
      ∨ (drawNoise s).state = { s with noiseCount := s.noiseCount + 1 } ∧ s.noiseIn = [])
    ∧ (∀ v rest, s.noiseIn = v :: rest → fLe fpMinusOne v = true → fLt v fpOne = true → (drawNoise s).value = v)
    ∧ (∀ v, s.noiseIn = [] → v = Config.noise s.noiseCount → fLe fpMinusOne v = true → fLt v fpOne = true →
        (drawNoise s).value = v)

/-- R43, R146: the phase wrap of a finite x is r = x − (1024.0 × floor(x / 1024.0)) with its two guards, and of any
other x it is +0.0; it always lands in the table, `+0.0 ≤ wrap(x) < 1024.0`, for every x of binary64. -/
def Obligations.WrapLandsInTheTable : Prop :=
  ∀ x : F64, phaseLegal (wrapPhase x)
    ∧ (fIsFinite x = false → wrapPhase x = fpZero)
    ∧ (fIsFinite x = true →
      ∀ r r' : F64, r = fSub x (fMul fp1024 (fFloor (fDiv x fp1024))) →
        r' = (if fLt r fpZero then fAdd r fp1024 else r) →
        wrapPhase x = if fLe fp1024 r' then fpZero else r')

/-- R38, R150: a bypassed oscillator returns +0.0 and changes no state. -/
def Obligations.BypassedOscillatorIsFrozen : Prop :=
  ∀ (i : Nat) (s : State) (o : Oscillator), s.osc[i]? = some o → o.bypass = true → oscCalc i s = ⟨fpZero, s⟩

/-- R145, R146, R148 to R151: the calculation of a table oscillator that is not bypassed. It returns the entry at the
old PHASE, index floor(PHASE) mod 1024, shaped by the amplifier in MIDI pitch mode alone; PHASE advances by
(f × 1024.0) / SR, f the effective frequency plus each FM slot times half the depth, and wraps by R146's formula; a sum
that is not finite sets NONFINITE and gives PHASE = +0.0; nothing else changes. -/
def Obligations.OscCalcOfATableWaveform : Prop :=
  ∀ (i : Nat) (s : State) (o : Oscillator) (table : Nat → F64) (raw f sum r r' : F64),
    s.osc[i]? = some o → o.bypass = false → romWT o.wave = some table →
    raw = table (tableIndex o.phase) →
    f = o.slots.foldl (fun f e => fAdd f (fMul e.2 (fDiv o.fmrange fpTwo)))
      (fMul (fMul o.freq o.detune) (if o.pmode = .midi then s.bend else fpOne)) →
    sum = fAdd o.phase (fDiv (fMul f fp1024) s.sr) →
    r = fSub sum (fMul fp1024 (fFloor (fDiv sum fp1024))) →
    r' = (if fLt r fpZero then fAdd r fp1024 else r) →
    (fIsFinite o.phase = true → tableIndex o.phase = (fVal o.phase / (fUnit : Int) % 1024).toNat)
    ∧ oscCalc i s =
      ⟨if o.pmode = .midi then ampOutput s.tick s.sr o.amp raw else raw,
        { s with
          osc := s.osc.set i
            { o with
              phase := if fIsFinite sum then (if fLe fp1024 r' then fpZero else r') else fpZero
              amp := if o.pmode = .midi then ampAfterCalc s.tick s.sr o.amp else o.amp }
          status := if fIsFinite sum then s.status else s.status ||| 0x04 }⟩

/-- R144, R146, R150, R151: the calculation of a Noise oscillator that is not bypassed: the sample is one draw, PHASE
advances by 1.0 whatever the frequency and the FM inputs, wrapped by R146's formula, and nothing else changes. -/
def Obligations.OscCalcOfNoise : Prop :=
  ∀ (i : Nat) (s : State) (o : Oscillator) (sum r r' : F64),
    s.osc[i]? = some o → o.bypass = false → o.wave = .noise → sum = fAdd o.phase fpOne →
    r = fSub sum (fMul fp1024 (fFloor (fDiv sum fp1024))) →
    r' = (if fLt r fpZero then fAdd r fp1024 else r) →
    oscCalc i s =
      ⟨if o.pmode = .midi then ampOutput s.tick s.sr o.amp (drawNoise s).value else (drawNoise s).value,
        { s with
          noiseIn := (drawNoise s).state.noiseIn
          noiseCount := (drawNoise s).state.noiseCount
          osc := s.osc.set i
            { o with
              phase := if fIsFinite sum then (if fLe fp1024 r' then fpZero else r') else fpZero
              amp := if o.pmode = .midi then ampAfterCalc s.tick s.sr o.amp else o.amp }
          status := if fIsFinite sum then s.status else s.status ||| 0x04 }⟩

/-- R10: `+`, `−`, `×` and `/` of finite operands, `float(n)`, and the rounding they end in, deliver the exact result
rounded to nearest, ties to even: `RoundsTo` says what that is. A product and a quotient have the exclusive or of the
signs, a zero ones too; an exact zero sum is −0.0 where both operands are negative, and else +0.0; floor is the exact
floor. -/
def Obligations.RoundingIsToNearestEven : Prop :=
  (∀ (neg : Bool) (n d : Nat) (e : Int), 0 < d → e = (if neg then -(n : Int) else (n : Int)) →
    RoundsTo (fRound neg n d) e d)
  ∧ (∀ x y : F64, fIsFinite x = true → fIsFinite y = true →
    RoundsTo (fAdd x y) (fVal x + fVal y) 1
    ∧ RoundsTo (fSub x y) (fVal x - fVal y) 1
    ∧ RoundsTo (fMul x y) (fVal x * fVal y) fUnit
    ∧ (0 < fVal y → RoundsTo (fDiv x y) (fVal x * fUnit) (fVal y).natAbs)
    ∧ (fVal y < 0 → RoundsTo (fDiv x y) (-(fVal x * fUnit)) (fVal y).natAbs)
    ∧ (fVal x + fVal y = 0 → fSign (fAdd x y) = (fSign x && fSign y))
    ∧ (fVal x - fVal y = 0 → fSign (fSub x y) = (fSign x && !fSign y))
    ∧ fSign (fMul x y) = (fSign x != fSign y)
    ∧ (fVal y ≠ 0 → fSign (fDiv x y) = (fSign x != fSign y)))
  ∧ (∀ n : Int, RoundsTo (fOfInt n) (n * fUnit) 1)
  ∧ (∀ n : Nat, RoundsTo (fOfNat n) (n * fUnit) 1)
  ∧ ∀ x : F64, fIsFinite x = true →
    fIsFinite (fFloor x) = true ∧ fVal (fFloor x) = fVal x / (fUnit : Int) * fUnit

/-! ### The FIFO, the tick and the mixer (20_memory.md, 42_mixer_engine.md) -/

/-- R85: a push while halted changes no register; into a full FIFO it removes the oldest entry, appends the word and
sets LAG; else it appends the word. It touches nothing but the FIFO and STATUS, and never fails. -/
def Obligations.PushFollowsItsRule : Prop :=
  ∀ (s : State) (w : CmdWord) (rest : List HostStep), s.inbox = .push w :: rest →
    (s.halted = true → step s = .next { s with inbox := rest, reply := .none })
    ∧ (s.halted = false → s.fifo.length = s.params.cmdDepth →
        step s = .next { s with
          inbox := rest, reply := .none, fifo := s.fifo.drop 1 ++ [w], status := s.status ||| 0x01 })
    ∧ (s.halted = false → s.fifo.length ≠ s.params.cmdDepth →
        step s = .next { s with inbox := rest, reply := .none, fifo := s.fifo ++ [w] })

/-- R84, R86, R118, R203: a word that decodes is applied as its command, and any other as a drop with INVALID. The
drain applies the oldest entry, and then drains what is left, as long as commands leave the FIFO; when it ends the FIFO
is empty, and of an empty FIFO it changes nothing. A tick that is not halted, and so the tick strobe's step, drains every
pending entry first, and goes on from there as a tick with nothing to drain: it computes the sample, or, where the drain
halted the block, nothing. -/
def Obligations.DrainAppliesInOrder : Prop :=
  (∀ (w : CmdWord) (s : State),
    (∀ i, decode w = .ok i → applyWord w s = exec i s)
    ∧ ∀ e, decode w = .error e → applyWord w s = .next { s with status := s.status ||| 0x02 })
  ∧ (∀ (s : State) (w : CmdWord) (rest : List CmdWord), s.fifo = w :: rest →
    drain s = andThen (applyWord w { s with fifo := rest }) drain)
  ∧ (∀ s : State, s.fifo = [] → drain s = .next s)
  ∧ (∀ s : State, ∃ t, drain s = .next t ∧ t.fifo = []
    ∧ (s.halted = false → tick s = tick t
      ∧ (t.halted = true → tick s = .next { t with reply := .sample fpZero })))
  ∧ ∀ (s : State) (rest : List HostStep), s.inbox = .tick :: rest →
    ∃ t, drain { s with inbox := rest } = .next t ∧ t.fifo = []
      ∧ (s.halted = false → step s = tick t
        ∧ (t.halted = true → step s = .next { t with reply := .sample fpZero }))

/-- R33, R203: a halted tick returns +0.0, drains nothing and changes no register. -/
def Obligations.HaltedTickIsSilent : Prop :=
  ∀ s : State, s.halted = true → tick s = .next { s with reply := .sample fpZero }

/-- R150, R203 to R206: what a tick with nothing to drain leaves. TICK advances by one modulo 2^64, OUT_SAMPLE holds
the sample the tick returns, which is finite, and STATUS gains at most NONFINITE. Of an oscillator it changes PHASE, the
FM samples (never FMIN), and the amplifier's ESTATE and LAST; of a bypassed one only the FM samples; of the master
amplifier ESTATE and LAST, in MIDI mixer mode alone. Every oscillator that is not bypassed is calculated once: in MIDI
pitch mode its amplifier is stepped once, and with the routes legal (R41, R42) each FM slot holds its modulator's sample
of this tick, and PHASE is the wrap of the sum that those samples give. -/
def Obligations.TickChangesOnlyTheDatapath : Prop :=
  ∀ s : State, s.halted = false → s.fifo = [] →
    ∃ t, tick s = .next t ∧ t.nOsc = s.nOsc
      ∧ t = { s with
          osc := t.osc, master := t.master, status := t.status, outSample := t.outSample
          noiseIn := t.noiseIn, noiseCount := t.noiseCount
          tick := s.tick + 1, reply := .sample t.outSample }
      ∧ fIsFinite t.outSample = true
      ∧ (t.status = s.status ∨ t.status = s.status ||| 0x04)
      ∧ t.master = { s.master with estate := t.master.estate, last := t.master.last }
      ∧ (s.mmode = .const → t.master = s.master)
      ∧ (s.mmode = .midi → t.master = ampAfterCalc s.tick s.sr s.master)
      ∧ ∀ (k : Nat) (o : Oscillator), s.osc[k]? = some o → ∃ o', t.osc[k]? = some o'
        ∧ o' = { o with
            phase := o'.phase, slots := o'.slots
            amp := { o.amp with estate := o'.amp.estate, last := o'.amp.last } }
        ∧ o'.fmin = o.fmin
        ∧ (o.bypass = true → o'.phase = o.phase ∧ o'.amp = o.amp)
        ∧ (o.pmode = .const → o'.amp = o.amp)
        ∧ (o.bypass = false → o.pmode = .midi → o'.amp = ampAfterCalc s.tick s.sr o.amp)
        ∧ (s.RoutingInv → o'.slots = o.fmin.map fun m => (m, s.tickSample m))
        ∧ (s.RoutingInv → o.bypass = false → o'.phase = wrapPhase (s.tickPhaseSum o))

/-- R144, R200, R203, R205, R334: the sample of a tick with nothing to drain: the outputs of the Master-routed
oscillators summed from +0.0 in ascending index; in CONST mixer mode scaled by the master gain, in MIDI mode shaped by
the master amplifier; then scaled by HEADROOM, with a non-finite result replaced by +0.0. The Noise oscillators take
one draw each, in the evaluation order, modulators first; nothing else takes one. NONFINITE is set where the scaled
sample is not finite, or (the routes legal) the phase sum of an oscillator that is not bypassed, and nowhere else. -/
def Obligations.TickSampleIsTheMix : Prop :=
  ∀ (s : State) (sum m y : F64), s.halted = false → s.fifo = [] →
    sum = s.carrierIndices.foldl (fun acc i => fAdd acc (s.tickSample i)) fpZero →
    m = (match s.mmode with
      | .midi => ampOutput s.tick s.sr s.master sum
      | .const => fMul sum s.master.gain) →
    y = fMul m s.params.headroom →
    ∃ t, tick s = .next t
      ∧ t.outSample = (if fIsFinite y then y else fpZero)
      ∧ t.noiseIn = (s.afterDraws (s.osc.countP Oscillator.takesDraw)).noiseIn
      ∧ t.noiseCount = (s.afterDraws (s.osc.countP Oscillator.takesDraw)).noiseCount
      ∧ (fIsFinite y = false → t.status = s.status ||| 0x04)
      ∧ (s.RoutingInv →
        ((∃ o ∈ s.osc, o.bypass = false ∧ fIsFinite (s.tickPhaseSum o) = false) → t.status = s.status ||| 0x04)
        ∧ (fIsFinite y = true → (∀ o ∈ s.osc, o.bypass = false → fIsFinite (s.tickPhaseSum o) = true) →
          t.status = s.status))

/-- R204: a carrier reads its modulator's sample of the same tick: after phase 1 the slot of each modulator holds the
sample it computes in this tick. That sample is what `osc_calc` gives on the state the tick began with, for a Noise
oscillator once the oscillators before it in the evaluation order have taken their draws. -/
def Obligations.ModulatorHeardInTheSameTick : Prop :=
  ∀ (s : State) (i j : Nat) (oi : Oscillator), s.RoutingInv → s.osc[i]? = some oi → oi.out = .osc j →
    (∃ oj, (modulators s).osc[j]? = some oj ∧ oj.slots.lookup i = some (s.tickSample i))
    ∧ (oi.wave ≠ .noise → s.tickSample i = (oscCalc i s).value)
    ∧ (oi.wave = .noise → s.tickSample i = (oscCalc i (s.afterDraws (s.drawsBefore i))).value)

/-- R207: `render` of a buffer of `len` elements on C channels, whatever type CONVERT gives: one tick for each whole
frame, each on the state the one before it left; frame f holds CONVERT of the sample its own tick returned, on every
channel; the trailing partial frame holds CONVERT of silence. In a block that is running with nothing to drain, TICK
has advanced by the number of frames, and the first frame is the sample of the first tick. -/
def Obligations.RenderFillsTheBuffer : Prop :=
  ∀ (α : Type) (convert : F64 → α) (len channels : Nat) (s : State), 0 < channels →
    ∃ (r : Rendered α) (u : Nat → State), render convert len channels s = .next r ∧ r.buffer.length = len
      ∧ u 0 = s ∧ r.state = u (len / channels)
      ∧ (∀ f, f < len / channels → tick (u f) = .next (u (f + 1))
        ∧ ∃ y, (u (f + 1)).reply = .sample y
          ∧ ∀ c, c < channels → r.buffer[f * channels + c]? = some (convert y))
      ∧ (∀ e, len / channels * channels ≤ e → e < len → r.buffer[e]? = some (convert fpZero))
      ∧ (s.halted = false → s.fifo = [] →
        r.state.tick = s.tick + BitVec.ofNat 64 (len / channels)
        ∧ ∀ t, 0 < len / channels → tick s = .next t → r.buffer[0]? = some (convert t.outSample))

/-! ### Steps of the machine -/

/-- R86, R118, R203: where the FIFO holds one word that decodes to a command, the tick strobe's step runs exactly that
command, which leaves the FIFO empty, and then goes on as a tick with nothing to drain: it computes the sample, or,
where the command was QUIT, nothing. -/
def Obligations.StepRunsTheDecodedCommand : Prop :=
  ∀ (s : State) (w : CmdWord) (i : Instr) (rest : List HostStep),
    s.inbox = .tick :: rest → s.halted = false → s.fifo = [w] → decode w = .ok i →
    ∃ t, exec i { s with inbox := rest, fifo := [] } = .next t ∧ t.fifo = []
      ∧ step s = tick t
      ∧ (t.halted = true → step s = .next { t with reply := .sample fpZero })

/-- R33, R342, R373: the halted state is left by reset alone: every other step of the host changes no register, and a
tick returns +0.0. -/
def Obligations.OnlyResetLeavesHalted : Prop :=
  ∀ (s : State) (h : HostStep) (rest : List HostStep), s.halted = true → s.inbox = h :: rest →
    (∀ sr, h ≠ .reset sr) →
    ∃ t, step s = .next t ∧ t.registers = s.registers ∧ t.inbox = rest ∧ (h = .tick → t.reply = .sample fpZero)

/-- R30, R339: TICK advances by one, modulo 2^64, in each tick that is not halted, QUIT's own included among the halted
ones; reset makes it 0; no other step of the host writes it. -/
def Obligations.TickRegisterCounts : Prop :=
  (∀ (s t : State) (rest : List HostStep), s.inbox = .tick :: rest → step s = .next t →
    t.tick = if t.halted then s.tick else s.tick + 1)
  ∧ (∀ (s t : State) (sr : F64) (rest : List HostStep), s.inbox = .reset sr :: rest → step s = .next t → t.tick = 0)
  ∧ ∀ s t : State, s.inbox.head? ≠ some .tick → (∀ sr, s.inbox.head? ≠ some (.reset sr)) → step s = .next t →
    t.tick = s.tick

/-- R60: the bits of STATUS are sticky: a step that is no reset clears none of them. -/
def Obligations.StatusBitsAreSticky : Prop :=
  ∀ s t : State, (∀ sr rest, s.inbox ≠ .reset sr :: rest) → step s = .next t → s.status &&& t.status = s.status

/-- R32, R330, R343, R360: a step stops only at a reset the spec refuses, and such a reset is refused: of a sample rate
that is not finite and positive, or of a block whose parameters are outside R7; the refusals for HEADROOM and CMD_DEPTH
are 93_implementation_defined.md's item 4 and the model's own (log entry 12). -/
def Obligations.OnlyABadResetIsRefused : Prop :=
  (∀ s : State, s.SafeStep
    ∨ ∃ sr rest, s.inbox = .reset sr :: rest
      ∧ ((fIsFinite sr && fLt fpZero sr) = false ∧ step s = .refused .badSampleRate
        ∨ (fIsFinite sr && fLt fpZero sr) = true
          ∧ (s.nOsc < 1 ∨ 256 < s.nOsc ∨ fIsFinite s.params.headroom = false ∨ s.params.cmdDepth = 0)
          ∧ step s = .refused .badConfiguration))
  ∧ ∀ (s : State) (sr : F64) (rest : List HostStep), s.inbox = .reset sr :: rest →
    (fIsFinite sr = false ∨ fLt fpZero sr = false → step s = .refused .badSampleRate)
    ∧ (fIsFinite sr = true → fLt fpZero sr = true →
      s.nOsc < 1 ∨ 256 < s.nOsc ∨ fIsFinite s.params.headroom = false ∨ s.params.cmdDepth = 0 →
      step s = .refused .badConfiguration)

/-- R63, R360: a reset with a finite positive sample rate gives every register its reset value, from any state; the
parameters and the LEGATO flags are configuration, and stay. -/
def Obligations.ResetGivesTheResetValues : Prop :=
  ∀ (s : State) (sr : F64) (rest : List HostStep), s.inbox = .reset sr :: rest →
    fIsFinite sr = true → fLt fpZero sr = true → 1 ≤ s.nOsc → s.nOsc ≤ 256 → fIsFinite s.params.headroom = true →
    1 ≤ s.params.cmdDepth →
    ∃ t, step s = .next t
      ∧ t.sr = sr ∧ t.tick = 0 ∧ t.pb = 8192 ∧ t.bend = fpOne ∧ t.outSample = fpZero ∧ t.status = 0 ∧ t.halted = false
      ∧ t.fifo = [] ∧ t.mmode = .const ∧ t.params = s.params ∧ t.nOsc = s.nOsc
      ∧ t.master =
        { envA := fpZero, envD := fpZero, envS := fpOne, envR := fpZero, gainDb := fpZero, gain := fpOne, held := [],
          last := fpZero, start := none, rstart := none, estate := .idle, legato := s.master.legato }
      ∧ ∀ (k : Nat) (o : Oscillator), s.osc[k]? = some o → t.osc[k]? = some
        { bypass := true, freq := fp440, coarse := fpZero, fine := fpZero, detune := fpOne, fmrange := fpZero,
          pmode := .const, wave := .sine, phase := fpZero, out := .master, slots := [], pstack := [],
          amp :=
            { envA := fpZero, envD := fpZero, envS := fpOne, envR := fpZero, gainDb := fpZero, gain := fpOne,
              held := [], last := fpZero, start := none, rstart := none, estate := .idle,
              legato := o.amp.legato } }

/-- R61, R89: each read port returns its register, and the read changes no register. -/
def Obligations.ReadsReturnTheirPorts : Prop :=
  ∀ (s : State) (rest : List HostStep),
    (s.inbox = .readStatus :: rest → step s = .next { s with inbox := rest, reply := .status s.status })
    ∧ (s.inbox = .readTick :: rest → step s = .next { s with inbox := rest, reply := .tick s.tick })
    ∧ (s.inbox = .readOutSample :: rest → step s = .next { s with inbox := rest, reply := .outSample s.outSample })

/-! ### Invariants that every step keeps -/

/-- R41, R42 (with the legal values of FMIN, R37): every step keeps the routes consistent and one level deep. -/
def Obligations.StepKeepsRouting : Prop := ∀ s t : State, s.RoutingInv → step s = .next t → t.RoutingInv

/-- R62: every step keeps all note stacks and held sets equal. -/
def Obligations.StepKeepsNotesAgree : Prop := ∀ s t : State, s.NotesAgree → step s = .next t → t.NotesAgree

/-- R46: every step keeps every amplifier in a state its held set allows. -/
def Obligations.StepKeepsEnvelopeStates : Prop :=
  ∀ s t : State, s.EveryAmp Amplifier.StateLegal → step s = .next t → t.EveryAmp Amplifier.StateLegal

/-- R37, R39, R44, R45, R47, R50, R60, R171, R205: every step keeps the registers in their legal values. FREQ keeps
R37's as far as the spec fixes the values: finite and not below zero, or an entry of ROM_HZ as that ROM gives it (the
entries are formulas over `exp2`, which R8 leaves open: log entry 11). -/
def Obligations.StepKeepsRegisterValues : Prop := ∀ s t : State, s.ValuesLegal → step s = .next t → t.ValuesLegal

/-- R43: every step keeps every PHASE in [+0.0, 1024.0). -/
def Obligations.StepKeepsPhasesInTheTable : Prop := ∀ s t : State, s.PhasesLegal → step s = .next t → t.PhasesLegal

/-- R63: the reset state of every legal configuration meets every invariant above. -/
def Obligations.ResetMeetsTheInvariants : Prop :=
  ∀ (p : Params) (legatoOsc : List Bool) (legatoMaster : Bool) (sr : F64), 1 ≤ p.cmdDepth →
    ∀ s, s = State.afterReset p legatoOsc legatoMaster sr →
      s.RoutingInv ∧ s.NotesAgree ∧ s.EveryAmp Amplifier.StateLegal ∧ s.ValuesLegal ∧ s.PhasesLegal

/-! ### Binary64 operands that are not finite, and comparisons (00_scope.md R10) -/

/-- R10: the comparisons of finite values are those of the numbers, with +0.0 == −0.0; an infinity lies beyond every
finite value, −∞ below +∞, and each is equal to itself; every comparison with a NaN is false; and the operations on NaN, infinities and zero divisors are IEEE
754's. -/
def Obligations.SpecialOperandsFollowIeee : Prop :=
  ∀ x y : F64,
    (fIsFinite x = true → fIsFinite y = true →
      (fLt x y = true ↔ fVal x < fVal y) ∧ (fLe x y = true ↔ fVal x ≤ fVal y) ∧ (fEq x y = true ↔ fVal x = fVal y))
    ∧ (fIsNaN x = true ∨ fIsNaN y = true →
      fLt x y = false ∧ fLe x y = false ∧ fEq x y = false
      ∧ fIsNaN (fAdd x y) = true ∧ fIsNaN (fSub x y) = true ∧ fIsNaN (fMul x y) = true ∧ fIsNaN (fDiv x y) = true)
    ∧ (fIsFinite x = true →
      fLt x (fInfinity false) = true ∧ fLt (fInfinity true) x = true
      ∧ fLt (fInfinity false) x = false ∧ fLt x (fInfinity true) = false)
    ∧ (fIsInf x = true → fIsFinite y = true →
      fLt x y = fSign x ∧ fLe x y = fSign x ∧ fEq x y = false
      ∧ fLt y x = !fSign x ∧ fLe y x = !fSign x ∧ fEq y x = false)
    ∧ (fIsInf x = true → fIsInf y = true →
      fLt x y = (fSign x && !fSign y) ∧ fLe x y = (fSign x || !fSign y) ∧ fEq x y = (fSign x == fSign y))
    ∧ (fIsInf x = true → fIsFinite y = true →
      fAdd x y = x ∧ fAdd y x = x ∧ fSub x y = x ∧ fSub y x = fInfinity (!fSign x)
      ∧ fDiv x y = fInfinity (fSign x != fSign y) ∧ fDiv y x = fPack (fSign x != fSign y) 0
      ∧ (fVal y = 0 → fIsNaN (fMul x y) = true ∧ fIsNaN (fMul y x) = true)
      ∧ (fVal y ≠ 0 → fMul x y = fInfinity (fSign x != fSign y) ∧ fMul y x = fInfinity (fSign x != fSign y)))
    ∧ (fIsInf x = true → fIsInf y = true →
      fMul x y = fInfinity (fSign x != fSign y) ∧ fIsNaN (fDiv x y) = true
      ∧ (fSign x = fSign y → fAdd x y = x ∧ fIsNaN (fSub x y) = true)
      ∧ (fSign x ≠ fSign y → fIsNaN (fAdd x y) = true ∧ fSub x y = x))
    ∧ (fIsFinite x = true → fVal y = 0 → fIsFinite y = true →
      (fVal x = 0 → fIsNaN (fDiv x y) = true) ∧ (fVal x ≠ 0 → fDiv x y = fInfinity (fSign x != fSign y)))
end

