-- ==== Sys2Proof/Laws/Float.lean ====
section
/-! SUPPORT. The small lemmas of the binary64 operations: what the fields of a packed pattern are, that finite values
are totally ordered, and that a NaN result is a NaN whatever its free bits. -/

namespace Sys2Proof.Machine

theorem fExp_lt (x : F64) : fExp x < 2048 := Nat.mod_lt _ (by decide)

theorem fFrac_lt (x : F64) : fFrac x < 2 ^ 52 := Nat.mod_lt _ (by decide)

/-- A finite value is no NaN. -/
theorem fIsNaN_of_finite {x : F64} (h : fIsFinite x = true) : fIsNaN x = false := by
  simp only [fIsFinite, bne_iff_ne] at h
  simp [fIsNaN, h]

/-- A finite value is no infinity. -/
theorem fIsInf_of_finite {x : F64} (h : fIsFinite x = true) : fIsInf x = false := by
  simp only [fIsFinite, bne_iff_ne] at h
  simp [fIsInf, h]

/-- A value that is neither NaN nor an infinity is finite. -/
theorem fIsFinite_iff (x : F64) : fIsFinite x = true ↔ fIsNaN x = false ∧ fIsInf x = false := by
  by_cases h : fExp x = 2047 <;> by_cases g : fFrac x = 0 <;> simp [fIsFinite, fIsNaN, fIsInf, h, g]

/-- Values that are not NaN are totally ordered. -/
theorem fLe_of_not_fLt {x y : F64} (hx : fIsNaN x = false) (hy : fIsNaN y = false) (h : fLt x y = false) :
    fLe y x = true := by
  simp only [fLt, hx, hy, Bool.not_false, Bool.true_and, decide_eq_false_iff_not, not_lt] at h
  simp [fLe, hx, hy, h]

theorem fLt_of_not_fLe {x y : F64} (hx : fIsNaN x = false) (hy : fIsNaN y = false) (h : fLe x y = false) :
    fLt y x = true := by
  simp only [fLe, hx, hy, Bool.not_false, Bool.true_and, decide_eq_false_iff_not, not_le] at h
  simp [fLt, hx, hy, h]

/-- The magnitude bits a pattern was packed from. -/
theorem fPack_toNat (neg : Bool) {m : Nat} (h : m < 2 ^ 63) :
    (fPack neg m).toNat = if neg then 2 ^ 63 + m else m := by
  cases neg <;> simp [fPack, BitVec.toNat_ofNat] <;> omega

theorem roundMag_le (n d : Nat) : roundMag n d ≤ 2047 * 2 ^ 52 := Nat.min_le_right _ _

theorem fRound_toNat (neg : Bool) (n d : Nat) :
    (fRound neg n d).toNat = if neg then 2 ^ 63 + roundMag n d else roundMag n d :=
  fPack_toNat neg (lt_of_le_of_lt (roundMag_le n d) (by norm_num))

/-- Rounding never delivers a NaN. -/
theorem fIsNaN_fRound (neg : Bool) (n d : Nat) : fIsNaN (fRound neg n d) = false := by
  have h := roundMag_le n d
  have e : (fRound neg n d).toNat % 2 ^ 63 = roundMag n d := by
    rw [fRound_toNat]; cases neg <;> simp <;> omega
  simp only [fIsNaN, fExp, fFrac, Bool.and_eq_false_iff, beq_eq_false_iff_ne, bne_eq_false_iff_eq]
  omega

/-- A rounded result is finite exactly below the pattern of ∞. -/
theorem fIsFinite_fRound (neg : Bool) (n d : Nat) : fIsFinite (fRound neg n d) = true ↔ roundMag n d < 2047 * 2 ^ 52 := by
  have h := roundMag_le n d
  have e : (fRound neg n d).toNat % 2 ^ 63 = roundMag n d := by
    rw [fRound_toNat]; cases neg <;> simp <;> omega
  simp only [fIsFinite, fExp, bne_iff_ne]
  omega

/-- The NaN that an operation delivers is a NaN, whatever its free bits are. -/
theorem fIsNaN_fNaN (op : FOp) (x y : F64) : fIsNaN (fNaN op x y) = true := by
  have key : ∀ b : F64, fExp (b ||| 0x7FF8000000000000#64) = 2047 ∧ fFrac (b ||| 0x7FF8000000000000#64) ≠ 0 := by
    intro b
    have he : (b ||| 0x7FF8000000000000#64).extractLsb' 52 11 = 2047#11 := by
      apply BitVec.eq_of_getLsbD_eq
      intro i hi
      interval_cases i <;> simp
    have hf : (b ||| 0x7FF8000000000000#64).getLsbD 51 = true := by simp
    generalize b ||| 0x7FF8000000000000#64 = z at he hf ⊢
    constructor
    · have := congrArg BitVec.toNat he
      simpa [fExp, BitVec.extractLsb'_toNat, Nat.shiftRight_eq_div_pow] using this
    · intro h0
      have : z.toNat.testBit 51 = true := hf
      rw [fFrac] at h0
      have h2 : (z.toNat % 2 ^ 52).testBit 51 = z.toNat.testBit 51 := by rw [Nat.testBit_mod_two_pow]; rfl
      rw [h0, this] at h2
      simp at h2
  obtain ⟨he, hf⟩ := key (Config.nanBits op x y)
  simp [fIsNaN, fNaN, he, hf]

/-- A free value kept in a range lies in it. -/
theorem fWithin_mem {lo hi inner : F64} (h : fLe lo inner = true ∧ fLt inner hi = true) (v : F64) :
    fLe lo (fWithin lo hi inner v) = true ∧ fLt (fWithin lo hi inner v) hi = true := by
  unfold fWithin
  split
  · rename_i hv; simpa using hv
  · exact h

/-- A value of the range is kept. -/
theorem fWithin_of_mem {lo hi v : F64} (h : fLe lo v = true ∧ fLt v hi = true) (inner : F64) :
    fWithin lo hi inner v = v := by
  simp [fWithin, h]

end Sys2Proof.Machine
end

