-- ==== Sys2Proof/Laws/Sets.lean ====
section
/-! SUPPORT. What the operations on held sets, note stacks and FM slots do: membership, lookup and canonical order. -/

namespace Sys2Proof.Machine

/-! ### Held sets and note stacks -/

@[simp] theorem mem_pitchInsert (p q : Pitch) (l : List Pitch) : q ∈ pitchInsert p l ↔ q = p ∨ q ∈ l := by
  induction l with
  | nil => simp [pitchInsert]
  | cons r l ih =>
    unfold pitchInsert
    split
    · simp
    · split
      · rename_i h; subst h; simp
      · simp only [List.mem_cons, ih]; tauto

@[simp] theorem mem_pitchErase (p q : Pitch) (l : List Pitch) : q ∈ pitchErase p l ↔ q ∈ l ∧ q ≠ p := by
  simp [pitchErase]

@[simp] theorem pitchInsert_ne_nil (p : Pitch) (l : List Pitch) : pitchInsert p l ≠ [] := by
  intro h
  have : p ∈ pitchInsert p l := (mem_pitchInsert p p l).mpr (Or.inl rfl)
  simp [h] at this

theorem pitchInsert_ascending (p : Pitch) {l : List Pitch} (h : l.Pairwise (· < ·)) :
    (pitchInsert p l).Pairwise (· < ·) := by
  induction l with
  | nil => simp [pitchInsert]
  | cons r l ih =>
    rw [List.pairwise_cons] at h
    unfold pitchInsert
    split
    · rename_i hlt
      refine List.pairwise_cons.mpr ⟨?_, List.pairwise_cons.mpr h⟩
      rintro q hq
      rcases List.mem_cons.mp hq with rfl | hq
      · exact hlt
      · exact lt_trans hlt (h.1 q hq)
    · split
      · exact List.pairwise_cons.mpr h
      · rename_i hlt hne
        refine List.pairwise_cons.mpr ⟨?_, ih h.2⟩
        intro q hq
        rcases (mem_pitchInsert p q l).mp hq with rfl | hq
        · exact lt_of_le_of_ne (not_lt.mp hlt) (Ne.symm hne)
        · exact h.1 q hq

theorem pitchErase_ascending (p : Pitch) {l : List Pitch} (h : l.Pairwise (· < ·)) :
    (pitchErase p l).Pairwise (· < ·) := h.filter _

theorem pitchErase_nodup (p : Pitch) {l : List Pitch} (h : l.Nodup) : (pitchErase p l).Nodup := h.filter _

theorem pitchErase_eq_nil {p : Pitch} {l : List Pitch} : pitchErase p l = [] ↔ ∀ q ∈ l, q = p := by
  simp [pitchErase]

/-! ### FM slots -/

theorem mem_keys_slotInsert (k m : Nat) (v : F64) (l : List (Nat × F64)) :
    m ∈ (slotInsert k v l).map Prod.fst ↔ m = k ∨ m ∈ l.map Prod.fst := by
  induction l with
  | nil => simp [slotInsert]
  | cons e l ih =>
    unfold slotInsert
    split
    · simp
    · split
      · rename_i h; subst h; simp
      · simp only [List.map_cons, List.mem_cons, ih]; tauto

theorem keys_slotInsert_ascending (k : Nat) (v : F64) {l : List (Nat × F64)}
    (h : (l.map Prod.fst).Pairwise (· < ·)) : ((slotInsert k v l).map Prod.fst).Pairwise (· < ·) := by
  induction l with
  | nil => simp [slotInsert]
  | cons e l ih =>
    rw [List.map_cons, List.pairwise_cons] at h
    unfold slotInsert
    split
    · rename_i hlt
      simp only [List.map_cons]
      refine List.pairwise_cons.mpr ⟨?_, List.pairwise_cons.mpr h⟩
      intro q hq
      rcases List.mem_cons.mp hq with rfl | hq
      · exact hlt
      · exact lt_trans hlt (h.1 q hq)
    · split
      · rename_i heq
        subst heq
        simpa using List.pairwise_cons.mpr h
      · rename_i hlt hne
        simp only [List.map_cons]
        refine List.pairwise_cons.mpr ⟨?_, ih h.2⟩
        intro q hq
        rcases (mem_keys_slotInsert k q v l).mp hq with rfl | hq
        · exact lt_of_le_of_ne (not_lt.mp hlt) (Ne.symm hne)
        · exact h.1 q hq

theorem lookup_slotInsert_self (k : Nat) (v : F64) (l : List (Nat × F64)) : (slotInsert k v l).lookup k = some v := by
  induction l with
  | nil => simp [slotInsert]
  | cons e l ih =>
    unfold slotInsert
    split
    · simp
    · split
      · simp
      · rename_i hne
        have : (k == e.1) = false := by simpa using hne
        simp [List.lookup, this, ih]

theorem lookup_slotInsert_ne {k m : Nat} (h : m ≠ k) (v : F64) (l : List (Nat × F64)) :
    (slotInsert k v l).lookup m = l.lookup m := by
  have hmk : (m == k) = false := by simpa using h
  induction l with
  | nil => simp [slotInsert, List.lookup, hmk]
  | cons e l ih =>
    unfold slotInsert
    split
    · simp [List.lookup, hmk]
    · split
      · rename_i heq
        have : (m == e.1) = false := by simpa [← heq] using h
        simp [List.lookup, hmk, this]
      · simp only [List.lookup, ih]

theorem mem_keys_slotErase (k m : Nat) (l : List (Nat × F64)) :
    m ∈ (slotErase k l).map Prod.fst ↔ m ∈ l.map Prod.fst ∧ m ≠ k := by
  simp only [slotErase, List.mem_map, List.mem_filter, bne_iff_ne]
  constructor
  · rintro ⟨e, ⟨he, hk⟩, rfl⟩; exact ⟨⟨e, he, rfl⟩, hk⟩
  · rintro ⟨⟨e, he, rfl⟩, hk⟩; exact ⟨e, ⟨he, hk⟩, rfl⟩

theorem keys_slotErase_ascending (k : Nat) {l : List (Nat × F64)} (h : (l.map Prod.fst).Pairwise (· < ·)) :
    ((slotErase k l).map Prod.fst).Pairwise (· < ·) :=
  h.sublist (List.filter_sublist.map _)

theorem lookup_slotErase_self (k : Nat) (l : List (Nat × F64)) : (slotErase k l).lookup k = none := by
  induction l with
  | nil => rfl
  | cons e l ih =>
    by_cases h : e.1 = k
    · simpa [slotErase, h] using ih
    · have hk : (k == e.1) = false := by simpa using fun hh : k = e.1 => h hh.symm
      have : slotErase k (e :: l) = e :: slotErase k l := by simp [slotErase, h]
      simp [this, List.lookup, hk, ih]

theorem lookup_slotErase_ne {k m : Nat} (h : m ≠ k) (l : List (Nat × F64)) :
    (slotErase k l).lookup m = l.lookup m := by
  induction l with
  | nil => rfl
  | cons e l ih =>
    by_cases he : e.1 = k
    · have hm : (m == e.1) = false := by simpa [he] using h
      have : slotErase k (e :: l) = slotErase k l := by simp [slotErase, he]
      simp [this, List.lookup, hm, ih]
    · have : slotErase k (e :: l) = e :: slotErase k l := by simp [slotErase, he]
      simp only [this, List.lookup, ih]

/-- Writing a slot changes no key: FMIN stays. -/
@[simp] theorem keys_slotWrite (k : Nat) (v : F64) (l : List (Nat × F64)) :
    (slotWrite k v l).map Prod.fst = l.map Prod.fst := by
  simp only [slotWrite, List.map_map]
  refine List.map_congr_left fun e _ => ?_
  by_cases h : e.1 = k <;> simp [h]

theorem lookup_slotWrite_self {k : Nat} (v : F64) {l : List (Nat × F64)} (h : k ∈ l.map Prod.fst) :
    (slotWrite k v l).lookup k = some v := by
  induction l with
  | nil => simp at h
  | cons e l ih =>
    by_cases he : e.1 = k
    · simp [slotWrite, he]
    · have hk : (k == e.1) = false := by simpa using fun hh : k = e.1 => he hh.symm
      have hl : k ∈ l.map Prod.fst := by
        rcases List.mem_cons.mp h with hh | hh
        · exact absurd hh.symm he
        · exact hh
      have : slotWrite k v (e :: l) = e :: slotWrite k v l := by simp [slotWrite, he]
      simp [this, List.lookup, hk, ih hl]

theorem lookup_slotWrite_ne {k m : Nat} (h : m ≠ k) (v : F64) (l : List (Nat × F64)) :
    (slotWrite k v l).lookup m = l.lookup m := by
  induction l with
  | nil => rfl
  | cons e l ih =>
    have hmk : (m == k) = false := by simpa using h
    by_cases he : e.1 = k
    · have hme : (m == e.1) = false := by simpa [he] using h
      have : slotWrite k v (e :: l) = (k, v) :: slotWrite k v l := by simp [slotWrite, he]
      simp [this, List.lookup, hmk, hme, ih]
    · have : slotWrite k v (e :: l) = e :: slotWrite k v l := by simp [slotWrite, he]
      simp only [this, List.lookup, ih]

end Sys2Proof.Machine
end

