-- ==== Sys2Proof/Laws/State.lean ====
section
/-! SUPPORT. The small lemmas of State's updates: one per field per update, true by rfl, so that no later proof unfolds
a record update; and the sequencing of results. -/

namespace Sys2Proof.Machine

section
variable (s : State)

@[simp] theorem State.setStatus_params (bits : BitVec 8) : (s.setStatus bits).params = s.params := rfl
@[simp] theorem State.setStatus_sr (bits : BitVec 8) : (s.setStatus bits).sr = s.sr := rfl
@[simp] theorem State.setStatus_tick (bits : BitVec 8) : (s.setStatus bits).tick = s.tick := rfl
@[simp] theorem State.setStatus_pb (bits : BitVec 8) : (s.setStatus bits).pb = s.pb := rfl
@[simp] theorem State.setStatus_bend (bits : BitVec 8) : (s.setStatus bits).bend = s.bend := rfl
@[simp] theorem State.setStatus_outSample (bits : BitVec 8) : (s.setStatus bits).outSample = s.outSample := rfl
@[simp] theorem State.setStatus_status (bits : BitVec 8) : (s.setStatus bits).status = s.status ||| bits := rfl
@[simp] theorem State.setStatus_fifo (bits : BitVec 8) : (s.setStatus bits).fifo = s.fifo := rfl
@[simp] theorem State.setStatus_mmode (bits : BitVec 8) : (s.setStatus bits).mmode = s.mmode := rfl
@[simp] theorem State.setStatus_osc (bits : BitVec 8) : (s.setStatus bits).osc = s.osc := rfl
@[simp] theorem State.setStatus_master (bits : BitVec 8) : (s.setStatus bits).master = s.master := rfl
@[simp] theorem State.setStatus_inbox (bits : BitVec 8) : (s.setStatus bits).inbox = s.inbox := rfl
@[simp] theorem State.setStatus_reply (bits : BitVec 8) : (s.setStatus bits).reply = s.reply := rfl
@[simp] theorem State.setStatus_noiseIn (bits : BitVec 8) : (s.setStatus bits).noiseIn = s.noiseIn := rfl
@[simp] theorem State.setStatus_noiseCount (bits : BitVec 8) : (s.setStatus bits).noiseCount = s.noiseCount := rfl

@[simp] theorem State.setStatusIf_params (c : Bool) (bits : BitVec 8) : (s.setStatusIf c bits).params = s.params := rfl
@[simp] theorem State.setStatusIf_sr (c : Bool) (bits : BitVec 8) : (s.setStatusIf c bits).sr = s.sr := rfl
@[simp] theorem State.setStatusIf_tick (c : Bool) (bits : BitVec 8) : (s.setStatusIf c bits).tick = s.tick := rfl
@[simp] theorem State.setStatusIf_pb (c : Bool) (bits : BitVec 8) : (s.setStatusIf c bits).pb = s.pb := rfl
@[simp] theorem State.setStatusIf_bend (c : Bool) (bits : BitVec 8) : (s.setStatusIf c bits).bend = s.bend := rfl
@[simp] theorem State.setStatusIf_outSample (c : Bool) (bits : BitVec 8) : (s.setStatusIf c bits).outSample = s.outSample := rfl
@[simp] theorem State.setStatusIf_status (c : Bool) (bits : BitVec 8) : (s.setStatusIf c bits).status = s.status ||| (if c then bits else 0) := rfl
@[simp] theorem State.setStatusIf_fifo (c : Bool) (bits : BitVec 8) : (s.setStatusIf c bits).fifo = s.fifo := rfl
@[simp] theorem State.setStatusIf_mmode (c : Bool) (bits : BitVec 8) : (s.setStatusIf c bits).mmode = s.mmode := rfl
@[simp] theorem State.setStatusIf_osc (c : Bool) (bits : BitVec 8) : (s.setStatusIf c bits).osc = s.osc := rfl
@[simp] theorem State.setStatusIf_master (c : Bool) (bits : BitVec 8) : (s.setStatusIf c bits).master = s.master := rfl
@[simp] theorem State.setStatusIf_inbox (c : Bool) (bits : BitVec 8) : (s.setStatusIf c bits).inbox = s.inbox := rfl
@[simp] theorem State.setStatusIf_reply (c : Bool) (bits : BitVec 8) : (s.setStatusIf c bits).reply = s.reply := rfl
@[simp] theorem State.setStatusIf_noiseIn (c : Bool) (bits : BitVec 8) : (s.setStatusIf c bits).noiseIn = s.noiseIn := rfl
@[simp] theorem State.setStatusIf_noiseCount (c : Bool) (bits : BitVec 8) : (s.setStatusIf c bits).noiseCount = s.noiseCount := rfl

@[simp] theorem State.setOsc_params (i : Nat) (o : Oscillator) : (s.setOsc i o).params = s.params := rfl
@[simp] theorem State.setOsc_sr (i : Nat) (o : Oscillator) : (s.setOsc i o).sr = s.sr := rfl
@[simp] theorem State.setOsc_tick (i : Nat) (o : Oscillator) : (s.setOsc i o).tick = s.tick := rfl
@[simp] theorem State.setOsc_pb (i : Nat) (o : Oscillator) : (s.setOsc i o).pb = s.pb := rfl
@[simp] theorem State.setOsc_bend (i : Nat) (o : Oscillator) : (s.setOsc i o).bend = s.bend := rfl
@[simp] theorem State.setOsc_outSample (i : Nat) (o : Oscillator) : (s.setOsc i o).outSample = s.outSample := rfl
@[simp] theorem State.setOsc_status (i : Nat) (o : Oscillator) : (s.setOsc i o).status = s.status := rfl
@[simp] theorem State.setOsc_fifo (i : Nat) (o : Oscillator) : (s.setOsc i o).fifo = s.fifo := rfl
@[simp] theorem State.setOsc_mmode (i : Nat) (o : Oscillator) : (s.setOsc i o).mmode = s.mmode := rfl
@[simp] theorem State.setOsc_osc (i : Nat) (o : Oscillator) : (s.setOsc i o).osc = s.osc.set i o := rfl
@[simp] theorem State.setOsc_master (i : Nat) (o : Oscillator) : (s.setOsc i o).master = s.master := rfl
@[simp] theorem State.setOsc_inbox (i : Nat) (o : Oscillator) : (s.setOsc i o).inbox = s.inbox := rfl
@[simp] theorem State.setOsc_reply (i : Nat) (o : Oscillator) : (s.setOsc i o).reply = s.reply := rfl
@[simp] theorem State.setOsc_noiseIn (i : Nat) (o : Oscillator) : (s.setOsc i o).noiseIn = s.noiseIn := rfl
@[simp] theorem State.setOsc_noiseCount (i : Nat) (o : Oscillator) : (s.setOsc i o).noiseCount = s.noiseCount := rfl

@[simp] theorem State.mapOsc_params (f : Oscillator → Oscillator) : (s.mapOsc f).params = s.params := rfl
@[simp] theorem State.mapOsc_sr (f : Oscillator → Oscillator) : (s.mapOsc f).sr = s.sr := rfl
@[simp] theorem State.mapOsc_tick (f : Oscillator → Oscillator) : (s.mapOsc f).tick = s.tick := rfl
@[simp] theorem State.mapOsc_pb (f : Oscillator → Oscillator) : (s.mapOsc f).pb = s.pb := rfl
@[simp] theorem State.mapOsc_bend (f : Oscillator → Oscillator) : (s.mapOsc f).bend = s.bend := rfl
@[simp] theorem State.mapOsc_outSample (f : Oscillator → Oscillator) : (s.mapOsc f).outSample = s.outSample := rfl
@[simp] theorem State.mapOsc_status (f : Oscillator → Oscillator) : (s.mapOsc f).status = s.status := rfl
@[simp] theorem State.mapOsc_fifo (f : Oscillator → Oscillator) : (s.mapOsc f).fifo = s.fifo := rfl
@[simp] theorem State.mapOsc_mmode (f : Oscillator → Oscillator) : (s.mapOsc f).mmode = s.mmode := rfl
@[simp] theorem State.mapOsc_osc (f : Oscillator → Oscillator) : (s.mapOsc f).osc = s.osc.map f := rfl
@[simp] theorem State.mapOsc_master (f : Oscillator → Oscillator) : (s.mapOsc f).master = s.master := rfl
@[simp] theorem State.mapOsc_inbox (f : Oscillator → Oscillator) : (s.mapOsc f).inbox = s.inbox := rfl
@[simp] theorem State.mapOsc_reply (f : Oscillator → Oscillator) : (s.mapOsc f).reply = s.reply := rfl
@[simp] theorem State.mapOsc_noiseIn (f : Oscillator → Oscillator) : (s.mapOsc f).noiseIn = s.noiseIn := rfl
@[simp] theorem State.mapOsc_noiseCount (f : Oscillator → Oscillator) : (s.mapOsc f).noiseCount = s.noiseCount := rfl

@[simp] theorem State.setMaster_params (a : Amplifier) : (s.setMaster a).params = s.params := rfl
@[simp] theorem State.setMaster_sr (a : Amplifier) : (s.setMaster a).sr = s.sr := rfl
@[simp] theorem State.setMaster_tick (a : Amplifier) : (s.setMaster a).tick = s.tick := rfl
@[simp] theorem State.setMaster_pb (a : Amplifier) : (s.setMaster a).pb = s.pb := rfl
@[simp] theorem State.setMaster_bend (a : Amplifier) : (s.setMaster a).bend = s.bend := rfl
@[simp] theorem State.setMaster_outSample (a : Amplifier) : (s.setMaster a).outSample = s.outSample := rfl
@[simp] theorem State.setMaster_status (a : Amplifier) : (s.setMaster a).status = s.status := rfl
@[simp] theorem State.setMaster_fifo (a : Amplifier) : (s.setMaster a).fifo = s.fifo := rfl
@[simp] theorem State.setMaster_mmode (a : Amplifier) : (s.setMaster a).mmode = s.mmode := rfl
@[simp] theorem State.setMaster_osc (a : Amplifier) : (s.setMaster a).osc = s.osc := rfl
@[simp] theorem State.setMaster_master (a : Amplifier) : (s.setMaster a).master = a := rfl
@[simp] theorem State.setMaster_inbox (a : Amplifier) : (s.setMaster a).inbox = s.inbox := rfl
@[simp] theorem State.setMaster_reply (a : Amplifier) : (s.setMaster a).reply = s.reply := rfl
@[simp] theorem State.setMaster_noiseIn (a : Amplifier) : (s.setMaster a).noiseIn = s.noiseIn := rfl
@[simp] theorem State.setMaster_noiseCount (a : Amplifier) : (s.setMaster a).noiseCount = s.noiseCount := rfl

@[simp] theorem State.withReply_params (r : Reply) : (s.withReply r).params = s.params := rfl
@[simp] theorem State.withReply_sr (r : Reply) : (s.withReply r).sr = s.sr := rfl
@[simp] theorem State.withReply_tick (r : Reply) : (s.withReply r).tick = s.tick := rfl
@[simp] theorem State.withReply_pb (r : Reply) : (s.withReply r).pb = s.pb := rfl
@[simp] theorem State.withReply_bend (r : Reply) : (s.withReply r).bend = s.bend := rfl
@[simp] theorem State.withReply_outSample (r : Reply) : (s.withReply r).outSample = s.outSample := rfl
@[simp] theorem State.withReply_status (r : Reply) : (s.withReply r).status = s.status := rfl
@[simp] theorem State.withReply_fifo (r : Reply) : (s.withReply r).fifo = s.fifo := rfl
@[simp] theorem State.withReply_mmode (r : Reply) : (s.withReply r).mmode = s.mmode := rfl
@[simp] theorem State.withReply_osc (r : Reply) : (s.withReply r).osc = s.osc := rfl
@[simp] theorem State.withReply_master (r : Reply) : (s.withReply r).master = s.master := rfl
@[simp] theorem State.withReply_inbox (r : Reply) : (s.withReply r).inbox = s.inbox := rfl
@[simp] theorem State.withReply_reply (r : Reply) : (s.withReply r).reply = r := rfl
@[simp] theorem State.withReply_noiseIn (r : Reply) : (s.withReply r).noiseIn = s.noiseIn := rfl
@[simp] theorem State.withReply_noiseCount (r : Reply) : (s.withReply r).noiseCount = s.noiseCount := rfl

end

@[simp] theorem State.setOsc_nOsc (s : State) (i : Nat) (o : Oscillator) : (s.setOsc i o).nOsc = s.nOsc := by
  simp [State.nOsc]

@[simp] theorem State.mapOsc_nOsc (s : State) (f : Oscillator → Oscillator) : (s.mapOsc f).nOsc = s.nOsc := by
  simp [State.nOsc]

@[simp] theorem State.setStatus_nOsc (s : State) (bits : BitVec 8) : (s.setStatus bits).nOsc = s.nOsc := rfl
@[simp] theorem State.setStatusIf_nOsc (s : State) (c : Bool) (bits : BitVec 8) :
    (s.setStatusIf c bits).nOsc = s.nOsc := rfl
@[simp] theorem State.setMaster_nOsc (s : State) (a : Amplifier) : (s.setMaster a).nOsc = s.nOsc := rfl
@[simp] theorem State.withReply_nOsc (s : State) (r : Reply) : (s.withReply r).nOsc = s.nOsc := rfl

@[simp] theorem State.setStatusIf_true (s : State) (bits : BitVec 8) : s.setStatusIf true bits = s.setStatus bits := rfl

@[simp] theorem State.setStatusIf_false (s : State) (bits : BitVec 8) : s.setStatusIf false bits = s := by
  simp [State.setStatusIf, State.setStatus]

/-- Reading oscillator k after writing oscillator i. -/
theorem State.setOsc_get (s : State) (i k : Nat) (o : Oscillator) :
    (s.setOsc i o).osc[k]? = if i = k then (if k < s.nOsc then some o else none) else s.osc[k]? := by
  by_cases h : i = k
  · subst h
    by_cases hi : i < s.osc.length <;> simp [State.nOsc, hi]
  · simp [h]

/-- Writing oscillator i leaves every other one. -/
theorem State.setOsc_get_ne (s : State) {i k : Nat} (h : i ≠ k) (o : Oscillator) :
    (s.setOsc i o).osc[k]? = s.osc[k]? := by
  rw [State.setOsc_get, if_neg h]

/-- Writing an oscillator of the bank and reading it back. -/
theorem State.setOsc_get_self (s : State) {i : Nat} {o : Oscillator} (h : s.osc[i]? = some o) (o' : Oscillator) :
    (s.setOsc i o').osc[i]? = some o' := by
  have hi : i < s.nOsc := (List.getElem?_eq_some_iff.mp h).1
  rw [State.setOsc_get, if_pos rfl, if_pos hi]

/-- An index of the bank names an oscillator. -/
theorem State.get_of_lt (s : State) {i : Nat} (h : i < s.nOsc) : ∃ o, s.osc[i]? = some o :=
  ⟨s.osc[i], List.getElem?_eq_getElem h⟩

/-- An oscillator that is read lies in the bank. -/
theorem State.lt_of_get (s : State) {i : Nat} {o : Oscillator} (h : s.osc[i]? = some o) : i < s.nOsc :=
  (List.getElem?_eq_some_iff.mp h).1

@[simp] theorem andThen_next (s : State) (k : State → Result) : andThen (.next s) k = k s := rfl
@[simp] theorem andThen_fault (e : Fault) (k : State → Result) : andThen (.fault e) k = .fault e := rfl
@[simp] theorem andThen_refused (e : Refusal) (k : State → Result) : andThen (.refused e) k = .refused e := rfl

/-- A sequence answers a next state exactly where both of its parts do. -/
theorem andThen_eq_next {r : Result} {k : State → Result} {t : State} :
    andThen r k = .next t ↔ ∃ u, r = .next u ∧ k u = .next t := by
  cases r <;> simp [andThen]

/-- HALTED is bit 3 of what was set. -/
theorem State.halted_setStatus (s : State) (bits : BitVec 8) :
    (s.setStatus bits).halted = (s.halted || bits.getLsbD 3) := by
  simp [State.halted]

/-- INVALID does not halt. -/
@[simp] theorem State.halted_setInvalid (s : State) (c : Bool) : (s.setStatusIf c statusINVALID).halted = s.halted := by
  cases c <;> simp [State.halted_setStatus, statusINVALID]

/-- NONFINITE does not halt. -/
@[simp] theorem State.halted_setNonfinite (s : State) (c : Bool) :
    (s.setStatusIf c statusNONFINITE).halted = s.halted := by
  cases c <;> simp [State.halted_setStatus, statusNONFINITE]

end Sys2Proof.Machine
end

