-- ==== Sys2Proof/Laws/Commands.lean ====
section
/-! SUPPORT. What a command can do, said once: the inversion of `exec` into the few shapes of effect the command files
give, which every proof about all commands cites instead of unfolding the meanings. -/

namespace Sys2Proof.Machine

/-- A time of the envelope, or a frequency, as a command writes it: finite, and not below zero. -/
def TimeLegal (v : F64) : Prop := fIsFinite v = true ∧ fLe fpZero v = true

/-- A write of one parameter register of an oscillator. -/
inductive ParamWrite (o : Oscillator) : Oscillator → Prop
  | bypass (b : Bool) : ParamWrite o { o with bypass := b }
  | coarse (v : F64) (h : fIsFinite v = true) : ParamWrite o { o with coarse := v, detune := detuneOf v o.fine }
  | fine (v : F64) (h : fIsFinite v = true) : ParamWrite o { o with fine := v, detune := detuneOf o.coarse v }
  | fmrange (v : F64) (h : fIsFinite v = true) : ParamWrite o { o with fmrange := v }
  | freq (v : F64) (h : TimeLegal v) : ParamWrite o { o with freq := v }
  | gain (v : F64) (h : fIsFinite v = true) : ParamWrite o { o with amp := o.amp.setGain v }
  | pmode (m : Mode) : ParamWrite o { o with pmode := m }
  | wave (w : Waveform) : ParamWrite o { o with wave := w }

/-- A write of the master amplifier's parameters. -/
inductive MasterWrite (a : Amplifier) : Amplifier → Prop
  | attack (v : F64) (h : TimeLegal v) : MasterWrite a { a with envA := v }
  | decay (v : F64) (h : TimeLegal v) : MasterWrite a { a with envD := v }
  | sustain (v : F64) (h : TimeLegal v) (h1 : fLe v fpOne = true) : MasterWrite a { a with envS := v }
  | release (v : F64) (h : TimeLegal v) : MasterWrite a { a with envR := v }
  | gain (v : F64) (h : fIsFinite v = true) : MasterWrite a (a.setGain v)

/-- What a command leaves of a state. -/
inductive CommandEffect (s : State) : State → Prop
  /-- dropped, or a command with no register to change -/
  | statusOnly (c : Bool) : CommandEffect s (s.setStatusIf c statusINVALID)
  | param (i : Nat) (o o' : Oscillator) (c : Bool) (h : s.osc[i]? = some o) (hw : ParamWrite o o') :
      CommandEffect s ((s.setOsc i o').setStatusIf c statusINVALID)
  | route (i : Nat) (o : Oscillator) (new : Target) (c : Bool) (h : s.osc[i]? = some o)
      (ha : routeRejected s i o new = false) (hn : new ≠ o.out) :
      CommandEffect s ((reroute s i o.out new).setStatusIf c statusINVALID)
  | master (a : Amplifier) (c : Bool) (hw : MasterWrite s.master a) :
      CommandEffect s ((s.setMaster a).setStatusIf c statusINVALID)
  | mixerMode (m : Mode) (c : Bool) : CommandEffect s (State.setStatusIf { s with mmode := m } c statusINVALID)
  | noteOn (p : Pitch) (c : Bool) :
      CommandEffect s (((s.mapOsc (Oscillator.noteOn s.tick p)).setMaster (ampNoteOn s.tick p s.master)).setStatusIf
        c statusINVALID)
  | noteOff (p : Pitch) (c : Bool) :
      CommandEffect s (((s.mapOsc (Oscillator.noteOff s.tick p)).setMaster (ampNoteOff s.tick p s.master)).setStatusIf
        c statusINVALID)
  | bend (pb : BitVec 14) (c : Bool) :
      CommandEffect s (State.setStatusIf { s with pb := pb, bend := bendOf s.params.pbRange pb } c statusINVALID)
  | quit : CommandEffect s { s.setStatus statusHALTED with fifo := [] }

/-! ### The shared checks -/

/-- What a command on oscillator i answers: it runs on the oscillator, or the index is outside the bank. -/
theorem withOsc_cases {s t : State} {i : BitVec 8} {k : Oscillator → Result} (h : withOsc s i k = .next t) :
    (∃ o, s.osc[i.toNat]? = some o ∧ k o = .next t) ∨ (s.osc[i.toNat]? = none ∧ t = s.setStatus statusINVALID) := by
  unfold withOsc at h
  split at h
  · rename_i o ho; exact .inl ⟨o, ho, h⟩
  · rename_i ho; exact .inr ⟨ho, by simpa [dropInvalid] using h.symm⟩

/-- What a value command answers: it runs on the finite value, or the value is not finite. -/
theorem withFinite_cases {s t : State} {v : F64} {k : Result} (h : withFinite s v k = .next t) :
    (fIsFinite v = true ∧ k = .next t) ∨ (fIsFinite v = false ∧ t = s.setStatus statusINVALID) := by
  unfold withFinite at h
  split at h
  · rename_i hv; exact .inl ⟨hv, h⟩
  · rename_i hv; exact .inr ⟨by simpa using hv, by simpa [dropInvalid] using h.symm⟩

/-- A dropped command is an effect on STATUS alone. -/
theorem CommandEffect.dropped (s : State) : CommandEffect s (s.setStatus statusINVALID) := .statusOnly true

theorem dropInvalid_effect {s t : State} (h : dropInvalid s = .next t) : CommandEffect s t := by
  have : t = s.setStatus statusINVALID := by simpa [dropInvalid] using h.symm
  exact this ▸ .dropped s

/-- An effect on an oscillator's parameter, with a flag for INVALID. -/
theorem CommandEffect.ofParam {s t : State} {i : BitVec 8} {k : Oscillator → Result} (h : withOsc s i k = .next t)
    (hk : ∀ o, s.osc[i.toNat]? = some o → k o = .next t → CommandEffect s t) : CommandEffect s t := by
  rcases withOsc_cases h with ⟨o, ho, h⟩ | ⟨-, rfl⟩
  · exact hk o ho h
  · exact .dropped s

/-- An effect of a value command. -/
theorem CommandEffect.ofValue {s t : State} {v : F64} {k : Result} (h : withFinite s v k = .next t)
    (hk : fIsFinite v = true → k = .next t → CommandEffect s t) : CommandEffect s t := by
  rcases withFinite_cases h with ⟨hv, h⟩ | ⟨-, rfl⟩
  · exact hk hv h
  · exact .dropped s

/-! ### The clamps -/

theorem timeLegal_zero : TimeLegal fpZero := by constructor <;> decide

/-- A finite value clamped from below is a legal time. -/
theorem nonNegativeOperand_legal {v : F64} (h : fIsFinite v = true) : TimeLegal (nonNegativeOperand v).value := by
  unfold nonNegativeOperand
  split
  · exact timeLegal_zero
  · rename_i hlt
    exact ⟨h, fLe_of_not_fLt (fIsNaN_of_finite h) (by decide) (by simpa using hlt)⟩

/-- A finite value clamped into [0, 1] is a legal level. -/
theorem levelOperand_legal {v : F64} (h : fIsFinite v = true) :
    TimeLegal (levelOperand v).value ∧ fLe (levelOperand v).value fpOne = true := by
  unfold levelOperand
  split
  · exact ⟨timeLegal_zero, by decide⟩
  · rename_i h0
    split
    · exact ⟨by constructor <;> decide, by decide⟩
    · rename_i h1
      exact ⟨⟨h, fLe_of_not_fLt (fIsNaN_of_finite h) (by decide) (by simpa using h0)⟩,
        fLe_of_not_fLt (by decide) (fIsNaN_of_finite h) (by simpa using h1)⟩

/-! ### The inversion of `exec` -/

/-- What a command that answers a next state has done. -/
theorem exec_effect {i : Instr} {s t : State} (h : exec i s = .next t) : CommandEffect s t := by
  cases i with
  | bypass osc flag => exact .ofParam h fun o ho h => by cases h; exact .param _ o _ _ ho (.bypass _)
  | coarse osc v =>
    exact .ofParam h fun o ho h => .ofValue h fun hv h => by
      cases h; simpa using CommandEffect.param _ o _ false ho (.coarse v hv)
  | fine osc v =>
    exact .ofParam h fun o ho h => .ofValue h fun hv h => by
      cases h; simpa using CommandEffect.param _ o _ false ho (.fine v hv)
  | fmrange osc v =>
    exact .ofParam h fun o ho h => .ofValue h fun hv h => by
      cases h; simpa using CommandEffect.param _ o _ false ho (.fmrange v hv)
  | freq osc v =>
    exact .ofParam h fun o ho h => .ofValue h fun hv h => by
      cases h; exact .param _ o _ _ ho (.freq _ (nonNegativeOperand_legal hv))
  | gain osc v =>
    exact .ofParam h fun o ho h => .ofValue h fun hv h => by
      cases h; simpa using CommandEffect.param _ o _ false ho (.gain v hv)
  | pitchmode osc mode => exact .ofParam h fun o ho h => by cases h; exact .param _ o _ _ ho (.pmode _)
  | output osc kind target =>
    exact .ofParam h fun o ho h => by
      split at h
      · exact dropInvalid_effect h
      · rename_i ha
        split at h
        · cases h; exact .statusOnly _
        · rename_i hn; cases h; exact .route _ o _ _ ho (by simpa using ha) hn
  | waveform osc wave => exact .ofParam h fun o ho h => by cases h; exact .param _ o _ _ ho (.wave _)
  | attack v =>
    exact .ofValue h fun hv h => by
      cases h; exact .master _ _ (.attack _ (nonNegativeOperand_legal hv))
  | decay v =>
    exact .ofValue h fun hv h => by
      cases h; exact .master _ _ (.decay _ (nonNegativeOperand_legal hv))
  | sustain v =>
    exact .ofValue h fun hv h => by
      cases h; exact .master _ _ (.sustain _ (levelOperand_legal hv).1 (levelOperand_legal hv).2)
  | release v =>
    exact .ofValue h fun hv h => by
      cases h; exact .master _ _ (.release _ (nonNegativeOperand_legal hv))
  | master v =>
    exact .ofValue h fun hv h => by
      cases h; simpa using CommandEffect.master _ false (.gain v hv)
  | mixermode mode => cases h; exact .mixerMode _ _
  | noteon pitch velocity => cases h; exact .noteOn _ _
  | noteoff pitch => cases h; exact .noteOff _ _
  | pitchbend lsb msb => cases h; exact .bend _ _
  | resetmidi => cases h; simpa using CommandEffect.statusOnly (s := s) false
  | quit => cases h; exact .quit

end Sys2Proof.Machine
end

