-- ==== Sys2Proof/Laws/Decode.lean ====
section
/-! SUPPORT. The fields of a packed word, and the word of its bytes. -/

namespace Sys2Proof

theorem zeroRSV_toNat : (0 : BitVec 32).toNat = 0 := rfl

section
variable (opc osc a b : BitVec 8) (val : F64)

theorem packWord_toNat : (packWord opc osc a b val).toNat =
    opc.toNat + 2 ^ 8 * osc.toNat + 2 ^ 16 * a.toNat + 2 ^ 24 * b.toNat + 2 ^ 64 * val.toNat := by
  have h1 := opc.isLt; have h2 := osc.isLt; have h3 := a.isLt; have h4 := b.isLt
  unfold packWord
  simp only [BitVec.toNat_append]
  rw [← Nat.shiftLeft_add_eq_or_of_lt (by simpa using h1), ← Nat.shiftLeft_add_eq_or_of_lt (by simpa using h2),
    ← Nat.shiftLeft_add_eq_or_of_lt (by simpa using h3), ← Nat.shiftLeft_add_eq_or_of_lt (by simpa using h4),
    ← Nat.shiftLeft_add_eq_or_of_lt (by decide)]
  simp only [Nat.shiftLeft_eq, zeroRSV_toNat]
  omega

@[simp] theorem fieldOPC_packWord : fieldOPC (packWord opc osc a b val) = opc := by
  apply BitVec.eq_of_toNat_eq
  have h1 := opc.isLt
  simp only [fieldOPC, BitVec.extractLsb'_toNat, packWord_toNat, Nat.shiftRight_eq_div_pow]
  omega

@[simp] theorem fieldOSC_packWord : fieldOSC (packWord opc osc a b val) = osc := by
  apply BitVec.eq_of_toNat_eq
  have h1 := opc.isLt; have h2 := osc.isLt
  simp only [fieldOSC, BitVec.extractLsb'_toNat, packWord_toNat, Nat.shiftRight_eq_div_pow]
  omega

@[simp] theorem fieldA_packWord : fieldA (packWord opc osc a b val) = a := by
  apply BitVec.eq_of_toNat_eq
  have h1 := opc.isLt; have h2 := osc.isLt; have h3 := a.isLt
  simp only [fieldA, BitVec.extractLsb'_toNat, packWord_toNat, Nat.shiftRight_eq_div_pow]
  omega

@[simp] theorem fieldB_packWord : fieldB (packWord opc osc a b val) = b := by
  apply BitVec.eq_of_toNat_eq
  have h1 := opc.isLt; have h2 := osc.isLt; have h3 := a.isLt; have h4 := b.isLt
  simp only [fieldB, BitVec.extractLsb'_toNat, packWord_toNat, Nat.shiftRight_eq_div_pow]
  omega

@[simp] theorem fieldRSV_packWord : fieldRSV (packWord opc osc a b val) = 0 := by
  apply BitVec.eq_of_toNat_eq
  have h1 := opc.isLt; have h2 := osc.isLt; have h3 := a.isLt; have h4 := b.isLt
  simp only [fieldRSV, BitVec.extractLsb'_toNat, packWord_toNat, Nat.shiftRight_eq_div_pow, zeroRSV_toNat]
  omega

@[simp] theorem fieldVAL_packWord : fieldVAL (packWord opc osc a b val) = val := by
  apply BitVec.eq_of_toNat_eq
  have h1 := opc.isLt; have h2 := osc.isLt; have h3 := a.isLt; have h4 := b.isLt; have h5 := val.isLt
  simp only [fieldVAL, BitVec.extractLsb'_toNat, packWord_toNat, Nat.shiftRight_eq_div_pow]
  omega

end

/-- A word is packed from its fields, where RSV is zero. -/
theorem packWord_fields {w : CmdWord} (h : fieldRSV w = 0) :
    packWord (fieldOPC w) (fieldOSC w) (fieldA w) (fieldB w) (fieldVAL w) = w := by
  apply BitVec.eq_of_toNat_eq
  have hw := w.isLt
  have hr := congrArg BitVec.toNat h
  simp only [fieldRSV, fieldOPC, fieldOSC, fieldA, fieldB, fieldVAL, BitVec.extractLsb'_toNat, packWord_toNat,
    Nat.shiftRight_eq_div_pow, zeroRSV_toNat] at hr ⊢
  omega

/-- A word is its fields. -/
theorem word_ext {v w : CmdWord} (h1 : fieldOPC v = fieldOPC w) (h2 : fieldOSC v = fieldOSC w) (h3 : fieldA v = fieldA w)
    (h4 : fieldB v = fieldB w) (h5 : fieldRSV v = fieldRSV w) (h6 : fieldVAL v = fieldVAL w) : v = w := by
  apply BitVec.eq_of_toNat_eq
  have hv := v.isLt; have hw := w.isLt
  have e1 := congrArg BitVec.toNat h1; have e2 := congrArg BitVec.toNat h2; have e3 := congrArg BitVec.toNat h3
  have e4 := congrArg BitVec.toNat h4; have e5 := congrArg BitVec.toNat h5; have e6 := congrArg BitVec.toNat h6
  simp only [fieldRSV, fieldOPC, fieldOSC, fieldA, fieldB, fieldVAL, BitVec.extractLsb'_toNat,
    Nat.shiftRight_eq_div_pow] at e1 e2 e3 e4 e5 e6
  omega

@[simp] theorem and_ones8 (x : BitVec 8) : x &&& 255#8 = x := BitVec.and_allOnes
@[simp] theorem and_ones32 (x : BitVec 32) : x &&& 4294967295#32 = x := BitVec.and_allOnes
@[simp] theorem and_ones64 (x : BitVec 64) : x &&& 18446744073709551615#64 = x := BitVec.and_allOnes

section
variable (v w : CmdWord)

@[simp] theorem fieldOPC_and : fieldOPC (v &&& w) = fieldOPC v &&& fieldOPC w := BitVec.extractLsb'_and
@[simp] theorem fieldOPC_or : fieldOPC (v ||| w) = fieldOPC v ||| fieldOPC w := BitVec.extractLsb'_or
@[simp] theorem fieldOSC_and : fieldOSC (v &&& w) = fieldOSC v &&& fieldOSC w := BitVec.extractLsb'_and
@[simp] theorem fieldOSC_or : fieldOSC (v ||| w) = fieldOSC v ||| fieldOSC w := BitVec.extractLsb'_or
@[simp] theorem fieldA_and : fieldA (v &&& w) = fieldA v &&& fieldA w := BitVec.extractLsb'_and
@[simp] theorem fieldA_or : fieldA (v ||| w) = fieldA v ||| fieldA w := BitVec.extractLsb'_or
@[simp] theorem fieldB_and : fieldB (v &&& w) = fieldB v &&& fieldB w := BitVec.extractLsb'_and
@[simp] theorem fieldB_or : fieldB (v ||| w) = fieldB v ||| fieldB w := BitVec.extractLsb'_or
@[simp] theorem fieldRSV_and : fieldRSV (v &&& w) = fieldRSV v &&& fieldRSV w := BitVec.extractLsb'_and
@[simp] theorem fieldRSV_or : fieldRSV (v ||| w) = fieldRSV v ||| fieldRSV w := BitVec.extractLsb'_or
@[simp] theorem fieldVAL_and : fieldVAL (v &&& w) = fieldVAL v &&& fieldVAL w := BitVec.extractLsb'_and
@[simp] theorem fieldVAL_or : fieldVAL (v ||| w) = fieldVAL v ||| fieldVAL w := BitVec.extractLsb'_or

end

@[simp] theorem fieldOPC_rowMask : fieldOPC rowMask = BitVec.allOnes 8 := by decide
@[simp] theorem fieldOSC_rowMask : fieldOSC rowMask = 0#8 := by decide
@[simp] theorem fieldA_rowMask : fieldA rowMask = 0#8 := by decide
@[simp] theorem fieldB_rowMask : fieldB rowMask = 0#8 := by decide
@[simp] theorem fieldRSV_rowMask : fieldRSV rowMask = BitVec.allOnes 32 := by decide
@[simp] theorem fieldVAL_rowMask : fieldVAL rowMask = 0#64 := by decide
@[simp] theorem fieldOPC_oscMask : fieldOPC oscMask = 0#8 := by decide
@[simp] theorem fieldOSC_oscMask : fieldOSC oscMask = BitVec.allOnes 8 := by decide
@[simp] theorem fieldA_oscMask : fieldA oscMask = 0#8 := by decide
@[simp] theorem fieldB_oscMask : fieldB oscMask = 0#8 := by decide
@[simp] theorem fieldRSV_oscMask : fieldRSV oscMask = 0#32 := by decide
@[simp] theorem fieldVAL_oscMask : fieldVAL oscMask = 0#64 := by decide
@[simp] theorem fieldOPC_aMask : fieldOPC aMask = 0#8 := by decide
@[simp] theorem fieldOSC_aMask : fieldOSC aMask = 0#8 := by decide
@[simp] theorem fieldA_aMask : fieldA aMask = BitVec.allOnes 8 := by decide
@[simp] theorem fieldB_aMask : fieldB aMask = 0#8 := by decide
@[simp] theorem fieldRSV_aMask : fieldRSV aMask = 0#32 := by decide
@[simp] theorem fieldVAL_aMask : fieldVAL aMask = 0#64 := by decide
@[simp] theorem fieldOPC_bMask : fieldOPC bMask = 0#8 := by decide
@[simp] theorem fieldOSC_bMask : fieldOSC bMask = 0#8 := by decide
@[simp] theorem fieldA_bMask : fieldA bMask = 0#8 := by decide
@[simp] theorem fieldB_bMask : fieldB bMask = BitVec.allOnes 8 := by decide
@[simp] theorem fieldRSV_bMask : fieldRSV bMask = 0#32 := by decide
@[simp] theorem fieldVAL_bMask : fieldVAL bMask = 0#64 := by decide
@[simp] theorem fieldOPC_valMask : fieldOPC valMask = 0#8 := by decide
@[simp] theorem fieldOSC_valMask : fieldOSC valMask = 0#8 := by decide
@[simp] theorem fieldA_valMask : fieldA valMask = 0#8 := by decide
@[simp] theorem fieldB_valMask : fieldB valMask = 0#8 := by decide
@[simp] theorem fieldRSV_valMask : fieldRSV valMask = 0#32 := by decide
@[simp] theorem fieldVAL_valMask : fieldVAL valMask = BitVec.allOnes 64 := by decide

/-- The decoder answers a command where RSV is zero and the opcode is of the map (R113 checks 1 and 2). -/
theorem decode_ok_iff (w : CmdWord) (i : Instr) : decode w = .ok i ↔ fieldRSV w = 0 ∧ decodeOpcode w = some i := by
  unfold decode
  by_cases h : fieldRSV w = 0
  · rw [if_neg (by simpa using h)]
    rcases hd : decodeOpcode w with _ | j <;> simp [h]
  · rw [if_pos h]; simpa using fun e => absurd e h

theorem portBytes_length (w : CmdWord) : (portBytes w).length = 16 := by simp [portBytes]

/-- The bytes of a word make the word. -/
theorem bytesToNat_portBytes (w : CmdWord) : bytesToNat (portBytes w) = w.toNat := by
  have hw := w.isLt
  simp only [portBytes, List.range, List.range.loop, List.map_cons, List.map_nil, bytesToNat,
    BitVec.extractLsb'_toNat, Nat.shiftRight_eq_div_pow]
  omega

end Sys2Proof
end

