-- ==== Sys2Proof/Laws/Operands.lean ====
section
/-! SUPPORT. The operand forms as one formula each: what each code stands for, and when it is invalid. -/

namespace Sys2Proof.Machine

/-- A byte is the number it holds. -/
theorem byte_eq_iff {a : BitVec 8} {n : Nat} (h : n < 256) : a = BitVec.ofNat 8 n ↔ a.toNat = n := by
  constructor
  · rintro rfl; simp; omega
  · intro e; apply BitVec.eq_of_toNat_eq; simp [e]; omega

theorem modeOperand_eq (a : BitVec 8) :
    modeOperand a = ⟨if a = 1 then .midi else .const, decide (1 < a.toNat)⟩ := by
  have h1 : (a = 1) = (a.toNat = 1) := propext (byte_eq_iff (by decide))
  unfold modeOperand
  split <;> simp_all
  omega

theorem waveOperand_eq (a : BitVec 8) :
    waveOperand a =
      ⟨if a = 0 then .noise else if a = 1 then .saw else if a = 3 then .square else if a = 4 then .triangle else .sine,
        decide (4 < a.toNat)⟩ := by
  have h0 : (a = 0) = (a.toNat = 0) := propext (byte_eq_iff (by decide))
  have h1 : (a = 1) = (a.toNat = 1) := propext (byte_eq_iff (by decide))
  have h3 : (a = 3) = (a.toNat = 3) := propext (byte_eq_iff (by decide))
  have h4 : (a = 4) = (a.toNat = 4) := propext (byte_eq_iff (by decide))
  simp only [h0, h1, h3, h4]
  unfold waveOperand
  split <;> simp_all
  omega

theorem targetOperand_eq (a b : BitVec 8) :
    targetOperand a b = ⟨if a = 1 then .osc b.toNat else .master, decide (1 < a.toNat)⟩ := by
  have h1 : (a = 1) = (a.toNat = 1) := propext (byte_eq_iff (by decide))
  simp only [h1]
  unfold targetOperand
  split <;> simp_all
  omega

@[simp] theorem pitchOperand_val (a : BitVec 8) : (pitchOperand a).value.val = min a.toNat 127 := by
  simp [pitchOperand]

@[simp] theorem pitchOperand_invalid (a : BitVec 8) : (pitchOperand a).invalid = decide (127 < a.toNat) := rfl

@[simp] theorem bendByteOperand_value (a : BitVec 8) : (bendByteOperand a).value = min a.toNat 127 := rfl
@[simp] theorem bendByteOperand_invalid (a : BitVec 8) : (bendByteOperand a).invalid = decide (127 < a.toNat) := rfl

@[simp] theorem flagOperand_value (a : BitVec 8) : (flagOperand a).value = decide (a ≠ 0) := by
  unfold flagOperand
  simp only [bne, ne_eq, decide_not]; rfl
@[simp] theorem flagOperand_invalid (a : BitVec 8) : (flagOperand a).invalid = decide (1 < a.toNat) := rfl

theorem nonNegativeOperand_eq (v : F64) :
    nonNegativeOperand v = ⟨if fLt v fpZero then fpZero else v, fLt v fpZero⟩ := by
  unfold nonNegativeOperand
  by_cases h : fLt v fpZero = true <;> simp_all

theorem levelOperand_eq (v : F64) :
    levelOperand v =
      ⟨if fLt v fpZero then fpZero else if fLt fpOne v then fpOne else v, fLt v fpZero || fLt fpOne v⟩ := by
  unfold levelOperand
  by_cases h : fLt v fpZero = true <;> by_cases g : fLt fpOne v = true <;> simp_all

end Sys2Proof.Machine
end

