-- ==== Sys2Proof/Laws/Ops.lean ====
section
/-! SUPPORT. What the shared operations over the bank do, said once: the oscillators a change of route leaves, and the
note events on one oscillator and on the bank. -/

namespace Sys2Proof.Machine

/-! ### Changes of route -/

/-- An update of the oscillator at i, oscillator by oscillator. -/
theorem setOsc_osc_map {s : State} {i : Nat} {o : Oscillator} (h : s.osc[i]? = some o) (f : Oscillator → Oscillator)
    (k : Nat) : (s.setOsc i (f o)).osc[k]? = s.osc[k]?.map fun o => if i = k then f o else o := by
  by_cases hk : i = k
  · subst hk
    have := (List.getElem?_eq_some_iff.mp h).1
    simp only [State.setOsc_osc, List.getElem?_set_self this, h, Option.map_some, if_true]
  · simp [hk]

/-- What leaving a target does to the FM slots of oscillator k. -/
theorem leaveTarget_osc (s : State) (i k : Nat) (old : Target) :
    (leaveTarget s i old).osc[k]? =
      s.osc[k]?.map fun o => if old = .osc k then { o with slots := slotErase i o.slots } else o := by
  rcases old with _ | j
  · simp [leaveTarget]
  · simp only [leaveTarget]
    split
    · rename_i oj h
      rw [setOsc_osc_map h fun o => { o with slots := slotErase i o.slots }]
      simp
    · rename_i h
      by_cases hk : j = k
      · subst hk; simp [h]
      · simp [hk]

/-- What joining a target does to the FM slots of oscillator k. -/
theorem joinTarget_osc (s : State) (i k : Nat) (new : Target) :
    (joinTarget s i new).osc[k]? =
      s.osc[k]?.map fun o => if new = .osc k then { o with slots := slotInsert i fpZero o.slots } else o := by
  rcases new with _ | j
  · simp [joinTarget]
  · simp only [joinTarget]
    split
    · rename_i oj h
      rw [setOsc_osc_map h fun o => { o with slots := slotInsert i fpZero o.slots }]
      simp
    · rename_i h
      by_cases hk : j = k
      · subst hk; simp [h]
      · simp [hk]

/-- What a new target does to OUT of oscillator k. -/
theorem setTarget_osc (s : State) (i k : Nat) (t : Target) :
    (setTarget s i t).osc[k]? = s.osc[k]?.map fun o => { o with out := if k = i then t else o.out } := by
  unfold setTarget
  split
  · rename_i oi h
    rw [setOsc_osc_map h fun o => { o with out := t }]
    congr 1
    funext o
    by_cases hk : i = k
    · simp [hk]
    · simp [hk, Ne.symm hk]
  · rename_i h
    by_cases hk : k = i
    · subst hk; simp [h]
    · simp [hk]

/-- The FM slots of oscillator k after a change of route of oscillator i. -/
def reroutedSlots (i k : Nat) (old new : Target) (l : List (Nat × F64)) : List (Nat × F64) :=
  let l := if old = .osc k then slotErase i l else l
  if new = .osc k then slotInsert i fpZero l else l

/-- Which oscillators feed oscillator k after a change of route. -/
theorem mem_keys_reroutedSlots (i k m : Nat) (old new : Target) (l : List (Nat × F64)) :
    m ∈ (reroutedSlots i k old new l).map Prod.fst ↔
      (m = i ∧ new = .osc k) ∨ (m ∈ l.map Prod.fst ∧ ¬(m = i ∧ old = .osc k)) := by
  unfold reroutedSlots
  by_cases h1 : old = .osc k <;> by_cases h2 : new = .osc k <;>
    simp only [h1, h2, if_true, if_false, mem_keys_slotInsert, mem_keys_slotErase] <;> tauto

/-- A change of route, oscillator by oscillator: the registries of the two targets, and OUT of oscillator i. -/
theorem reroute_osc (s : State) (i k : Nat) (old new : Target) :
    (reroute s i old new).osc[k]? =
      s.osc[k]?.map fun o =>
        { o with slots := reroutedSlots i k old new o.slots, out := if k = i then new else o.out } := by
  unfold reroute
  rw [setTarget_osc, joinTarget_osc, leaveTarget_osc]
  rcases s.osc[k]? with _ | o
  · rfl
  · by_cases h1 : old = .osc k <;> by_cases h2 : new = .osc k <;> simp [reroutedSlots, h1, h2]

/-- A change of route changes the bank alone. -/
theorem reroute_frame (s : State) (i : Nat) (old new : Target) :
    reroute s i old new = { s with osc := (reroute s i old new).osc } := by
  have h1 : ∀ s : State, leaveTarget s i old = { s with osc := (leaveTarget s i old).osc } := by
    intro s; unfold leaveTarget; split <;> [rfl; (split <;> rfl)]
  have h2 : ∀ s : State, joinTarget s i new = { s with osc := (joinTarget s i new).osc } := by
    intro s; unfold joinTarget; split <;> [rfl; (split <;> rfl)]
  have h3 : ∀ s : State, setTarget s i new = { s with osc := (setTarget s i new).osc } := by
    intro s; unfold setTarget; split <;> rfl
  unfold reroute
  generalize hs : setTarget (joinTarget (leaveTarget s i old) i new) i new = t
  have e3 := h3 (joinTarget (leaveTarget s i old) i new)
  have e2 := h2 (leaveTarget s i old)
  have e1 := h1 s
  rw [hs] at e3
  rw [e2, e1] at e3
  exact e3

/-- A change of route keeps the size of the bank. -/
@[simp] theorem reroute_nOsc (s : State) (i : Nat) (old new : Target) : (reroute s i old new).nOsc = s.nOsc := by
  have h1 : ∀ s : State, (leaveTarget s i old).osc.length = s.osc.length := by
    intro s; unfold leaveTarget; split <;> [rfl; (split <;> simp)]
  have h2 : ∀ s : State, (joinTarget s i new).osc.length = s.osc.length := by
    intro s; unfold joinTarget; split <;> [rfl; (split <;> simp)]
  have h3 : ∀ s : State, (setTarget s i new).osc.length = s.osc.length := by
    intro s; unfold setTarget; split <;> simp
  simp [State.nOsc, reroute, h1, h2, h3]

/-- When a route is accepted (R237). -/
theorem routeRejected_eq_false {s : State} {i j : Nat} {oi : Oscillator} :
    routeRejected s i oi (.osc j) = false ↔
      ∃ oj, s.osc[j]? = some oj ∧ j ≠ i ∧ oj.out = .master ∧ oi.slots = [] := by
  unfold routeRejected
  rcases h : s.osc[j]? with _ | oj <;> simp [h, and_assoc]

/-! ### Note events -/

/-- A note-on on one oscillator, stack by stack: the pitches it holds after. -/
@[simp] theorem mem_noteOn_pstack (now : Stamp) (p q : Pitch) (o : Oscillator) :
    q ∈ (o.noteOn now p).pstack ↔ q = p ∨ q ∈ o.pstack := by
  unfold Oscillator.noteOn
  by_cases h : p ∈ o.pstack
  · simp only [h, if_true]
    constructor
    · exact .inr
    · rintro (rfl | hq) <;> assumption
  · simp [h]

/-- The pitches an amplifier holds after a note-on. -/
@[simp] theorem mem_ampNoteOn_held (now : Stamp) (p q : Pitch) (a : Amplifier) :
    q ∈ (ampNoteOn now p a).held ↔ q = p ∨ q ∈ a.held := by
  unfold ampNoteOn
  split
  · rename_i h; simp [h]
  · split
    · rename_i h
      constructor
      · exact .inr
      · rintro (rfl | hq) <;> assumption
    · split <;> simp

/-- The pitches an oscillator's stack holds after a note-off. -/
@[simp] theorem mem_noteOff_pstack (now : Stamp) (p q : Pitch) (o : Oscillator) :
    q ∈ (o.noteOff now p).pstack ↔ q ∈ o.pstack ∧ q ≠ p := by
  simp [Oscillator.noteOff]

/-- The pitches an amplifier holds after a note-off. -/
@[simp] theorem mem_ampNoteOff_held (now : Stamp) (p q : Pitch) (a : Amplifier) :
    q ∈ (ampNoteOff now p a).held ↔ q ∈ a.held ∧ q ≠ p := by
  unfold ampNoteOff
  split
  · split
    · rename_i _ h
      have := pitchErase_eq_nil.mp h
      simp only [List.not_mem_nil, false_iff, not_and, not_not]
      exact this q
    · simp
  · rename_i h
    constructor
    · exact fun hq => ⟨hq, fun e => h (e ▸ hq)⟩
    · exact And.left

/-- What a note-on never touches in an amplifier: its parameters and its anchor LAST (R173). -/
theorem ampNoteOn_frame (now : Stamp) (p : Pitch) (a : Amplifier) :
    ampNoteOn now p a =
      { a with
        held := (ampNoteOn now p a).held, start := (ampNoteOn now p a).start
        rstart := (ampNoteOn now p a).rstart, estate := (ampNoteOn now p a).estate } := by
  unfold ampNoteOn
  split
  · rfl
  · split
    · rfl
    · split <;> rfl

/-- What a note-off never touches in an amplifier (R174). -/
theorem ampNoteOff_frame (now : Stamp) (p : Pitch) (a : Amplifier) :
    ampNoteOff now p a =
      { a with
        held := (ampNoteOff now p a).held, start := (ampNoteOff now p a).start
        rstart := (ampNoteOff now p a).rstart, estate := (ampNoteOff now p a).estate } := by
  unfold ampNoteOff
  split
  · split <;> rfl
  · rfl

/-- A calculation changes ESTATE and LAST alone (R175). -/
theorem ampAfterCalc_frame (now : Stamp) (sr : F64) (a : Amplifier) :
    ampAfterCalc now sr a =
      { a with estate := (ampAfterCalc now sr a).estate, last := (ampAfterCalc now sr a).last } := rfl

/-- The oscillators of a bank that one function has updated. -/
theorem mapOsc_getElem? (s : State) (f : Oscillator → Oscillator) (k : Nat) :
    (s.mapOsc f).osc[k]? = s.osc[k]?.map f := by simp

end Sys2Proof.Machine
end

