-- ==== Sys2Proof/Laws/PerInstr.lean ====
section
/-! SUPPORT. A statement per command: the header of its encoding carries its opcode and a zero RSV, and no bit outside
the fields its row uses (30_encoding.md R111, R114, R121). -/

namespace Sys2Proof.Laws.EncodedHeader

/-- The word of a command carries its opcode, RSV = 0, and zeros in the fields its row does not use. -/
def Statement (i : Instr) : Prop :=
  fieldOPC (encode i) = i.opcode ∧ fieldRSV (encode i) = 0 ∧ encode i &&& i.usedMask = encode i

theorem bypass (osc flag : BitVec 8) : Statement (.bypass osc flag) := by
  refine ⟨by simp [encode, Instr.opcode], by simp [encode], ?_⟩
  apply word_ext <;> simp [encode, Instr.usedMask]

theorem coarse (osc : BitVec 8) (val : F64) : Statement (.coarse osc val) := by
  refine ⟨by simp [encode, Instr.opcode], by simp [encode], ?_⟩
  apply word_ext <;> simp [encode, Instr.usedMask]

theorem fine (osc : BitVec 8) (val : F64) : Statement (.fine osc val) := by
  refine ⟨by simp [encode, Instr.opcode], by simp [encode], ?_⟩
  apply word_ext <;> simp [encode, Instr.usedMask]

theorem fmrange (osc : BitVec 8) (val : F64) : Statement (.fmrange osc val) := by
  refine ⟨by simp [encode, Instr.opcode], by simp [encode], ?_⟩
  apply word_ext <;> simp [encode, Instr.usedMask]

theorem freq (osc : BitVec 8) (val : F64) : Statement (.freq osc val) := by
  refine ⟨by simp [encode, Instr.opcode], by simp [encode], ?_⟩
  apply word_ext <;> simp [encode, Instr.usedMask]

theorem gain (osc : BitVec 8) (val : F64) : Statement (.gain osc val) := by
  refine ⟨by simp [encode, Instr.opcode], by simp [encode], ?_⟩
  apply word_ext <;> simp [encode, Instr.usedMask]

theorem pitchmode (osc mode : BitVec 8) : Statement (.pitchmode osc mode) := by
  refine ⟨by simp [encode, Instr.opcode], by simp [encode], ?_⟩
  apply word_ext <;> simp [encode, Instr.usedMask]

theorem output (osc kind target : BitVec 8) : Statement (.output osc kind target) := by
  refine ⟨by simp [encode, Instr.opcode], by simp [encode], ?_⟩
  apply word_ext <;> simp [encode, Instr.usedMask]

theorem waveform (osc wave : BitVec 8) : Statement (.waveform osc wave) := by
  refine ⟨by simp [encode, Instr.opcode], by simp [encode], ?_⟩
  apply word_ext <;> simp [encode, Instr.usedMask]

theorem attack (val : F64) : Statement (.attack val) := by
  refine ⟨by simp [encode, Instr.opcode], by simp [encode], ?_⟩
  apply word_ext <;> simp [encode, Instr.usedMask]

theorem decay (val : F64) : Statement (.decay val) := by
  refine ⟨by simp [encode, Instr.opcode], by simp [encode], ?_⟩
  apply word_ext <;> simp [encode, Instr.usedMask]

theorem sustain (val : F64) : Statement (.sustain val) := by
  refine ⟨by simp [encode, Instr.opcode], by simp [encode], ?_⟩
  apply word_ext <;> simp [encode, Instr.usedMask]

theorem release (val : F64) : Statement (.release val) := by
  refine ⟨by simp [encode, Instr.opcode], by simp [encode], ?_⟩
  apply word_ext <;> simp [encode, Instr.usedMask]

theorem master (val : F64) : Statement (.master val) := by
  refine ⟨by simp [encode, Instr.opcode], by simp [encode], ?_⟩
  apply word_ext <;> simp [encode, Instr.usedMask]

theorem mixermode (mode : BitVec 8) : Statement (.mixermode mode) := by
  refine ⟨by simp [encode, Instr.opcode], by simp [encode], ?_⟩
  apply word_ext <;> simp [encode, Instr.usedMask]

theorem noteon (pitch velocity : BitVec 8) : Statement (.noteon pitch velocity) := by
  refine ⟨by simp [encode, Instr.opcode], by simp [encode], ?_⟩
  apply word_ext <;> simp [encode, Instr.usedMask]

theorem noteoff (pitch : BitVec 8) : Statement (.noteoff pitch) := by
  refine ⟨by simp [encode, Instr.opcode], by simp [encode], ?_⟩
  apply word_ext <;> simp [encode, Instr.usedMask]

theorem pitchbend (lsb msb : BitVec 8) : Statement (.pitchbend lsb msb) := by
  refine ⟨by simp [encode, Instr.opcode], by simp [encode], ?_⟩
  apply word_ext <;> simp [encode, Instr.usedMask]

theorem resetmidi : Statement .resetmidi := by
  refine ⟨by simp [encode, Instr.opcode], by simp [encode], ?_⟩
  apply word_ext <;> simp [encode, Instr.usedMask]

theorem quit : Statement .quit := by
  refine ⟨by simp [encode, Instr.opcode], by simp [encode], ?_⟩
  apply word_ext <;> simp [encode, Instr.usedMask]

end Sys2Proof.Laws.EncodedHeader
end

