-- ==== Sys2Proof/Laws/Rounding.lean ====
section
/-! SUPPORT. Rounding (00_scope.md R10): what it delivers, that it is monotone, that a finite value is its own
rounding, and that finite values are ordered as the numbers they stand for. -/

namespace Sys2Proof.Machine

/-- What rounding to an integer delivers: no farther than a half, and even at a half. -/
theorem roundHalfEven_spec (n d : Nat) (hd : 0 < d) :
    2 * n ≤ (2 * roundHalfEven n d + 1) * d ∧ 2 * roundHalfEven n d * d ≤ 2 * n + d ∧
      (2 * n = (2 * roundHalfEven n d + 1) * d ∨ 2 * roundHalfEven n d * d = 2 * n + d → roundHalfEven n d % 2 = 0) := by
  have e : d * (n / d) + n % d = n := Nat.div_add_mod n d
  have hr : n % d < d := Nat.mod_lt _ hd
  unfold roundHalfEven
  generalize n / d = q at *
  generalize n % d = r at *
  subst e
  have c : d * q = q * d := Nat.mul_comm _ _
  simp only
  split
  · rename_i h
    have h1 : d ≤ 2 * r := by omega
    refine ⟨?_, ?_, ?_⟩
    · nlinarith
    · nlinarith
    · rintro (h' | h')
      · exfalso; nlinarith
      · have : 2 * r = d := by nlinarith
        omega
  · rename_i h
    refine ⟨?_, ?_, ?_⟩
    · have : 2 * r ≤ d := by omega
      nlinarith
    · nlinarith
    · rintro (h' | h')
      · have : 2 * r = d := by nlinarith
        omega
      · exfalso; nlinarith

/-- Rounding to an integer is monotone in the quotient. -/
theorem roundHalfEven_mono {n d n' d' : Nat} (hd : 0 < d) (hd' : 0 < d') (h : n * d' ≤ n' * d) :
    roundHalfEven n d ≤ roundHalfEven n' d' := by
  obtain ⟨-, a2, a3⟩ := roundHalfEven_spec n d hd
  obtain ⟨b1, -, b3⟩ := roundHalfEven_spec n' d' hd'
  generalize roundHalfEven n d = m at *
  generalize roundHalfEven n' d' = m' at *
  by_contra hlt
  obtain ⟨k, rfl⟩ : ∃ k, m = m' + 1 + k := ⟨m - (m' + 1), by omega⟩
  -- both quotients are at the half between m' and m
  have h1 : (2 * m' + 1 + 2 * k) * d ≤ 2 * n := by nlinarith
  have h2 : (2 * m' + 1 + 2 * k) * (d * d') ≤ (2 * m' + 1) * (d * d') := by
    calc (2 * m' + 1 + 2 * k) * (d * d') = (2 * m' + 1 + 2 * k) * d * d' := by ring
      _ ≤ 2 * n * d' := Nat.mul_le_mul_right _ h1
      _ = 2 * (n * d') := by ring
      _ ≤ 2 * (n' * d) := by omega
      _ = 2 * n' * d := by ring
      _ ≤ (2 * m' + 1) * d' * d := Nat.mul_le_mul_right _ b1
      _ = (2 * m' + 1) * (d * d') := by ring
  have hpos : 0 < d * d' := Nat.mul_pos hd hd'
  have hk : k = 0 := by
    have := Nat.le_of_mul_le_mul_right h2 hpos
    omega
  subst hk
  have t1 : 2 * (m' + 1 + 0) * d = 2 * n + d := by
    apply le_antisymm a2
    by_contra hc
    have h1' : (2 * m' + 1) * d < 2 * n := by nlinarith
    have : (2 * m' + 1) * d * d' < 2 * n * d' := Nat.mul_lt_mul_of_pos_right h1' hd'
    nlinarith
  have t2 : 2 * n' = (2 * m' + 1) * d' := by
    apply le_antisymm b1
    by_contra hc
    have h1' : 2 * n' < (2 * m' + 1) * d' := by omega
    have : 2 * n' * d < (2 * m' + 1) * d' * d := Nat.mul_lt_mul_of_pos_right h1' hd
    nlinarith
  have e1 := a3 (.inr t1)
  have e2 := b3 (.inl t2)
  omega

/-- An exact quotient is its own rounding. -/
theorem roundHalfEven_exact (m : Nat) {d : Nat} (hd : 0 < d) : roundHalfEven (m * d) d = m := by
  unfold roundHalfEven
  simp [Nat.mul_div_cancel _ hd]
  omega

/-- The quotient has at most 53 bits above the ones that rounding drops. -/
theorem div_lt_of_shift (n d : Nat) : n / d < 2 ^ (roundShift n d + 53) := by
  unfold roundShift
  have h := Nat.lt_log2_self (n := n / d)
  exact lt_of_lt_of_le h (Nat.pow_le_pow_right (by decide) (by omega))

/-- Where rounding drops bits, it keeps 53. -/
theorem le_div_of_shift {n d : Nat} (h : 0 < roundShift n d) : 2 ^ (roundShift n d + 52) ≤ n / d := by
  unfold roundShift at *
  have hlt : 52 < (n / d).log2 := Nat.sub_pos_iff_lt.mp h
  have hne : n / d ≠ 0 := by
    intro e
    rw [e] at hlt
    exact absurd hlt (by decide)
  rw [Nat.sub_add_cancel hlt.le]
  exact Nat.log2_self_le hne

theorem roundShift_mono {n d n' d' : Nat} (h : n / d ≤ n' / d') : roundShift n d ≤ roundShift n' d' := by
  unfold roundShift
  by_cases h0 : n / d = 0
  · simp [h0]
  · have hne : n' / d' ≠ 0 := fun e => h0 (Nat.le_zero.mp (e ▸ h))
    have : (n / d).log2 ≤ (n' / d').log2 := (Nat.le_log2 hne).mpr ((Nat.log2_self_le h0).trans h)
    omega

theorem roundMag_eq (n d : Nat) :
    roundMag n d =
      min (roundShift n d * 2 ^ 52 + roundHalfEven n (d * 2 ^ roundShift n d)) (2047 * 2 ^ 52) := rfl

/-- The integer that rounding keeps: at most 2^53, and at least 2^52 where bits are dropped. -/
theorem roundHalfEven_bounds (n d : Nat) (hd : 0 < d) :
    roundHalfEven n (d * 2 ^ roundShift n d) ≤ 2 ^ 53 ∧
      (0 < roundShift n d → 2 ^ 52 ≤ roundHalfEven n (d * 2 ^ roundShift n d)) := by
  have hp : 0 < 2 ^ roundShift n d := by positivity
  constructor
  · have : roundHalfEven n (d * 2 ^ roundShift n d) ≤ roundHalfEven (2 ^ 53 * 1) 1 := by
      apply roundHalfEven_mono (Nat.mul_pos hd hp) (by decide)
      have := div_lt_of_shift n d
      have h3 := (Nat.div_lt_iff_lt_mul hd).mp this
      rw [pow_add] at h3
      nlinarith
    rwa [roundHalfEven_exact _ (by decide)] at this
  · intro h
    have : roundHalfEven (2 ^ 52 * 1) 1 ≤ roundHalfEven n (d * 2 ^ roundShift n d) := by
      apply roundHalfEven_mono (by decide) (Nat.mul_pos hd hp)
      have := le_div_of_shift (n := n) (d := d) (by omega)
      have h3 := (Nat.le_div_iff_mul_le hd).mp this
      rw [pow_add] at h3
      nlinarith
    rwa [roundHalfEven_exact _ (by decide)] at this

/-- Rounding is monotone in the quotient. -/
theorem roundMag_mono {n d n' d' : Nat} (hd : 0 < d) (hd' : 0 < d') (h : n * d' ≤ n' * d) :
    roundMag n d ≤ roundMag n' d' := by
  have hq : n / d ≤ n' / d' := by
    rw [Nat.le_div_iff_mul_le hd']
    have : n / d * d ≤ n := Nat.div_mul_le_self n d
    have h2 : n / d * d' * d ≤ n' * d := by
      calc n / d * d' * d = n / d * d * d' := by ring
        _ ≤ n * d' := Nat.mul_le_mul_right _ this
        _ ≤ n' * d := h
    exact Nat.le_of_mul_le_mul_right h2 hd
  have hk := roundShift_mono hq
  rw [roundMag_eq, roundMag_eq]
  apply min_le_min_right
  rcases hk.lt_or_eq with hlt | heq
  · have u := (roundHalfEven_bounds n d hd).1
    have l := (roundHalfEven_bounds n' d' hd').2 (by omega)
    omega
  · rw [heq]
    have hp' : 0 < 2 ^ roundShift n' d' := by positivity
    apply Nat.add_le_add_left
    apply roundHalfEven_mono (Nat.mul_pos hd hp') (Nat.mul_pos hd' hp')
    calc n * (d' * 2 ^ roundShift n' d') = n * d' * 2 ^ roundShift n' d' := by ring
      _ ≤ n' * d * 2 ^ roundShift n' d' := Nat.mul_le_mul_right _ h
      _ = n' * (d * 2 ^ roundShift n' d') := by ring

/-- A finite value is its own rounding. -/
theorem roundMag_fMag {x : F64} (hx : fIsFinite x = true) {d : Nat} (hd : 0 < d) :
    roundMag (fMag x * d) d = x.toNat % 2 ^ 63 := by
  have he := fExp_lt x
  have hf := fFrac_lt x
  have hfin : fExp x ≠ 2047 := by simpa [fIsFinite] using hx
  have hs : x.toNat % 2 ^ 63 = fExp x * 2 ^ 52 + fFrac x := by unfold fExp fFrac; omega
  have hdiv : fMag x * d / d = fMag x := Nat.mul_div_cancel _ hd
  rw [hs]
  by_cases h0 : fExp x = 0
  · have hm : fMag x = fFrac x := by simp [fMag, fSig, h0]
    have hk : roundShift (fMag x * d) d = 0 := by
      unfold roundShift
      rw [hdiv, hm]
      by_cases hz : fFrac x = 0
      · simp [hz]
      · have : (fFrac x).log2 < 52 := (Nat.log2_lt hz).mpr hf
        omega
    rw [roundMag_eq, hk, pow_zero, Nat.mul_one, Nat.zero_mul, Nat.zero_add, roundHalfEven_exact _ hd, hm, h0,
      Nat.zero_mul, Nat.zero_add]
    exact Nat.min_eq_left (by omega)
  · have hm : fMag x = (2 ^ 52 + fFrac x) * 2 ^ (fExp x - 1) := by simp [fMag, fSig, h0]
    have hk : roundShift (fMag x * d) d = fExp x - 1 := by
      unfold roundShift
      rw [hdiv, hm]
      have hne : (2 ^ 52 + fFrac x) * 2 ^ (fExp x - 1) ≠ 0 := by positivity
      have l1 : ((2 ^ 52 + fFrac x) * 2 ^ (fExp x - 1)).log2 < 53 + (fExp x - 1) := by
        rw [Nat.log2_lt hne, pow_add]
        exact Nat.mul_lt_mul_of_pos_right (by omega) (by positivity)
      have l2 : 52 + (fExp x - 1) ≤ ((2 ^ 52 + fFrac x) * 2 ^ (fExp x - 1)).log2 := by
        rw [Nat.le_log2 hne, pow_add]
        exact Nat.mul_le_mul_right _ (by omega)
      omega
    have hr : roundHalfEven (fMag x * d) (d * 2 ^ (fExp x - 1)) = 2 ^ 52 + fFrac x := by
      rw [hm]
      have : (2 ^ 52 + fFrac x) * 2 ^ (fExp x - 1) * d = (2 ^ 52 + fFrac x) * (d * 2 ^ (fExp x - 1)) := by ring
      rw [this]
      exact roundHalfEven_exact _ (Nat.mul_pos hd (by positivity))
    rw [roundMag_eq, hk, hr]
    rw [Nat.min_eq_left (by omega)]
    omega

/-- A finite value is its own rounding, with its sign. -/
theorem fRound_fMag {x : F64} (hx : fIsFinite x = true) {d : Nat} (hd : 0 < d) :
    fRound (fSign x) (fMag x * d) d = x := by
  apply BitVec.eq_of_toNat_eq
  rw [fRound_toNat, roundMag_fMag hx hd]
  have hlt := x.isLt
  have : fSign x = decide (2 ^ 63 ≤ x.toNat) := by
    unfold fSign
    rw [BitVec.getLsbD, Nat.testBit_eq_decide_div_mod_eq]
    congr 1
    apply propext
    omega
  rw [this]
  by_cases h : 2 ^ 63 ≤ x.toNat
  · rw [if_pos (decide_eq_true h)]; omega
  · rw [if_neg (by simp only [h, decide_false]; exact Bool.false_ne_true)]; omega

/-- The magnitude of a value is that of its 63 magnitude bits. -/
theorem fMag_congr {x y : F64} (h : x.toNat % 2 ^ 63 = y.toNat % 2 ^ 63) : fMag x = fMag y := by
  have he : fExp x = fExp y := by unfold fExp; omega
  have hf : fFrac x = fFrac y := by unfold fFrac; omega
  simp [fMag, fSig, he, hf]

/-- The magnitudes of finite values are ordered as their magnitude bits. -/
theorem fMag_le_iff {x y : F64} (hx : fIsFinite x = true) (hy : fIsFinite y = true) :
    fMag x ≤ fMag y ↔ x.toNat % 2 ^ 63 ≤ y.toNat % 2 ^ 63 := by
  have key : ∀ {x y : F64}, fIsFinite x = true → fIsFinite y = true → fMag x ≤ fMag y →
      x.toNat % 2 ^ 63 ≤ y.toNat % 2 ^ 63 := by
    intro x y hx hy h
    rw [← roundMag_fMag hx (by decide : 0 < 1), ← roundMag_fMag hy (by decide : 0 < 1)]
    exact roundMag_mono (by decide) (by decide) (by simpa using h)
  refine ⟨key hx hy, fun h => ?_⟩
  by_contra hlt
  have := key hy hx (by omega)
  exact hlt (fMag_congr (le_antisymm h this)).le

/-- The order of finite values is the order of the numbers they stand for. -/
theorem fKey_le_iff {x y : F64} (hx : fIsFinite x = true) (hy : fIsFinite y = true) :
    fKey x ≤ fKey y ↔ fVal x ≤ fVal y := by
  have h1 := fMag_le_iff hx hy
  have h2 := fMag_le_iff hy hx
  have z : ∀ {x : F64}, fIsFinite x = true → (fMag x = 0 ↔ x.toNat % 2 ^ 63 = 0) := by
    intro x hx
    have hz : fMag 0#64 = 0 := by decide
    have := fMag_le_iff hx (by decide : fIsFinite 0#64 = true)
    have h0 : (0#64).toNat % 2 ^ 63 = 0 := rfl
    rw [hz, h0] at this
    omega
  have zx := z hx
  have zy := z hy
  unfold fKey fVal
  generalize x.toNat % 2 ^ 63 = a at *
  generalize y.toNat % 2 ^ 63 = b at *
  generalize fMag x = c at *
  generalize fMag y = d at *
  cases fSign x <;> cases fSign y <;> simp only [if_true, if_false, Bool.false_eq_true] <;> omega

/-- `x ≤ y` of finite values. -/
theorem fLe_iff {x y : F64} (hx : fIsFinite x = true) (hy : fIsFinite y = true) : fLe x y = true ↔ fVal x ≤ fVal y := by
  simp [fLe, fIsNaN_of_finite hx, fIsNaN_of_finite hy, fKey_le_iff hx hy]

/-- `x < y` of finite values. -/
theorem fLt_iff {x y : F64} (hx : fIsFinite x = true) (hy : fIsFinite y = true) : fLt x y = true ↔ fVal x < fVal y := by
  have := fKey_le_iff hy hx
  simp only [fLt, fIsNaN_of_finite hx, fIsNaN_of_finite hy, Bool.not_false, Bool.true_and, decide_eq_true_eq]
  omega

/-- An exact result that is a finite value rounds to that value. -/
theorem roundMag_exact {z : F64} (hz : fIsFinite z = true) {n d : Nat} (hd : 0 < d) (h : n = fMag z * d) :
    roundMag n d = z.toNat % 2 ^ 63 := h ▸ roundMag_fMag hz hd

/-! ### Signs, negation, and the nearest value -/

/-- The magnitude bits of a rounded result. -/
theorem fRound_mod (neg : Bool) (n d : Nat) : (fRound neg n d).toNat % 2 ^ 63 = roundMag n d := by
  have h := roundMag_le n d
  rw [fRound_toNat]; cases neg <;> simp <;> omega

/-- The sign bit is the top bit of the pattern. -/
theorem fSign_eq (x : F64) : fSign x = decide (2 ^ 63 ≤ x.toNat) := by
  have := x.isLt
  unfold fSign
  rw [BitVec.getLsbD, Nat.testBit_eq_decide_div_mod_eq]
  congr 1
  apply propext
  omega

/-- The sign a pattern was packed with. -/
theorem fSign_fPack (neg : Bool) {m : Nat} (h : m < 2 ^ 63) : fSign (fPack neg m) = neg := by
  rw [fSign_eq, fPack_toNat neg h]
  cases neg <;> simp; omega

/-- Rounding keeps the sign. -/
theorem fSign_fRound (neg : Bool) (n d : Nat) : fSign (fRound neg n d) = neg :=
  fSign_fPack neg (lt_of_le_of_lt (roundMag_le n d) (by norm_num))

/-- Zero rounds to zero. -/
theorem roundMag_zero {d : Nat} (hd : 0 < d) : roundMag 0 d = 0 := by
  have := roundMag_fMag (x := 0#64) (by decide) hd
  have h0 : fMag 0#64 = 0 := by decide
  rw [h0] at this; simpa using this

/-- A signed zero is a rounded zero. -/
theorem fPack_zero (neg : Bool) : fPack neg 0 = fRound neg 0 1 := by
  rw [fRound, roundMag_zero (by decide)]

/-- Negation keeps the magnitude bits. -/
theorem fNeg_toNat_mod (x : F64) : (fNeg x).toNat % 2 ^ 63 = x.toNat % 2 ^ 63 := by
  have : (fNeg x).toNat = x.toNat ^^^ 2 ^ 63 := by simp [fNeg]
  rw [this, Nat.xor_mod_two_pow]; simp

/-- Negation inverts the sign. -/
theorem fSign_fNeg (x : F64) : fSign (fNeg x) = !fSign x := by
  simp [fSign, fNeg]

/-- Negation keeps the exponent. -/
theorem fExp_fNeg (x : F64) : fExp (fNeg x) = fExp x := by
  have := fNeg_toNat_mod x; unfold fExp; omega

/-- Negation keeps the fraction. -/
theorem fFrac_fNeg (x : F64) : fFrac (fNeg x) = fFrac x := by
  have := fNeg_toNat_mod x; unfold fFrac; omega

/-- The number a negated value stands for. -/
theorem fVal_fNeg (x : F64) : fVal (fNeg x) = -fVal x := by
  simp only [fVal, fMag, fSig, fExp_fNeg, fFrac_fNeg, fSign_fNeg]
  cases fSign x <;> simp

/-- Negation keeps finiteness. -/
theorem fIsFinite_fNeg (x : F64) : fIsFinite (fNeg x) = fIsFinite x := by simp [fIsFinite, fExp_fNeg]

/-- The magnitude of the pattern k · 2^52 + q that rounding packs: q units of 2^k, and its significand is even with q. -/
theorem fMag_of_pattern {z : F64} {k q : Nat} (h : z.toNat % 2 ^ 63 = k * 2 ^ 52 + q) (hq : q ≤ 2 ^ 53)
    (hk : 0 < k → 2 ^ 52 ≤ q) : fMag z = q * 2 ^ k ∧ fSig z % 2 = q % 2 := by
  have hz := z.isLt
  have hs : fExp z * 2 ^ 52 + fFrac z = k * 2 ^ 52 + q := by rw [← h]; unfold fExp fFrac; omega
  have hf := fFrac_lt z
  unfold fMag fSig
  generalize fExp z = e at *
  generalize fFrac z = f at *
  by_cases h0 : e = 0
  · subst h0
    have : k = 0 := by
      by_contra hne; have := hk (by omega)
      have : 0 < k := by omega
      omega
    subst this
    simp at hs
    simp [hs]
  · rw [if_neg h0]
    by_cases hq2 : q = 2 ^ 53
    · have e1 : e = k + 2 := by omega
      have e2 : f = 0 := by omega
      subst e1 e2
      constructor
      · rw [hq2]; simp; rw [pow_succ]; ring
      · rw [hq2]; omega
    · by_cases hq1 : 2 ^ 52 ≤ q
      · have e1 : e = k + 1 := by omega
        have e2 : 2 ^ 52 + f = q := by omega
        rw [e2, e1]
        exact ⟨rfl, rfl⟩
      · have : k = 0 := by by_contra hne; exact hq1 (hk (by omega))
        omega

/-- A magnitude is a multiple of 2^k, or it lies below 2^(k + 52). -/
theorem fMag_grid (w : F64) (k : Nat) : (∃ j, fMag w = j * 2 ^ k) ∨ fMag w < 2 ^ (k + 52) := by
  unfold fMag fSig
  have hf := fFrac_lt w
  by_cases h : k ≤ fExp w - 1
  · left
    refine ⟨(if fExp w = 0 then fFrac w else 2 ^ 52 + fFrac w) * 2 ^ (fExp w - 1 - k), ?_⟩
    rw [Nat.mul_assoc, ← pow_add]; congr 2; omega
  · right
    have hk : fExp w - 1 < k := by omega
    calc (if fExp w = 0 then fFrac w else 2 ^ 52 + fFrac w) * 2 ^ (fExp w - 1)
        < 2 ^ 53 * 2 ^ (fExp w - 1) := by
          apply Nat.mul_lt_mul_of_pos_right _ (by positivity)
          split <;> omega
      _ = 2 ^ (53 + (fExp w - 1)) := by rw [← pow_add]
      _ ≤ 2 ^ (k + 52) := Nat.pow_le_pow_right (by decide) (by omega)

/-- No multiple of D is nearer to n than the one half-even rounding picks, and another as near is at a tie. -/
theorem nearest_grid {n D q : Nat} (hD : 0 < D) (h1 : 2 * n ≤ (2 * q + 1) * D) (h2 : 2 * q * D ≤ 2 * n + D) (j : Nat) :
    ((q * D : Nat) - (n : Int)).natAbs ≤ ((j * D : Nat) - (n : Int)).natAbs ∧
    (((q * D : Nat) - (n : Int)).natAbs = ((j * D : Nat) - (n : Int)).natAbs → j ≠ q →
      2 * n = (2 * q + 1) * D ∨ 2 * q * D = 2 * n + D) := by
  rcases lt_trichotomy j q with h | h | h
  · obtain ⟨c, rfl⟩ : ∃ c, q = j + 1 + c := ⟨q - (j + 1), by omega⟩
    have e1 : (j + 1 + c) * D = j * D + D + c * D := by ring
    have e2 : (2 * (j + 1 + c) + 1) * D = 2 * (j * D) + 3 * D + 2 * (c * D) := by ring
    have e3 : 2 * (j + 1 + c) * D = 2 * (j * D) + 2 * D + 2 * (c * D) := by ring
    rw [e1]; rw [e2] at h1 ⊢; rw [e3] at h2 ⊢
    generalize j * D = a at *
    generalize c * D = b at *
    omega
  · subst h; simp
  · obtain ⟨c, rfl⟩ : ∃ c, j = q + 1 + c := ⟨j - (q + 1), by omega⟩
    have e1 : (q + 1 + c) * D = q * D + D + c * D := by ring
    have e2 : (2 * q + 1) * D = 2 * (q * D) + D := by ring
    have e3 : 2 * q * D = 2 * (q * D) := by ring
    rw [e1]; rw [e2] at h1 ⊢; rw [e3] at h2 ⊢
    generalize q * D = a at *
    generalize c * D = b at *
    omega

/-- No magnitude is nearer to n/d than the rounded one, and where another is as near the rounded significand is even. -/
theorem nearest_mag {n d : Nat} (hd : 0 < d) {z w : F64} (hz : z.toNat % 2 ^ 63 = roundMag n d)
    (hfin : roundMag n d < 2047 * 2 ^ 52) :
    ((fMag z * d : Nat) - (n : Int)).natAbs ≤ ((fMag w * d : Nat) - (n : Int)).natAbs ∧
    (((fMag z * d : Nat) - (n : Int)).natAbs = ((fMag w * d : Nat) - (n : Int)).natAbs → fMag w ≠ fMag z →
      fSig z % 2 = 0) := by
  obtain ⟨hq, hk⟩ := roundHalfEven_bounds n d hd
  have hzp : z.toNat % 2 ^ 63 = roundShift n d * 2 ^ 52 + roundHalfEven n (d * 2 ^ roundShift n d) := by
    rw [hz, roundMag_eq] at *; omega
  obtain ⟨hm, hsig⟩ := fMag_of_pattern hzp hq hk
  have hD : 0 < d * 2 ^ roundShift n d := Nat.mul_pos hd (by positivity)
  obtain ⟨s1, s2, s3⟩ := roundHalfEven_spec n _ hD
  have hdd : ∀ q, q * 2 ^ roundShift n d * d = q * (d * 2 ^ roundShift n d) := fun q => by ring
  rw [hm, hdd, hsig]
  rcases fMag_grid w (roundShift n d) with ⟨j, hj⟩ | hlt
  · obtain ⟨a, b⟩ := nearest_grid hD s1 s2 j
    rw [hj, hdd]
    refine ⟨a, fun h hne => s3 (b h ?_)⟩
    rintro rfl; exact hne rfl
  · by_cases hk0 : roundShift n d = 0
    · -- every magnitude is a multiple of 1
      obtain ⟨a, b⟩ := nearest_grid hD s1 s2 (fMag w)
      have e : fMag w * d = fMag w * (d * 2 ^ roundShift n d) := by rw [hk0]; simp
      rw [e]
      refine ⟨a, fun h hne => s3 (b h ?_)⟩
      rintro h; apply hne; rw [hk0] at h ⊢; rw [h]; simp
    · obtain ⟨a, -⟩ := nearest_grid hD s1 s2 (2 ^ 52)
      have h1 := (Nat.le_div_iff_mul_le hd).mp (le_div_of_shift (n := n) (d := d) (by omega))
      rw [pow_add] at h1 hlt
      have h2 : fMag w * d < 2 ^ roundShift n d * 2 ^ 52 * d := Nat.mul_lt_mul_of_pos_right hlt hd
      have e : 2 ^ 52 * (d * 2 ^ roundShift n d) = 2 ^ roundShift n d * 2 ^ 52 * d := by ring
      rw [e] at a
      generalize roundHalfEven n (d * 2 ^ roundShift n d) * (d * 2 ^ roundShift n d) = A at *
      generalize 2 ^ roundShift n d * 2 ^ 52 * d = B at *
      generalize fMag w * d = C at *
      omega

/-- A rounded result is finite exactly below the midpoint of the largest finite value and 2^1024. -/
theorem roundMag_lt_iff {n d : Nat} (hd : 0 < d) : roundMag n d < 2047 * 2 ^ 52 ↔ n < (2 ^ 54 - 1) * 2 ^ 2044 * d := by
  obtain ⟨hq, hk⟩ := roundHalfEven_bounds n d hd
  have hD : 0 < d * 2 ^ roundShift n d := Nat.mul_pos hd (by positivity)
  obtain ⟨s1, s2, s3⟩ := roundHalfEven_spec n _ hD
  have hlt := (Nat.div_lt_iff_lt_mul hd).mp (div_lt_of_shift n d)
  rw [roundMag_eq]
  have hge : 0 < roundShift n d → 2 ^ (roundShift n d + 52) * d ≤ n := fun h =>
    (Nat.le_div_iff_mul_le hd).mp (le_div_of_shift h)
  generalize hqq : roundHalfEven n (d * 2 ^ roundShift n d) = q at *
  generalize roundShift n d = k at *
  clear hqq
  rcases lt_trichotomy k 2045 with h | h | h
  · have : n < (2 ^ 54 - 1) * 2 ^ 2044 * d := by
      refine lt_of_lt_of_le hlt (Nat.mul_le_mul_right _ ?_)
      calc 2 ^ (k + 53) ≤ 2 ^ (53 + 2044) := Nat.pow_le_pow_right (by decide) (by omega)
        _ = 2 ^ 53 * 2 ^ 2044 := pow_add 2 53 2044
        _ ≤ (2 ^ 54 - 1) * 2 ^ 2044 := Nat.mul_le_mul_right _ (by norm_num)
    simp only [this, iff_true]
    omega
  · subst h
    have e : d * 2 ^ 2045 = 2 * (2 ^ 2044 * d) := by rw [pow_succ]; ring
    have e2 : (2 ^ 54 - 1) * 2 ^ 2044 * d = (2 ^ 54 - 1) * (2 ^ 2044 * d) := by ring
    rw [e2]
    rw [e] at s1 s2 s3
    generalize 2 ^ 2044 * d = X at *
    have hX : 0 < X := by omega
    constructor
    · intro hh
      have : q ≤ 2 ^ 53 - 1 := by omega
      by_contra hc
      have h1 : (2 * q + 1) * (2 * X) ≤ (2 ^ 54 - 1) * (2 * X) := Nat.mul_le_mul_right _ (by omega)
      have e5 : (2 ^ 54 - 1) * (2 * X) = 2 * ((2 ^ 54 - 1) * X) := by ring
      have h3 : 2 * n = (2 * q + 1) * (2 * X) := by omega
      have h4 := s3 (.inl h3)
      have : 2 ^ 54 - 1 ≤ 2 * q + 1 := by
        by_contra hcc
        have : (2 * q + 1) * (2 * X) < (2 ^ 54 - 1) * (2 * X) := Nat.mul_lt_mul_of_pos_right (by omega) (by omega)
        omega
      omega
    · intro hh
      have : q ≠ 2 ^ 53 := by
        rintro rfl
        have : 2 * 2 ^ 53 * (2 * X) = 2 * ((2 ^ 54 - 1) * X) + 2 * X := by
          have : (2:Nat) ^ 54 - 1 = 18014398509481983 := by norm_num
          rw [this]; norm_num; ring
        omega
      omega
  · have : ¬ n < (2 ^ 54 - 1) * 2 ^ 2044 * d := by
      have h1 := hge (by omega)
      intro hc
      have : (2 ^ 54 - 1) * 2 ^ 2044 * d ≤ 2 ^ (k + 52) * d := by
        apply Nat.mul_le_mul_right
        calc (2 ^ 54 - 1) * 2 ^ 2044 ≤ 2 ^ 54 * 2 ^ 2044 := Nat.mul_le_mul_right _ (by norm_num)
          _ = 2 ^ (54 + 2044) := by rw [← pow_add]
          _ ≤ 2 ^ (k + 52) := Nat.pow_le_pow_right (by decide) (by omega)
      omega
    simp only [this, iff_false]
    have := hk (by omega)
    omega

/-- A finite value is zero as a number exactly where it is a zero. -/
theorem fVal_zero_iff {x : F64} (hx : fIsFinite x = true) : fVal x = 0 ↔ fIsZero x = true := by
  have h0 : fMag 0#64 = 0 := by decide
  have a := fMag_le_iff hx (by decide : fIsFinite 0#64 = true)
  rw [h0] at a
  have : fVal x = 0 ↔ fMag x = 0 := by unfold fVal; cases fSign x <;> simp
  rw [this]
  simp at a
  simp [fIsZero, a]

end Sys2Proof.Machine
end

