-- ==== Sys2Proof/Laws/Tick.lean ====
section
/-! SUPPORT. What a calculation, a drain, a tick and a step can do, said once, and the induction over them: a property
that every command and every part of the tick keeps is kept by every step. -/

namespace Sys2Proof.Machine

/-! ### The calculation of one oscillator -/

/-- Taking a draw changes the noise inputs alone. -/
theorem drawNoise_state (s : State) :
    ∃ l n, (drawNoise s).state = { s with noiseIn := l, noiseCount := n } := by
  unfold drawNoise
  split
  · exact ⟨_, s.noiseCount, rfl⟩
  · exact ⟨s.noiseIn, _, rfl⟩

/-- The raw sample changes the noise inputs alone. -/
theorem rawSample_state (o : Oscillator) (s : State) :
    ∃ l n, (rawSample o s).state = { s with noiseIn := l, noiseCount := n } := by
  unfold rawSample
  split
  · exact drawNoise_state s
  · exact ⟨s.noiseIn, s.noiseCount, rfl⟩

/-- What `osc_calc(i)` can do: nothing, where the oscillator is bypassed; or one oscillator calculated, with the noise
inputs taken and NONFINITE as its phase sum says. -/
theorem oscCalc_cases (i : Nat) (s : State) :
    (oscCalc i s = ⟨fpZero, s⟩ ∧ ∀ o, s.osc[i]? = some o → o.bypass = true) ∨
    ∃ o l n, s.osc[i]? = some o ∧ o.bypass = false ∧
      (oscCalc i s).value = o.shaped s (rawSample o s).value ∧
      (rawSample o s).state = { s with noiseIn := l, noiseCount := n } ∧
      (oscCalc i s).state =
        (State.setOsc { s with noiseIn := l, noiseCount := n } i (o.afterCalc s)).setStatusIf
          (!fIsFinite (phaseSum o s.bend s.sr)) statusNONFINITE := by
  rcases h : s.osc[i]? with _ | o
  · exact .inl ⟨by simp [oscCalc, h], by simp⟩
  · rcases hb : o.bypass
    · obtain ⟨l, n, hr⟩ := rawSample_state o s
      exact .inr ⟨o, l, n, rfl, hb, by simp [oscCalc, h, hb], hr, by simp [oscCalc, h, hb, hr]⟩
    · exact .inl ⟨by simp [oscCalc, h, hb], by simp [hb]⟩

/-! ### The drain -/

/-- A word of the FIFO is a command, or a drop: in both cases a command's effect. -/
theorem applyWord_effect {w : CmdWord} {s t : State} (h : applyWord w s = .next t) : CommandEffect s t := by
  unfold applyWord at h
  split at h
  · exact exec_effect h
  · exact dropInvalid_effect h

/-- No command lengthens the FIFO. -/
theorem CommandEffect.fifo_length_le {s t : State} (h : CommandEffect s t) : t.fifo.length ≤ s.fifo.length := by
  cases h with
  | route i o new c => simp only [State.setStatusIf_fifo]; rw [reroute_frame]
  | quit => exact Nat.zero_le _
  | _ => exact le_refl _

/-- A property that every command keeps, and that taking an entry out of the FIFO keeps, is kept by a drain. -/
theorem drainUpTo_preserves {P : State → Prop} (hcmd : ∀ s t, P s → CommandEffect s t → P t)
    (hpop : ∀ (s : State) w rest, s.fifo = w :: rest → P s → P { s with fifo := rest }) :
    ∀ (n : Nat) (s t : State), P s → drainUpTo n s = .next t → P t
  | 0, s, t, hs, h => by cases h; exact hs
  | n + 1, s, t, hs, h => by
    unfold drainUpTo at h
    split at h
    · cases h; exact hs
    · rename_i w rest hf
      obtain ⟨u, hu, h⟩ := andThen_eq_next.mp h
      exact drainUpTo_preserves hcmd hpop n u t (hcmd _ _ (hpop s w rest hf hs) (applyWord_effect hu)) h

/-! ### The tick -/

/-- A property that every calculation and every delivery keeps is kept by phase 1. -/
theorem modulators_preserves {P : State → Prop} (hcalc : ∀ i s, P s → P (oscCalc i s).state)
    (hdeliver : ∀ s i j v, P s → P (deliver s i j v)) (s : State) (h : P s) : P (modulators s) := by
  suffices ∀ (l : List Nat) (s : State), P s → P (l.foldl tickModulator s) from this _ s h
  intro l
  induction l with
  | nil => exact fun s h => h
  | cons i l ih =>
    intro s h
    refine ih _ ?_
    unfold tickModulator
    split
    · split
      · exact hdeliver _ _ _ _ (hcalc _ _ h)
      · exact h
    · exact h

/-- A property that every calculation keeps is kept by phase 2. -/
theorem carriers_preserves {P : State → Prop} (hcalc : ∀ i s, P s → P (oscCalc i s).state) (s : State) (h : P s) :
    P (carriers s).state := by
  suffices ∀ (l : List Nat) (c : Computed), P c.state → P (l.foldl tickCarrier c).state from this _ ⟨fpZero, s⟩ h
  intro l
  induction l with
  | nil => exact fun c h => h
  | cons i l ih =>
    intro c h
    refine ih _ ?_
    unfold tickCarrier
    split
    · split
      · exact hcalc _ _ h
      · exact h
    · exact h

/-- What a tick can do: be silent, or drain and then be silent or compute. -/
theorem tick_cases {s t : State} (h : tick s = .next t) :
    (s.halted = true ∧ t = silentTick s) ∨
    ∃ u, s.halted = false ∧ drain s = .next u ∧
      ((u.halted = true ∧ t = silentTick u) ∨ (u.halted = false ∧ t = computeSample u)) := by
  unfold tick at h
  split at h
  · rename_i hh; cases h; exact .inl ⟨hh, rfl⟩
  · rename_i hh
    obtain ⟨u, hu, h⟩ := andThen_eq_next.mp h
    refine .inr ⟨u, by simpa using hh, hu, ?_⟩
    unfold afterDrain at h
    split at h
    · rename_i hu; cases h; exact .inl ⟨hu, rfl⟩
    · rename_i hu; cases h; exact .inr ⟨by simpa using hu, rfl⟩

/-! ### The induction over a step -/

/-- What every part of a step must keep, for a property of states to be an invariant. -/
structure Kept (P : State → Prop) : Prop where
  /-- the host's schedule and the reply are no part of the property -/
  environment : ∀ (s : State) inbox reply, P s → P { s with inbox := inbox, reply := reply }
  pop : ∀ (s : State) w rest, s.fifo = w :: rest → P s → P { s with fifo := rest }
  push : ∀ w s, P s → P (Machine.push w s)
  command : ∀ s t, P s → CommandEffect s t → P t
  oscCalc : ∀ i s, P s → P (Machine.oscCalc i s).state
  deliver : ∀ s i j v, P s → P (Machine.deliver s i j v)
  mixer : ∀ c : Computed, P c.state → P (Machine.mixer c).state
  emit : ∀ c : Computed, P c.state → P (Machine.emit c)
  reset : ∀ sr s t, P s → resetBlock sr s = .next t → P t

/-- A drain keeps what its parts keep. -/
theorem Kept.drain {P : State → Prop} (k : Kept P) {s t : State} (hs : P s) (h : drain s = .next t) : P t :=
  drainUpTo_preserves k.command k.pop _ s t hs h

/-- The computation of a sample keeps what its parts keep. -/
theorem Kept.computeSample {P : State → Prop} (k : Kept P) {s : State} (hs : P s) : P (computeSample s) :=
  k.emit _ (k.mixer _ (carriers_preserves k.oscCalc _ (modulators_preserves k.oscCalc k.deliver s hs)))

/-- A tick keeps what its parts keep. -/
theorem Kept.tick {P : State → Prop} (k : Kept P) {s t : State} (hs : P s) (h : tick s = .next t) : P t := by
  rcases tick_cases h with ⟨-, rfl⟩ | ⟨u, -, hu, ⟨-, rfl⟩ | ⟨-, rfl⟩⟩
  · exact k.environment s s.inbox _ hs
  · exact k.environment u u.inbox _ (k.drain hs hu)
  · exact k.computeSample (k.drain hs hu)

/-- Every step keeps what its parts keep. -/
theorem Kept.step {P : State → Prop} (k : Kept P) {s t : State} (hs : P s) (h : step s = .next t) : P t := by
  unfold Machine.step at h
  split at h
  · cases h; exact hs
  · rename_i hd rest _
    have hs' : P { s with inbox := rest } := k.environment s rest s.reply hs
    cases hd with
    | push w => cases h; exact k.environment _ _ _ (k.push w _ hs')
    | tick => exact k.tick hs' h
    | reset sr => exact k.reset sr _ t hs' h
    | readStatus => cases h; exact k.environment _ _ _ hs'
    | readTick => cases h; exact k.environment _ _ _ hs'
    | readOutSample => cases h; exact k.environment _ _ _ hs'

/-- What a reset answers: the reset state of the block's own configuration, with the environment carried over. -/
theorem resetBlock_cases {sr : F64} {s t : State} (h : resetBlock sr s = .next t) :
    sampleRateOk sr = true ∧ configurationOk s.nOsc s.params = true ∧
      t = keepEnvironment s (State.afterReset s.params (s.osc.map fun o => o.amp.legato) s.master.legato sr) := by
  unfold resetBlock at h
  obtain ⟨u, hu, h⟩ := andThen_eq_next.mp h
  unfold powerOn at hu
  split at hu
  · cases hu
  · rename_i hsr
    split at hu
    · cases hu
    · rename_i hc
      cases hu
      cases h
      exact ⟨by simpa using hsr, by simpa [State.nOsc] using hc, rfl⟩

end Sys2Proof.Machine
end

