-- ==== Sys2Proof/Laws/TickSamples.lean ====
section
/-! SUPPORT. What a tick computes, said once in the terms of Safety's `tickSample` and `tickPhaseSum`: the progress of
the calculations in R203's evaluation order, whatever the routes are (`Progress`), and exactly, where they are legal
(`Exact`). -/

namespace Sys2Proof.Machine

/-! ### Draws -/

/-- Draws leave the bank. -/
@[simp] theorem State.afterDraws_osc (s : State) (n : Nat) : (s.afterDraws n).osc = s.osc := rfl
/-- No draw changes nothing. -/
@[simp] theorem State.afterDraws_zero (s : State) : s.afterDraws 0 = s := by simp [State.afterDraws]

/-- Draws add up. -/
theorem State.afterDraws_add (s : State) (m n : Nat) : (s.afterDraws m).afterDraws n = s.afterDraws (m + n) := by
  simp only [State.afterDraws, List.drop_drop, List.length_drop, State.mk.injEq, true_and]
  omega

/-- A draw takes one input (R144). -/
theorem drawNoise_state_eq (s : State) : (drawNoise s).state = s.afterDraws 1 := by
  unfold drawNoise State.afterDraws
  split <;> rename_i h <;> simp [h]

/-- The raw sample takes one input where the waveform is Noise. -/
theorem rawSample_state_eq (o : Oscillator) (s : State) :
    (rawSample o s).state = s.afterDraws (if o.wave = .noise then 1 else 0) := by
  unfold rawSample
  rcases hw : o.wave <;> simp [romWT, drawNoise_state_eq]

/-- What `osc_calc` does with an oscillator of the bank (R150). -/
theorem oscCalc_eq {i : Nat} {s : State} {o : Oscillator} (h : s.osc[i]? = some o) (hb : o.bypass = false) :
    oscCalc i s =
      ⟨o.shaped s (rawSample o s).value,
        ((s.afterDraws (if o.wave = .noise then 1 else 0)).setOsc i (o.afterCalc s)).setStatusIf
          (!fIsFinite (phaseSum o s.bend s.sr)) statusNONFINITE⟩ := by
  simp [oscCalc, h, hb, rawSample_state_eq]

/-- What `osc_calc` does with a bypassed oscillator: nothing (R38). -/
theorem oscCalc_bypass {i : Nat} {s : State} {o : Oscillator} (h : s.osc[i]? = some o) (hb : o.bypass = true) :
    oscCalc i s = ⟨fpZero, s⟩ := by
  simp [oscCalc, h, hb]

/-! ### The calculations in order -/

/-- What the calculations of the oscillators of D leave of a state, whatever its routes are. -/
structure Progress (s : State) (D : List Nat) (u : State) : Prop where
  frame : u = { s.afterDraws (s.drawsOf D) with osc := u.osc, status := u.status }
  size : u.osc.length = s.osc.length
  osc : ∀ (k : Nat) (o : Oscillator), s.osc[k]? = some o → ∃ o', u.osc[k]? = some o' ∧ o'.fmin = o.fmin ∧
    o' = { o with
      phase := o'.phase, slots := o'.slots
      amp := if k ∈ D ∧ o.bypass = false ∧ o.pmode = .midi then ampAfterCalc s.tick s.sr o.amp else o.amp } ∧
    (k ∉ D ∨ o.bypass = true → o'.phase = o.phase)
  status : u.status = s.status ∨ u.status = s.status ||| 0x04

/-- Before the first calculation. -/
theorem Progress.refl (s : State) : Progress s [] s :=
  ⟨by simp [State.drawsOf], rfl, fun k o h => ⟨o, h, rfl, by simp, fun _ => rfl⟩, .inl rfl⟩

/-- The registers that no calculation writes, and the noise inputs. -/
theorem Progress.fields {s u : State} {D : List Nat} (p : Progress s D u) :
    u.params = s.params ∧ u.sr = s.sr ∧ u.tick = s.tick ∧ u.bend = s.bend ∧ u.mmode = s.mmode ∧ u.master = s.master ∧
      u.noiseIn = s.noiseIn.drop (s.drawsOf D) ∧ u.noiseCount = s.noiseCount + (s.drawsOf D - s.noiseIn.length) := by
  have h := p.frame
  exact ⟨by rw [h]; rfl, by rw [h]; rfl, by rw [h]; rfl, by rw [h]; rfl, by rw [h]; rfl, by rw [h]; rfl, by rw [h]; rfl,
    by rw [h]; rfl⟩

/-- NONFINITE is idempotent. -/
theorem or_nonfinite_twice (a : BitVec 8) : a ||| 4#8 ||| 4#8 = a ||| 4#8 := by rw [BitVec.or_assoc]; rfl

/-- Delivering a sample writes a slot, which `Progress` leaves open. -/
theorem Progress.deliver {s u : State} {D : List Nat} (p : Progress s D u) (i j : Nat) (v : F64) :
    Progress s D (deliver u i j v) := by
  unfold Machine.deliver
  split
  · rename_i oj hj
    refine ⟨?_, by simpa using p.size, ?_, p.status⟩
    · rw [p.frame]; rfl
    · intro k o ho
      obtain ⟨o', h1, h2, h3, h4⟩ := p.osc k o ho
      have := setOsc_osc_map hj (fun o => { o with slots := slotWrite i v o.slots }) k
      rw [this, h1]
      by_cases hk : j = k
      · refine ⟨{ o' with slots := slotWrite i v o'.slots }, by simp [hk], ?_, ?_, h4⟩
        · rw [← h2]; simp [Oscillator.fmin]
        · rw [h3]
      · exact ⟨o', by simp [hk], h2, h3, h4⟩
  · exact p

/-- One more oscillator takes one more draw, or none. -/
theorem drawsOf_snoc (s : State) (D : List Nat) {i : Nat} {o : Oscillator} (h : s.osc[i]? = some o) :
    s.drawsOf (D ++ [i]) = s.drawsOf D + if o.takesDraw then 1 else 0 := by
  simp [State.drawsOf, h]

/-- One more calculation, and its sample: that of the registers the tick began with, after the draws of D. -/
theorem Progress.calc {s u : State} {D : List Nat} (p : Progress s D u) {i : Nat} {o : Oscillator}
    (h : s.osc[i]? = some o) (hi : i ∉ D) :
    Progress s (D ++ [i]) (oscCalc i u).state ∧
      (oscCalc i u).value = (oscCalc i (s.afterDraws (s.drawsOf D))).value := by
  obtain ⟨o1, g1, g2, g3, g4⟩ := p.osc i o h
  have gp := g4 (.inl hi)
  simp only [hi, false_and, if_false] at g3
  rw [gp] at g3
  have hb1 : o1.bypass = o.bypass := by rw [g3]
  obtain ⟨f1, f2, f3, f4, f5, f6, f7, f8⟩ := p.fields
  rcases hb : o.bypass
  · have hw1 : o1.wave = o.wave := by rw [g3]
    have hm1 : o1.pmode = o.pmode := by rw [g3]
    have ha1 : o1.amp = o.amp := by rw [g3]
    have hs : (s.afterDraws (s.drawsOf D)).osc[i]? = some o := h
    rw [oscCalc_eq g1 (hb1.trans hb), oscCalc_eq hs hb]
    constructor
    · have ht : o.takesDraw = decide (o.wave = .noise) := by simp [Oscillator.takesDraw, hb]
      refine ⟨?_, by simp [p.size], ?_, ?_⟩
      · obtain ⟨osc', status', rfl⟩ : ∃ a b, u = { s.afterDraws (s.drawsOf D) with osc := a, status := b } :=
          ⟨_, _, p.frame⟩
        rw [drawsOf_snoc s D h, ht, ← State.afterDraws_add, hw1]
        simp only [decide_eq_true_eq]
        rfl
      · intro k x hx
        obtain ⟨x1, y1, y2, y3, y4⟩ := p.osc k x hx
        have := setOsc_osc_map (s := u.afterDraws (if o1.wave = .noise then 1 else 0)) (i := i) g1
          (fun _ => o1.afterCalc u) k
        simp only [State.setStatusIf_osc]
        rw [this, State.afterDraws_osc, y1]
        by_cases hk : i = k
        · subst hk
          rw [h] at hx; cases hx
          refine ⟨o1.afterCalc u, by simp, by rw [← g2]; rfl, ?_, ?_⟩
          · have hl : i ∈ D ++ [i] := by simp
            simp only [Oscillator.afterCalc, hl, hb, true_and, hm1, ha1, f2, f3]
            rw [g3]
            simp [hb]
          · intro hc; simp [hb] at hc
        · refine ⟨x1, by simp [hk], y2, ?_, ?_⟩
          · have : (k ∈ D ++ [i]) ↔ k ∈ D := by simp [Ne.symm hk]
            simpa only [this] using y3
          · intro hc; exact y4 (hc.imp_left fun hc hm => hc (by simp [hm]))
      · have hst : (u.afterDraws (if o1.wave = .noise then 1 else 0)).status = u.status := rfl
        simp only [State.setStatusIf_status, State.setOsc_status, hst]
        rcases p.status with a | a <;> rw [a] <;> generalize (!fIsFinite _) = b <;> cases b <;>
          simp [statusNONFINITE, or_nonfinite_twice]
    · have e : (rawSample o1 u).value = (rawSample o (s.afterDraws (s.drawsOf D))).value := by
        have hph : o1.phase = o.phase := gp
        unfold rawSample
        rw [hw1, hph]
        split
        · unfold drawNoise
          rw [f7, f8]
          simp only [State.afterDraws]
          split <;> rfl
        · rfl
      simp only [Oscillator.shaped, hm1, ha1, f2, f3, e]
      rfl
  · rw [oscCalc_bypass g1 (hb1.trans hb), oscCalc_bypass (s := s.afterDraws (s.drawsOf D)) h hb]
    refine ⟨⟨?_, p.size, ?_, p.status⟩, rfl⟩
    · rw [drawsOf_snoc s D h]
      simpa [Oscillator.takesDraw, hb] using p.frame
    · intro k x hx
      obtain ⟨x1, y1, y2, y3, y4⟩ := p.osc k x hx
      refine ⟨x1, y1, y2, ?_, ?_⟩
      · by_cases hk : k = i
        · subst hk; rw [h] at hx; cases hx
          simpa [hb] using y3
        · simpa [hk] using y3
      · intro hc; exact y4 (hc.imp_left fun hc hm => hc (by simp [hm]))


/-- The slots once the oscillators of D have been calculated and delivered. -/
def State.tickSlots (s : State) (D : List Nat) (l : List (Nat × F64)) : List (Nat × F64) :=
  l.map fun e => (e.1, if e.1 ∈ D then s.tickSample e.1 else e.2)

/-- Whether a phase sum of the oscillators of D is not finite. -/
def State.phaseOverflow (s : State) (D : List Nat) : Bool :=
  D.any fun k => s.osc[k]?.any fun o => !o.bypass && !fIsFinite (s.tickPhaseSum o)

/-- What the calculations of D leave of a state with legal routes, exactly. -/
structure Exact (s : State) (D : List Nat) (u : State) : Prop extends Progress s D u where
  slots : ∀ (k : Nat) (o o' : Oscillator), s.osc[k]? = some o → u.osc[k]? = some o' → o'.slots = s.tickSlots D o.slots
  phase : ∀ (k : Nat) (o o' : Oscillator), s.osc[k]? = some o → u.osc[k]? = some o' → k ∈ D → o.bypass = false →
    o'.phase = wrapPhase (s.tickPhaseSum o)
  statusEq : u.status = s.status ||| (if s.phaseOverflow D then 0x04 else 0)

/-- Before the first calculation. -/
theorem Exact.refl (s : State) : Exact s [] s :=
  ⟨Progress.refl s, fun k o o' h h' => by rw [h] at h'; cases h'; simp [State.tickSlots], fun _ _ _ _ _ h => by simp at h,
    by simp [State.phaseOverflow]⟩

/-- Once its FM inputs are calculated, the phase sum of an oscillator is the tick's. -/
theorem Exact.phaseSum_eq {s u : State} {D : List Nat} (x : Exact s D u) {i : Nat} {o o1 : Oscillator}
    (h : s.osc[i]? = some o) (g : u.osc[i]? = some o1) (hi : i ∉ D) (hf : ∀ k ∈ o.fmin, k ∈ D) :
    phaseSum o1 u.bend u.sr = s.tickPhaseSum o := by
  obtain ⟨o1', g1, g2, g3, g4⟩ := x.osc i o h
  rw [g] at g1; cases g1
  have gp := g4 (.inl hi)
  have hsl := x.slots i o o1 h g
  obtain ⟨f1, f2, f3, f4, -⟩ := x.toProgress.fields
  have e : o1.slots = o.fmin.map fun k => (k, s.tickSample k) := by
    rw [hsl, State.tickSlots, Oscillator.fmin, List.map_map]
    refine List.map_congr_left fun e he => ?_
    simp [hf e.1 (List.mem_map_of_mem he)]
  have w : o1.wave = o.wave := by rw [g3]
  have a1 : o1.freq = o.freq := by rw [g3]
  have a2 : o1.detune = o.detune := by rw [g3]
  have a3 : o1.pmode = o.pmode := by rw [g3]
  have a4 : o1.fmrange = o.fmrange := by rw [g3]
  simp only [phaseSum, phaseIncrement, instantFreq, effectiveFreq, State.tickPhaseSum, w, a1, a2, a3, a4, gp, f2, f4, e,
    List.foldl_map]

/-- A calculation, before its sample is delivered. -/
theorem Exact.calc {s u : State} {D : List Nat} (x : Exact s D u) {i : Nat} {o : Oscillator}
    (h : s.osc[i]? = some o) (hi : i ∉ D) (hf : ∀ k ∈ o.fmin, k ∈ D) (hd : s.drawsBefore i = s.drawsOf D) :
    Progress s (D ++ [i]) (oscCalc i u).state ∧ (oscCalc i u).value = s.tickSample i ∧
    (∀ (k : Nat) (o o' : Oscillator), s.osc[k]? = some o → (oscCalc i u).state.osc[k]? = some o' →
      o'.slots = s.tickSlots D o.slots ∧
      (k ∈ D ++ [i] → o.bypass = false → o'.phase = wrapPhase (s.tickPhaseSum o))) ∧
    (oscCalc i u).state.status = s.status ||| (if s.phaseOverflow (D ++ [i]) then 0x04 else 0) := by
  obtain ⟨p, v⟩ := x.toProgress.calc h hi
  obtain ⟨o1, g1, g2, g3, g4⟩ := x.osc i o h
  have hps := x.phaseSum_eq h g1 hi hf
  have hb1 : o1.bypass = o.bypass := by rw [g3]
  refine ⟨p, by rw [v, State.tickSample, hd], ?_, ?_⟩
  · intro k y y' hy hy'
    rcases hb : o.bypass
    · rw [oscCalc_eq g1 (hb1.trans hb)] at hy'
      have := setOsc_osc_map (s := u.afterDraws (if o1.wave = .noise then 1 else 0)) (i := i) g1
          (fun _ => o1.afterCalc u) k
      simp only [State.setStatusIf_osc] at hy'
      rw [this, State.afterDraws_osc] at hy'
      by_cases hk : i = k
      · subst hk
        rw [h] at hy; cases hy
        simp only [g1, Option.map_some, if_true, Option.some.injEq] at hy'
        subst hy'
        exact ⟨x.slots i o o1 h g1, fun _ _ => by simp only [Oscillator.afterCalc, hps]⟩
      · simp only [hk, if_false, Option.map_id'] at hy'
        exact ⟨x.slots k y y' hy hy', fun hm hb => x.phase k y y' hy hy' (by simpa [Ne.symm hk] using hm) hb⟩
    · rw [oscCalc_bypass g1 (hb1.trans hb)] at hy'
      refine ⟨x.slots k y y' hy hy', fun hm hb' => x.phase k y y' hy hy' ?_ hb'⟩
      rcases List.mem_append.mp hm with hm | hm
      · exact hm
      · have : k = i := by simpa using hm
        subst this; rw [h] at hy; cases hy; rw [hb] at hb'; cases hb'
  · have ho : s.phaseOverflow (D ++ [i]) = (s.phaseOverflow D || (!o.bypass && !fIsFinite (s.tickPhaseSum o))) := by
      simp [State.phaseOverflow, h]
    rw [ho]
    rcases hb : o.bypass
    · rw [oscCalc_eq g1 (hb1.trans hb), hps]
      simp only [State.setStatusIf_status, State.setOsc_status]
      show u.status ||| _ = _
      rw [x.statusEq]
      cases s.phaseOverflow D <;> cases fIsFinite (s.tickPhaseSum o) <;> simp [statusNONFINITE, or_nonfinite_twice]
    · rw [oscCalc_bypass g1 (hb1.trans hb)]
      simpa using x.statusEq

/-- An oscillator that does not feed these slots does not show in them. -/
theorem tickSlots_snoc_of_notMem (s : State) (D : List Nat) {i : Nat} {l : List (Nat × F64)} (h : i ∉ l.map Prod.fst) :
    s.tickSlots (D ++ [i]) l = s.tickSlots D l := by
  refine List.map_congr_left fun e he => ?_
  have : e.1 ≠ i := fun hh => h (hh ▸ List.mem_map_of_mem he)
  simp [this]

/-- Writing the slot of one more modulator. -/
theorem tickSlots_snoc (s : State) (D : List Nat) (i : Nat) (l : List (Nat × F64)) :
    slotWrite i (s.tickSample i) (s.tickSlots D l) = s.tickSlots (D ++ [i]) l := by
  rw [slotWrite, State.tickSlots, List.map_map]
  refine List.map_congr_left fun e _ => ?_
  by_cases h : e.1 = i <;> simp [h]

/-- One more modulator, calculated and delivered (R204). -/
theorem Exact.modulator {s u : State} {D : List Nat} (x : Exact s D u) (r : s.RoutingInv) {i j : Nat} {o : Oscillator}
    (h : s.osc[i]? = some o) (ho : o.out = .osc j) (hi : i ∉ D) (hd : s.drawsBefore i = s.drawsOf D) :
    Exact s (D ++ [i]) (tickModulator u i) := by
  obtain ⟨hji, hfm, oj, hj, -⟩ := r.oneLevel i j o h ho
  have hnil : ∀ k ∈ o.fmin, k ∈ D := by rw [hfm]; simp
  obtain ⟨p, v, q, st⟩ := x.calc h hi hnil hd
  obtain ⟨o1, g1, -, g3, -⟩ := x.osc i o h
  have hout : o1.out = .osc j := by rw [g3]; exact ho
  have e : tickModulator u i = deliver (oscCalc i u).state i j (s.tickSample i) := by
    simp only [tickModulator, g1, hout, v]
  rw [e]
  -- who feeds oscillator k
  have hfed : ∀ (k : Nat) (y : Oscillator), s.osc[k]? = some y → k ≠ j → i ∉ y.slots.map Prod.fst := by
    intro k y hy hk hm
    by_cases hik : i = k
    · subst hik; rw [h] at hy; cases hy
      rw [Oscillator.fmin] at hfm; rw [hfm] at hm; simp at hm
    · have := (r.routed i k o y h hy hik).mp hm
      rw [ho] at this; cases this; exact hk rfl
  have key : ∀ (k : Nat) (y y' : Oscillator), s.osc[k]? = some y →
      (deliver (oscCalc i u).state i j (s.tickSample i)).osc[k]? = some y' →
      y'.slots = s.tickSlots (D ++ [i]) y.slots ∧
      (k ∈ D ++ [i] → y.bypass = false → y'.phase = wrapPhase (s.tickPhaseSum y)) := by
    intro k y y' hy hy'
    obtain ⟨c1, d1, -⟩ := p.osc j oj hj
    simp only [deliver, d1] at hy'
    have := setOsc_osc_map d1 (fun o => { o with slots := slotWrite i (s.tickSample i) o.slots }) k
    rw [this] at hy'
    obtain ⟨y1, hy1, -⟩ := p.osc k y hy
    obtain ⟨q1, q2⟩ := q k y y1 hy hy1
    rw [hy1] at hy'
    simp only [Option.map_some, Option.some.injEq] at hy'
    by_cases hk : j = k
    · rw [if_pos hk] at hy'; subst hy'
      exact ⟨by rw [← tickSlots_snoc, ← q1], q2⟩
    · rw [if_neg hk] at hy'; subst hy'
      exact ⟨by rw [tickSlots_snoc_of_notMem s D (hfed k y hy (Ne.symm hk)), q1], q2⟩
  refine ⟨p.deliver i j _, fun k o o' h h' => (key k o o' h h').1, fun k o o' h h' => (key k o o' h h').2, ?_⟩
  rw [← st]
  unfold deliver
  split <;> rfl

/-- One more carrier, calculated (R203). -/
theorem Exact.carrier {s u : State} {D : List Nat} (x : Exact s D u) (r : s.RoutingInv) {i : Nat} {o : Oscillator}
    (h : s.osc[i]? = some o) (ho : o.out = .master) (hi : i ∉ D) (hf : ∀ k ∈ o.fmin, k ∈ D)
    (hd : s.drawsBefore i = s.drawsOf D) :
    Exact s (D ++ [i]) (oscCalc i u).state := by
  obtain ⟨p, v, q, st⟩ := x.calc h hi hf hd
  refine ⟨p, fun k y y' hy hy' => ?_, fun k y y' hy hy' => (q k y y' hy hy').2, st⟩
  rw [(q k y y' hy hy').1, tickSlots_snoc_of_notMem]
  intro hm
  by_cases hik : i = k
  · subst hik; exact ((r.slotsLegal i y hy).2 i hm).2 rfl
  · have := (r.routed i k o y h hy hik).mp hm
    rw [ho] at this; cases this


/-! ### The order of evaluation -/

/-- Every oscillator is calculated at most once. -/
theorem nodup_evaluationOrder (s : State) : s.evaluationOrder.Nodup := by
  have h : (List.range s.nOsc).Nodup := List.nodup_range
  refine List.Nodup.append (h.filter _) (h.filter _) ?_
  intro i h1 h2
  simp only [List.mem_filter] at h1
  simp only [State.carrierIndices, List.mem_filter] at h2
  simp [h2.2] at h1

/-- The draws before an oscillator are those of the oscillators before it. -/
theorem drawsBefore_of_split {s : State} {D rest : List Nat} {i : Nat} (h : s.evaluationOrder = D ++ i :: rest) :
    i ∉ D ∧ s.drawsBefore i = s.drawsOf D := by
  have hn := nodup_evaluationOrder s
  rw [h] at hn
  have hi : i ∉ D := fun hm => (List.disjoint_of_nodup_append hn) hm (by simp)
  refine ⟨hi, ?_⟩
  rw [State.drawsBefore, h, List.takeWhile_append_of_pos]
  · simp
  · intro a ha; simpa using fun hh : a = i => hi (hh ▸ ha)

/-- A carrier is routed to the Master. -/
theorem isCarrier_iff {s : State} {i : Nat} {o : Oscillator} (h : s.osc[i]? = some o) :
    s.isCarrier i = true ↔ o.out = .master := by
  simp [State.isCarrier, h]

/-- The induction over phase 1: what holds before it, and is kept by each modulator in turn, holds after it. -/
theorem modulators_induction {s : State} {P : List Nat → State → Prop} (hp : ∀ D u, P D u → Progress s D u)
    (h0 : P [] s)
    (hstep : ∀ D u i o j, P D u → s.osc[i]? = some o → o.out = .osc j → i ∉ D → s.drawsBefore i = s.drawsOf D →
      P (D ++ [i]) (tickModulator u i)) :
    P ((List.range s.nOsc).filter fun i => !s.isCarrier i) (modulators s) := by
  have key : ∀ (l D : List Nat) (u : State), P D u →
      s.evaluationOrder = D ++ (l.filter fun i => !s.isCarrier i) ++ s.carrierIndices → (∀ i ∈ l, i < s.nOsc) →
      P (D ++ l.filter fun i => !s.isCarrier i) (l.foldl tickModulator u) := by
    intro l
    induction l with
    | nil => intro D u h _ _; simpa using h
    | cons i l ih =>
      intro D u h ho hl
      obtain ⟨o, hi⟩ := s.get_of_lt (hl i (by simp))
      obtain ⟨o1, g1, -, g3, -⟩ := (hp D u h).osc i o hi
      have hout : o1.out = o.out := by rw [g3]
      have hl' : ∀ k ∈ l, k < s.nOsc := fun k hk => hl k (by simp [hk])
      rcases hc : s.isCarrier i
      · rcases ho' : o.out with _ | j
        · rw [(isCarrier_iff hi).mpr ho'] at hc; cases hc
        · simp only [List.filter_cons, hc, Bool.not_false, if_true] at ho ⊢
          obtain ⟨hn, hd⟩ := drawsBefore_of_split (D := D) (i := i) (by simpa using ho)
          have := ih (D ++ [i]) _ (hstep D u i o j h hi ho' hn hd) (by simpa using ho) hl'
          simpa using this
      · have hm := (isCarrier_iff hi).mp hc
        have e : tickModulator u i = u := by simp [tickModulator, g1, hout, hm]
        simp only [List.filter_cons, hc, Bool.not_true, List.foldl_cons, e] at ho ⊢
        exact ih D u h (by simpa using ho) hl'
  have := key (List.range s.nOsc) [] s h0 (by simp [State.evaluationOrder]) (by simp)
  simpa [modulators] using this

/-- The induction over phase 2, with the sum it computes. -/
theorem carriers_induction {s u : State} {P : List Nat → State → Prop} (hp : ∀ D u, P D u → Progress s D u)
    (h0 : P ((List.range s.nOsc).filter fun i => !s.isCarrier i) u)
    (hstep : ∀ D u i o, P D u → s.osc[i]? = some o → o.out = .master → i ∉ D → s.drawsBefore i = s.drawsOf D →
      (∀ k, k < s.nOsc → s.isCarrier k = false → k ∈ D) → P (D ++ [i]) (oscCalc i u).state) :
    P s.evaluationOrder (carriers u).state ∧
      (carriers u).value = s.carrierIndices.foldl (fun acc i => fAdd acc (s.tickSample i)) fpZero := by
  have key : ∀ (l C : List Nat) (c : Computed),
      P (((List.range s.nOsc).filter fun i => !s.isCarrier i) ++ C) c.state →
      c.value = C.foldl (fun acc i => fAdd acc (s.tickSample i)) fpZero →
      s.carrierIndices = C ++ l.filter s.isCarrier → (∀ i ∈ l, i < s.nOsc) →
      P (((List.range s.nOsc).filter fun i => !s.isCarrier i) ++ (C ++ l.filter s.isCarrier)) (l.foldl tickCarrier c).state ∧
      (l.foldl tickCarrier c).value =
        (C ++ l.filter s.isCarrier).foldl (fun acc i => fAdd acc (s.tickSample i)) fpZero := by
    intro l
    induction l with
    | nil => intro C c h hv _ _; simpa using ⟨h, hv⟩
    | cons i l ih =>
      intro C c h hv ho hl
      obtain ⟨o, hi⟩ := s.get_of_lt (hl i (by simp))
      obtain ⟨o1, g1, -, g3, -⟩ := (hp _ _ h).osc i o hi
      have hout : o1.out = o.out := by rw [g3]
      have hl' : ∀ k ∈ l, k < s.nOsc := fun k hk => hl k (by simp [hk])
      rcases hc : s.isCarrier i
      · rcases ho' : o.out with _ | j
        · rw [(isCarrier_iff hi).mpr ho'] at hc; cases hc
        · have e : tickCarrier c i = c := by simp [tickCarrier, g1, hout, ho']
          simp only [List.filter_cons, hc, List.foldl_cons, e] at ho ⊢
          exact ih C c h hv (by simpa using ho) hl'
      · have hm := (isCarrier_iff hi).mp hc
        simp only [List.filter_cons, hc, if_true] at ho ⊢
        have hord : s.evaluationOrder = (((List.range s.nOsc).filter fun i => !s.isCarrier i) ++ C) ++ i :: l.filter s.isCarrier := by
          simp [State.evaluationOrder, ho]
        obtain ⟨hn, hd⟩ := drawsBefore_of_split hord
        have e : tickCarrier c i = ⟨fAdd c.value (s.tickSample i), (oscCalc i c.state).state⟩ := by
          simp only [tickCarrier, g1, hout, hm, ((hp _ _ h).calc hi hn).2, State.tickSample, hd]
        have hmods : ∀ k, k < s.nOsc → s.isCarrier k = false →
            k ∈ ((List.range s.nOsc).filter fun i => !s.isCarrier i) ++ C := by
          intro k hk hck; simp [hk, hck]
        have := ih (C ++ [i]) (tickCarrier c i)
          (by rw [e, ← List.append_assoc]; exact hstep _ _ i o h hi hm hn hd hmods)
          (by rw [e, hv]; simp) (by simpa using ho) hl'
        simpa using this
  have := key (List.range s.nOsc) [] ⟨fpZero, u⟩ (by simpa using h0) rfl (by simp [State.carrierIndices]) (by simp)
  obtain ⟨a, b⟩ := this
  exact ⟨by simpa [State.evaluationOrder, State.carrierIndices, carriers, (hp _ _ h0).size, State.nOsc] using a,
    by simpa [State.carrierIndices, carriers, (hp _ _ h0).size, State.nOsc] using b⟩

/-! ### Phase 1 and phase 2 -/

/-- What phase 1 leaves, whatever the routes are. -/
theorem modulators_progress (s : State) :
    Progress s ((List.range s.nOsc).filter fun i => !s.isCarrier i) (modulators s) := by
  refine modulators_induction (fun _ _ h => h) (Progress.refl s) ?_
  intro D u i o j p hi ho hn hd
  obtain ⟨o1, g1, -, g3, -⟩ := p.osc i o hi
  have hout : o1.out = .osc j := by rw [g3]; exact ho
  have e : tickModulator u i = deliver (oscCalc i u).state i j (oscCalc i u).value := by
    simp only [tickModulator, g1, hout]
  rw [e]
  exact (p.calc hi hn).1.deliver i j _

/-- What phase 1 leaves, where the routes are legal. -/
theorem modulators_exact {s : State} (r : s.RoutingInv) :
    Exact s ((List.range s.nOsc).filter fun i => !s.isCarrier i) (modulators s) :=
  modulators_induction (fun _ _ h => h.toProgress) (Exact.refl s) fun _ _ _ _ _ x hi ho hn hd => x.modulator r hi ho hn hd

/-- What both phases leave, whatever the routes are, and the sum of the carriers. -/
theorem carriers_progress (s : State) :
    Progress s s.evaluationOrder (carriers (modulators s)).state ∧
      (carriers (modulators s)).value = s.carrierIndices.foldl (fun acc i => fAdd acc (s.tickSample i)) fpZero :=
  carriers_induction (fun _ _ h => h) (modulators_progress s) fun _ _ _ _ p hi _ hn _ _ => (p.calc hi hn).1

/-- What both phases leave, where the routes are legal. -/
theorem carriers_exact {s : State} (r : s.RoutingInv) : Exact s s.evaluationOrder (carriers (modulators s)).state := by
  refine (carriers_induction (fun _ _ h => h.toProgress) (modulators_exact r) ?_).1
  intro D u i o x hi ho hn hd hm
  refine x.carrier r hi ho hn ?_ hd
  intro k hk
  obtain ⟨hlt, hne⟩ := (r.slotsLegal i o hi).2 k hk
  obtain ⟨ok, hok⟩ := s.get_of_lt hlt
  have hout := (r.routed k i ok o hok hi hne).mp hk
  refine hm k hlt ?_
  simp [State.isCarrier, hok, hout]


/-! ### The end of the tick -/

/-- A tick with nothing to drain computes its sample. -/
theorem tick_of_drained {s : State} (h : s.halted = false) (hf : s.fifo = []) : tick s = .next (computeSample s) := by
  simp [tick, h, drain, hf, drainUpTo, afterDrain]

/-- What the mixer and the end of the tick do with a sum (R200, R205, R206). -/
theorem emit_mixer (c : Computed) :
    ∃ m : F64, (m = match c.state.mmode with
        | .midi => ampOutput c.state.tick c.state.sr c.state.master c.value
        | .const => fMul c.value c.state.master.gain) ∧
      emit (mixer c) = { c.state with
        master := if c.state.mmode = .midi then ampAfterCalc c.state.tick c.state.sr c.state.master else c.state.master
        status := c.state.status ||| (if fIsFinite (fMul m c.state.params.headroom) then 0 else 0x04)
        outSample := finalSample (fMul m c.state.params.headroom)
        tick := c.state.tick + 1, reply := .sample (finalSample (fMul m c.state.params.headroom)) } := by
  refine ⟨_, rfl, ?_⟩
  unfold mixer emit
  rcases h : c.state.mmode <;> simp only [State.setStatusIf, State.setStatus, statusNONFINITE, State.setMaster, h] <;>
    generalize fIsFinite _ = b <;> cases b <;> simp

/-- The sample of a tick is finite (R205). -/
theorem fIsFinite_finalSample (y : F64) : fIsFinite (finalSample y) = true := by
  unfold finalSample; split <;> [assumption; decide]

/-- Every oscillator of the bank is calculated. -/
theorem mem_evaluationOrder {s : State} {k : Nat} (h : k < s.nOsc) : k ∈ s.evaluationOrder := by
  rcases hc : s.isCarrier k <;> simp [State.evaluationOrder, State.carrierIndices, h, hc]

/-- Nothing else is. -/
theorem lt_of_mem_evaluationOrder {s : State} {k : Nat} (h : k ∈ s.evaluationOrder) : k < s.nOsc := by
  simp [State.evaluationOrder, State.carrierIndices] at h; omega

/-- A tick takes one draw for each Noise oscillator that is not bypassed. -/
theorem drawsOf_evaluationOrder (s : State) : s.drawsOf s.evaluationOrder = s.osc.countP Oscillator.takesDraw := by
  have h1 : s.drawsOf s.evaluationOrder = s.drawsOf (List.range s.nOsc) := by
    refine List.Perm.countP_eq _ ?_
    refine (List.perm_append_comm).trans ?_
    exact List.filter_append_perm _ _
  rw [h1]
  unfold State.drawsOf
  have h2 : s.osc = (List.range s.osc.length).map fun i => (s.osc[i]?).getD (Oscillator.reset false) := by
    apply List.ext_getElem?
    intro i
    by_cases hi : i < s.osc.length <;> simp [hi]
  conv_rhs => rw [h2, List.countP_map]
  refine List.countP_congr fun i hi => ?_
  have : i < s.osc.length := by simpa [State.nOsc] using hi
  simp [this]

/-- A tick meets a non-finite phase sum where an oscillator has one. -/
theorem phaseOverflow_evaluationOrder (s : State) :
    s.phaseOverflow s.evaluationOrder = true ↔ ∃ o ∈ s.osc, o.bypass = false ∧ fIsFinite (s.tickPhaseSum o) = false := by
  simp only [State.phaseOverflow, List.any_eq_true]
  constructor
  · rintro ⟨k, hk, h⟩
    obtain ⟨o, ho⟩ := s.get_of_lt (lt_of_mem_evaluationOrder hk)
    exact ⟨o, List.mem_of_getElem? ho, by simpa [ho] using h⟩
  · rintro ⟨o, ho, h⟩
    obtain ⟨k, hk⟩ := List.mem_iff_getElem?.mp ho
    exact ⟨k, mem_evaluationOrder (s.lt_of_get hk), by simpa [hk] using h⟩

end Sys2Proof.Machine
end

