-- ==== Sys2Proof/Machine/Assembler.lean ====
section
/-! DEFINITION. The assembler syntax of 30_encoding.md R121 and R122: one line of text to the host's steps it stands for.
A command line is one push of its word; `TICK n` is n tick strobes; an empty or comment line is no step. What R121 leaves open of the lexical form: log
entry 15. -/

namespace Sys2Proof.Machine

/-- A line's characters up to a comment (R121). -/
def uncommented (l : List Char) : List Char := l.takeWhile (· != ';')

/-- The pieces between separators. -/
def splitChars (sep : Char → Bool) : List Char → List (List Char)
  | [] => [[]]
  | c :: cs =>
    match splitChars sep cs with
    | [] => [[c]]
    | w :: ws => if sep c then [] :: w :: ws else (c :: w) :: ws

/-- Blank space. -/
def isBlank (c : Char) : Bool := c == ' ' || c == '\t' || c == '\r'

/-- The words between blanks. -/
def wordsOf (l : List Char) : List (List Char) := (splitChars isBlank l).filter (· != [])

/-- A decimal digit. -/
def digitOf (c : Char) : Option Nat := if '0' ≤ c ∧ c ≤ '9' then some (c.toNat - 48) else none

/-- The number that decimal digits make, put after `acc`. -/
def digitsFrom (acc : Nat) : List Char → Option Nat
  | [] => some acc
  | c :: cs => (digitOf c).bind fun d => digitsFrom (10 * acc + d) cs

/-- A decimal integer: at least one digit. -/
def parseNat (l : List Char) : Option Nat := if l = [] then none else digitsFrom 0 l

/-- A byte operand: an oscillator index, a pitch, a velocity or a bend byte. -/
def parseByte (l : List Char) : Option (BitVec 8) :=
  (parseNat l).bind fun n => if n < 256 then some (BitVec.ofNat 8 n) else none

/-- ±digits × 10^exp10 as a binary64, rounded to nearest, ties to even (R121). -/
def decimalValue (neg : Bool) (digits : Nat) (exp10 : Int) : F64 :=
  fRound neg (digits * 10 ^ exp10.toNat * fUnit) (10 ^ (-exp10).toNat)

/-- A sign in front of a literal. -/
def splitSign : List Char → Bool × List Char
  | '-' :: cs => (true, cs)
  | '+' :: cs => (false, cs)
  | cs => (false, cs)

/-- An exponent part. -/
def parseExponent : List Char → Option Int
  | [] => some 0
  | _ :: cs => (parseNat (splitSign cs).2).map fun n => if (splitSign cs).1 then -(n : Int) else (n : Int)

/-- The mark of an exponent part. -/
def isExpMark (c : Char) : Bool := c == 'e' || c == 'E'

/-- An unsigned decimal floating-point literal (R121). -/
def parseMagnitude (neg : Bool) (l : List Char) : Option F64 :=
  let mantissa := l.takeWhile fun c => !isExpMark c
  let whole := mantissa.takeWhile (· != '.')
  let fraction := (mantissa.dropWhile (· != '.')).drop 1
  (parseExponent (l.dropWhile fun c => !isExpMark c)).bind fun e =>
    (parseNat (whole ++ fraction)).map fun n => decimalValue neg n (e - fraction.length)

/-- A decimal floating-point literal (R121). -/
def parseValue (l : List Char) : Option F64 := parseMagnitude (splitSign l).1 (splitSign l).2

/-- A named or numbered code: the flag, mode and waveform names of R121. -/
def parseName (names : List (List Char)) (l : List Char) : Option (BitVec 8) :=
  if l ∈ names then some (BitVec.ofNat 8 (names.idxOf l)) else none

def flagNames : List (List Char) := [['0'], ['1']]
def modeNames : List (List Char) := [['C', 'O', 'N', 'S', 'T'], ['M', 'I', 'D', 'I']]
def waveNames : List (List Char) :=
  [['N', 'O', 'I', 'S', 'E'], ['S', 'A', 'W'], ['S', 'I', 'N', 'E'], ['S', 'Q', 'U', 'A', 'R', 'E'],
    ['T', 'R', 'I', 'A', 'N', 'G', 'L', 'E']]

/-- The commands of R121 by mnemonic, each with its operands as words. -/
def parseCommand (mnemonic : String) (ops : List (List (List Char))) : Option Instr :=
  match mnemonic, ops with
  | "BYPASS", [[i], [a]] => (parseByte i).bind fun i => (parseName flagNames a).map (.bypass i)
  | "COARSE", [[i], [v]] => (parseByte i).bind fun i => (parseValue v).map (.coarse i)
  | "FINE", [[i], [v]] => (parseByte i).bind fun i => (parseValue v).map (.fine i)
  | "FMRANGE", [[i], [v]] => (parseByte i).bind fun i => (parseValue v).map (.fmrange i)
  | "FREQ", [[i], [v]] => (parseByte i).bind fun i => (parseValue v).map (.freq i)
  | "GAIN", [[i], [v]] => (parseByte i).bind fun i => (parseValue v).map (.gain i)
  | "PITCHMODE", [[i], [m]] => (parseByte i).bind fun i => (parseName modeNames m).map (.pitchmode i)
  | "OUTPUT", [[i], [t]] =>
    (parseByte i).bind fun i => if t = "MASTER".toList then some (.output i 0 0) else none
  | "OUTPUT", [[i], [t, j]] =>
    (parseByte i).bind fun i => (parseByte j).bind fun j => if t = "OSC".toList then some (.output i 1 j) else none
  | "WAVEFORM", [[i], [w]] => (parseByte i).bind fun i => (parseName waveNames w).map (.waveform i)
  | "ATTACK", [[v]] => (parseValue v).map .attack
  | "DECAY", [[v]] => (parseValue v).map .decay
  | "SUSTAIN", [[v]] => (parseValue v).map .sustain
  | "RELEASE", [[v]] => (parseValue v).map .release
  | "MASTER", [[v]] => (parseValue v).map .master
  | "MIXERMODE", [[m]] => (parseName modeNames m).map .mixermode
  | "NOTEON", [[p], [v]] => (parseByte p).bind fun p => (parseByte v).map (.noteon p)
  | "NOTEOFF", [[p]] => (parseByte p).map .noteoff
  | "PITCHBEND", [[l], [m]] => (parseByte l).bind fun l => (parseByte m).map (.pitchbend l)
  | "RESETMIDI", [] => some .resetmidi
  | "QUIT", [] => some .quit
  | "MUTE", [[i]] => (parseByte i).map fun i => .bypass i 1
  | "UNMUTE", [[i]] => (parseByte i).map fun i => .bypass i 0
  | "ROUTE", [[i], [j]] => (parseByte i).bind fun i => (parseByte j).map fun j => .output i 1 j
  | "UNROUTE", [[i]] => (parseByte i).map fun i => .output i 0 0
  | _, _ => none

/-- A line's operands: the pieces between commas, as words; none where nothing follows the mnemonic. -/
def operandsOf (l : List Char) : List (List (List Char)) :=
  if wordsOf l = [] then [] else (splitChars (· == ',') l).map wordsOf

/-- The host's steps of a line whose first word is its mnemonic. -/
def assembleWords (mnemonic : String) (ops : List (List (List Char))) : Option (List HostStep) :=
  match mnemonic, ops with
  | "TICK", [[n]] => (parseNat n).map fun n => List.replicate n .tick
  | m, ops => (parseCommand m ops).map fun i => [.push (encode i)]

/-- The host's steps that one line of assembler text stands for; none where the line is not of the syntax. -/
def assembleLine (line : String) : Option (List HostStep) :=
  let text := (uncommented line.toList).dropWhile isBlank
  let mnemonic := text.takeWhile fun c => !isBlank c
  if mnemonic = [] then some [] else assembleWords (String.ofList mnemonic) (operandsOf (text.drop mnemonic.length))

/-- The host's steps of a program's lines. -/
def assemble : List String → Option (List HostStep)
  | [] => some []
  | l :: ls => (assembleLine l).bind fun h => (assemble ls).map fun t => h ++ t

end Sys2Proof.Machine
end

