-- ==== Sys2Proof/Tests/Slice0.lean ====
section
/-! SUPPORT. Tests. Every expected result is the spec's own: a worked encoding or vector of 30_encoding.md R123 or
95_test_vectors.md, or a rule's example, named beside it. After them, for every statement with hypotheses, a witness
that meets them. -/

namespace Sys2Proof.Tests

open Sys2Proof.Machine

/-! ### Decoding: one word of every row (95_test_vectors.md V-C1) -/

theorem test_decode_bypass : decode 0x00000000000000000000000000010001 = .ok (.bypass 0 1) := by decide
theorem test_decode_coarse : decode 0x40280000000000000000000000000002 = .ok (.coarse 0 0x4028000000000000) := by decide
theorem test_decode_fine : decode 0x40490000000000000000000000000003 = .ok (.fine 0 0x4049000000000000) := by decide
theorem test_decode_fmrange : decode 0x40400000000000000000000000000004 = .ok (.fmrange 0 0x4040000000000000) := by decide
theorem test_decode_freq : decode 0x407B8000000000000000000000000005 = .ok (.freq 0 0x407B800000000000) := by decide
theorem test_decode_gain : decode 0xC0340000000000000000000000000206 = .ok (.gain 2 0xC034000000000000) := by decide
theorem test_decode_pitchmode : decode 0x00000000000000000000000000010007 = .ok (.pitchmode 0 1) := by decide
theorem test_decode_output : decode 0x00000000000000000000000000010108 = .ok (.output 1 1 0) := by decide
theorem test_decode_waveform : decode 0x00000000000000000000000000030009 = .ok (.waveform 0 3) := by decide
theorem test_decode_attack : decode 0x3F847AE147AE147B000000000000000A = .ok (.attack 0x3F847AE147AE147B) := by decide
theorem test_decode_decay : decode 0x3FF0000000000000000000000000000B = .ok (.decay 0x3FF0000000000000) := by decide
theorem test_decode_sustain : decode 0x3FC999999999999A000000000000000C = .ok (.sustain 0x3FC999999999999A) := by decide
theorem test_decode_release : decode 0x3FE0000000000000000000000000000D = .ok (.release 0x3FE0000000000000) := by decide
theorem test_decode_master : decode 0xC018000000000000000000000000000E = .ok (.master 0xC018000000000000) := by decide
theorem test_decode_mixermode : decode 0x0000000000000000000000000001000F = .ok (.mixermode 1) := by decide
theorem test_decode_noteon : decode 0x00000000000000000000000064450010 = .ok (.noteon 69 100) := by decide
theorem test_decode_noteoff : decode 0x00000000000000000000000000450011 = .ok (.noteoff 69) := by decide
theorem test_decode_pitchbend : decode 0x00000000000000000000000040000012 = .ok (.pitchbend 0 64) := by decide
theorem test_decode_resetmidi : decode 0x00000000000000000000000000000013 = .ok (.resetmidi) := by decide
theorem test_decode_quit : decode 0x00000000000000000000000000000014 = .ok (.quit) := by decide

/-- The bits of a word above and below bit 64 land where R110 puts them: `FREQ` of oscillator 0x12 with every bit of VAL
told apart. -/
theorem test_decode_fields :
    decode 0x0123456789ABCDEF0000000000001205 = .ok (.freq 0x12 0x0123456789ABCDEF) := by decide

/-- V-C2: unused fields are ignored. -/
theorem test_decode_ignores_unused_fields :
    decode 0x3FF00000000000000000000000FF1213 = .ok .resetmidi
    ∧ decode 0x40000000000000000000000000010001 = .ok (.bypass 0 1) := by decide

/-- V-C3: malformed words and reserved opcodes, by name. -/
theorem test_decode_rejects :
    decode 0x00000000000000000000000100000013 = .error .malformed
    ∧ decode 0x00000000000000008000000000000014 = .error .malformed
    ∧ decode 0x00000000000000000000000000000000 = .error (.reserved 0x00)
    ∧ decode 0x00000000000000000000000000000015 = .error (.reserved 0x15)
    ∧ decode 0x000000000000000000000000000000FF = .error (.reserved 0xFF) := by decide

/-- V-C1: the bytes of `GAIN 2, -20.0` in port order, and R88: 15 bytes are no word. -/
theorem test_port_bytes :
    portBytes 0xC0340000000000000000000000000206 = [0x06, 0x02, 0, 0, 0, 0, 0, 0, 0, 0, 0, 0, 0, 0, 0x34, 0xC0]
    ∧ decodeBytes [0x06, 0x02, 0, 0, 0, 0, 0, 0, 0, 0, 0, 0, 0, 0, 0x34, 0xC0] = .ok (.gain 2 0xC034000000000000)
    ∧ decodeBytes [0x14, 0, 0, 0, 0, 0, 0, 0, 0, 0, 0, 0, 0, 0, 0] = .error .notSixteenBytes := by decide

/-- The host's numbering of a row's word, and the word as the first step after reset. -/
theorem test_table_word :
    decodeTableWord 128 0x10201 = some (.bypass 2 1)
    ∧ decodeTableWord 8 0x14 = some .quit
    ∧ decodeTableWord 8 0x15 = none := by decide +kernel

/-! ### The assembler (30_encoding.md R121, R122; V-C1) -/

theorem test_assemble_gain : assembleLine "GAIN 2, -20.0 ; comment" = some [.push 0xC0340000000000000000000000000206] := by decide +kernel
theorem test_assemble_output : assembleLine "OUTPUT 1, OSC 0 ; comment" = some [.push 0x00000000000000000000000000010108] := by decide +kernel
theorem test_assemble_waveform : assembleLine "WAVEFORM 0, SQUARE ; comment" = some [.push 0x00000000000000000000000000030009] := by decide +kernel
theorem test_assemble_attack : assembleLine "ATTACK 0.01 ; comment" = some [.push 0x3F847AE147AE147B000000000000000A] := by decide +kernel
theorem test_assemble_sustain : assembleLine "SUSTAIN 0.2 ; comment" = some [.push 0x3FC999999999999A000000000000000C] := by decide +kernel
theorem test_assemble_mixermode : assembleLine "MIXERMODE MIDI ; comment" = some [.push 0x0000000000000000000000000001000F] := by decide +kernel
theorem test_assemble_noteon : assembleLine "NOTEON 69, 100 ; comment" = some [.push 0x00000000000000000000000064450010] := by decide +kernel

/-- R122, V-C1: the pseudo-instructions, the directive, a comment line, and a line that is not of the syntax. -/
theorem test_assemble_pseudo :
    assembleLine "MUTE 2" = some [.push 0x00000000000000000000000000010201]
    ∧ assembleLine "ROUTE 1, 0" = some [.push 0x00000000000000000000000000010108]
    ∧ assembleLine "UNROUTE 1" = some [.push 0x00000000000000000000000000000108]
    ∧ assembleLine "UNMUTE 3" = some [.push 0x00000000000000000000000000000301]
    ∧ assembleLine "TICK 3" = some [.tick, .tick, .tick]
    ∧ assembleLine "; only a comment" = some []
    ∧ assembleLine "WAVEFORM 0, ORGAN" = none := by decide +kernel

/-! ### Well-formedness: an ill-formed command for each check -/

theorem test_wf_refuses_index : Instr.wellFormed 3 (.freq 3 fp440) = false ∧ Instr.wellFormed 4 (.freq 3 fp440) = true := by
  decide
theorem test_wf_refuses_value :
    Instr.wellFormed 3 (.coarse 0 fpInf) = false ∧ Instr.wellFormed 3 (.master 0x7FF8000000000000) = false := by decide
theorem test_wf_refuses_flag : Instr.wellFormed 3 (.bypass 0 2) = false := by decide
theorem test_wf_refuses_negative_value :
    Instr.wellFormed 3 (.freq 0 fpMinusOne) = false ∧ Instr.wellFormed 3 (.attack fpMinusOne) = false
    ∧ Instr.wellFormed 3 (.decay fpMinusOne) = false ∧ Instr.wellFormed 3 (.release fpMinusOne) = false
    ∧ Instr.wellFormed 3 (.freq 0 0x8000000000000000) = true := by decide
theorem test_wf_refuses_level :
    Instr.wellFormed 3 (.sustain fpMinusOne) = false ∧ Instr.wellFormed 3 (.sustain fpTwo) = false
    ∧ Instr.wellFormed 3 (.sustain fpOne) = true := by decide
theorem test_wf_refuses_mode :
    Instr.wellFormed 3 (.pitchmode 0 2) = false ∧ Instr.wellFormed 3 (.mixermode 2) = false := by decide
theorem test_wf_refuses_waveform : Instr.wellFormed 3 (.waveform 0 5) = false := by decide
theorem test_wf_refuses_pitch :
    Instr.wellFormed 3 (.noteon 128 0) = false ∧ Instr.wellFormed 3 (.noteoff 128) = false
    ∧ Instr.wellFormed 3 (.noteon 127 255) = true := by decide
theorem test_wf_refuses_bend :
    Instr.wellFormed 3 (.pitchbend 128 0) = false ∧ Instr.wellFormed 3 (.pitchbend 0 128) = false := by decide
theorem test_wf_refuses_route :
    Instr.wellFormed 3 (.output 0 2 0) = false ∧ Instr.wellFormed 3 (.output 0 1 0) = false
    ∧ Instr.wellFormed 3 (.output 0 1 3) = false ∧ Instr.wellFormed 3 (.output 0 1 2) = true
    ∧ Instr.wellFormed 3 (.output 0 0 9) = true := by decide

/-! ### Binary64 (00_scope.md R10) -/

/-- 0.1 + 0.2, a tie to even, a subnormal product and an overflow. -/
theorem test_float_round :
    fAdd 0x3FB999999999999A 0x3FC999999999999A = 0x3FD3333333333334
    ∧ fAdd 0x4340000000000000 fpOne = 0x4340000000000000
    ∧ fMul 0x0010000000000000 0x3FE0000000000000 = 0x0008000000000000
    ∧ fMul 0x7FEFFFFFFFFFFFFF fpTwo = fpInf := by decide +kernel

/-- V-W3: the wrap. -/
theorem test_wrap :
    wrapPhase 0x40901A0000000000 = 0x401A000000000000 ∧ wrapPhase 0xC008000000000000 = 0x408FE80000000000 ∧ wrapPhase fp1024 = fpZero
    ∧ wrapPhase 0x81A56E1FC2F8F359 = fpZero ∧ wrapPhase fpInf = fpZero := by decide +kernel

/-- V-W2: the lookup index. -/
theorem test_index :
    tableIndex 0x4022C5F92C5F92C6 = 9 ∧ tableIndex 0x407FFFFFFFFFFFFF = 511
    ∧ tableIndex 0x408FFFFFFFFFFFFF = 1023 := by decide +kernel

/-! ### The commands -/

/-- A field of the state that a meaning leaves. -/
def got (r : Result) (f : State → α) : Option α :=
  match r with
  | .next s => some (f s)
  | .fault _ => none
  | .refused _ => none

/-- Two meanings in order. -/
def both (c d : Instr) (s : State) : Result := andThen (exec c s) (exec d)

/-- A block whose first oscillator is this one. -/
def withFirst (o : Oscillator) : State := { State.reset with osc := o :: State.reset.osc.tail }

/-- An oscillator that sounds. -/
def live : Oscillator := { Oscillator.reset false with bypass := false }

/-- An oscillator in MIDI pitch mode. -/
def midiOsc : Oscillator := { live with pmode := .midi, phase := fpTwo }

/-- V-K7 after row 3: osc[1] modulates osc[0]. -/
def routed : State :=
  { State.reset with
    osc := [{ live with slots := [(1, fpZero)] }, { live with out := .osc 0 }, live] }

/-- V-K1. -/
theorem test_bypass :
    got (exec (.bypass 0 0) State.reset) (fun s => (s.osc[0]?.map (·.bypass), s.status)) = some (some false, 0)
    ∧ got (exec (.bypass 0 255) (withFirst live)) (fun s => (s.osc[0]?.map (·.bypass), s.status)) = some (some true, 2) := by
  decide

/-- R231 and R8: no detune is the multiplier 1.0. -/
theorem test_coarse :
    got (exec (.coarse 0 fpZero) (withFirst { live with coarse := fpTwelve, detune := fpTwo })) (fun s =>
      s.osc[0]?.map fun o => (o.coarse, o.detune)) = some (some (fpZero, fpOne)) := by decide +kernel

/-- R232: COARSE −1 and FINE +100 cancel. -/
theorem test_fine :
    got (exec (.fine 0 fpHundred) (withFirst { live with coarse := fpMinusOne, detune := fpTwo })) (fun s =>
      s.osc[0]?.map fun o => (o.fine, o.detune)) = some (some (fpHundred, fpOne)) := by decide +kernel

/-- V-K3. -/
theorem test_fmrange :
    got (exec (.fmrange 0 0xC040000000000000) State.reset) (fun s => s.osc[0]?.map (·.fmrange)) = some (some 0xC040000000000000) := by decide

/-- V-K4. -/
theorem test_freq :
    got (exec (.freq 0 0xC014000000000000) State.reset) (fun s => (s.osc[0]?.map (·.freq), s.status)) = some (some fpZero, 2)
    ∧ got (exec (.freq 0 0x8000000000000000) State.reset) (fun s => (s.osc[0]?.map (·.freq), s.status)) =
      some (some 0x8000000000000000, 0) := by decide +kernel

/-- V-K4: an index outside the bank; V-C3: the index is checked before the value. -/
theorem test_freq_dropped :
    exec (.freq 3 fp440) State.reset = .next { State.reset with status := 2 }
    ∧ exec (.freq 0 fpInf) State.reset = .next { State.reset with status := 2 } := ⟨rfl, rfl⟩

/-- V-K5. -/
theorem test_gain :
    got (exec (.gain 2 fpZero) State.reset) (fun s => s.osc[2]?.map (·.amp.gain)) = some (some fpOne)
    ∧ got (exec (.gain 2 0xC034000000000000) State.reset) (fun s => s.osc[2]?.map (·.amp.gainDb)) = some (some 0xC034000000000000) := by
  exact ⟨rfl, rfl⟩

/-- V-K6. -/
theorem test_pitchmode :
    got (exec (.pitchmode 0 1) State.reset) (fun s => (s.osc[0]?.map (·.pmode), s.status)) = some (some .midi, 0)
    ∧ got (exec (.pitchmode 0 2) (withFirst midiOsc)) (fun s => (s.osc[0]?.map (·.pmode), s.status)) =
      some (some .const, 2) := by decide

/-- V-K7 rows 3 and 7: a route, and a move. -/
theorem test_output :
    got (exec (.output 1 1 0) State.reset) (fun s => s.osc.map fun o => (o.out, o.slots)) =
      some [(.master, [(1, fpZero)]), (.osc 0, []), (.master, [])]
    ∧ got (both (.output 1 1 0) (.output 1 1 2) State.reset) (fun s => s.osc.map fun o => (o.out, o.slots)) =
      some [(.master, []), (.osc 2, []), (.master, [(1, fpZero)])] := by decide +kernel

/-- V-K7 rows 1, 2, 4, 5, 8. -/
theorem test_output_rejected :
    got (exec (.output 0 1 0) State.reset) (·.status) = some 2
    ∧ got (exec (.output 0 1 5) State.reset) (·.status) = some 2
    ∧ got (exec (.output 2 1 1) routed) (·.status) = some 2
    ∧ got (exec (.output 0 1 2) routed) (·.status) = some 2
    ∧ got (exec (.output 1 2 2) routed) (fun s => (s.status, s.osc.map (·.fmin))) = some (2, [[], [], []]) := by
  decide +kernel

/-- V-K8. -/
theorem test_waveform :
    got (exec (.waveform 0 3) State.reset) (fun s => (s.osc[0]?.map (·.wave), s.status)) = some (some .square, 0)
    ∧ got (exec (.waveform 0 7) State.reset) (fun s => (s.osc[0]?.map (·.wave), s.status)) = some (some .sine, 2) := by
  decide

/-- 95_test_vectors.md, 2.7. -/
theorem test_attack :
    got (exec (.attack 0x3F847AE147AE147B) State.reset) (fun s => (s.master.envA, s.status)) = some (0x3F847AE147AE147B, 0)
    ∧ got (exec (.attack 0x8000000000000000) State.reset) (fun s => (s.master.envA, s.status)) = some (0x8000000000000000, 0) := by
  decide +kernel
theorem test_decay :
    got (exec (.decay 0xC000000000000000) State.reset) (fun s => (s.master.envD, s.status)) = some (fpZero, 2) := by decide +kernel
theorem test_sustain :
    got (exec (.sustain 0x3FF8000000000000) State.reset) (fun s => (s.master.envS, s.status)) = some (fpOne, 2)
    ∧ got (exec (.sustain 0xBFE0000000000000) State.reset) (fun s => (s.master.envS, s.status)) = some (fpZero, 2) := by
  decide +kernel
theorem test_release :
    got (exec (.release 0x3FE0000000000000) State.reset) (fun s => (s.master.envR, s.status)) = some (0x3FE0000000000000, 0) := by
  decide +kernel
theorem test_master :
    got (exec (.master fpZero) State.reset) (fun s => (s.master.gainDb, s.master.gain)) = some (fpZero, fpOne) := by
  decide +kernel
theorem test_mixermode :
    got (exec (.mixermode 1) State.reset) (fun s => (s.mmode, s.status)) = some (.midi, 0)
    ∧ got (exec (.mixermode 2) State.reset) (fun s => (s.mmode, s.status)) = some (.const, 2) := by decide

/-- V-N1: osc[0] in MIDI mode, osc[1] in CONST mode, TICK = 5. -/
theorem test_noteon :
    got (exec (.noteon 69 100) { withFirst midiOsc with tick := 5 }) (fun s =>
      (s.osc.map fun o => (o.pstack, o.phase, o.freq), s.master.held, s.master.start, s.master.estate)) =
      some ([([69], fpZero, fp440), ([69], fpZero, fp440), ([69], fpZero, fp440)], [69], some 5, .attack) := by
  decide +kernel

/-- V-N2: a clamped pitch, and velocity 0 is a note-on. -/
theorem test_noteon_clamped :
    got (exec (.noteon 200 0) State.reset) (fun s => (s.osc.map (·.pstack), s.status)) =
      some ([[127], [127], [127]], 2) := by decide +kernel

/-- V-N1: the last note-off releases. -/
theorem test_noteoff :
    got (both (.noteon 69 100) (.noteoff 69) { State.reset with tick := 5 }) (fun s =>
      (s.osc.map (·.pstack), s.master.held, s.master.start, s.master.rstart, s.master.estate)) =
      some ([[], [], []], [], none, some 5, .release) := by decide +kernel

/-- R292: a note-off of a pitch not held rewrites FREQ from the front pitch (V-N3 with pitch 69). -/
theorem test_noteoff_rewrites_freq :
    got (exec (.noteoff 61) (withFirst { midiOsc with pstack := [69], freq := fpHundred })) (fun s =>
      s.osc[0]?.map fun o => (o.pstack, o.freq)) = some (some ([69], fp440)) := by decide +kernel

/-- V-N4. -/
theorem test_pitchbend :
    got (exec (.pitchbend 0 64) State.reset) (fun s => (s.pb, s.bend, s.status)) = some (8192, fpOne, 0)
    ∧ got (exec (.pitchbend 200 200) State.reset) (fun s => (s.pb, s.status)) = some (16383, 2) := ⟨by decide +kernel, rfl⟩

theorem test_resetmidi : exec .resetmidi routed = .next routed := rfl

/-- R311. -/
theorem test_quit :
    got (exec .quit { State.reset with fifo := [0x13, 0x14] }) (fun s => (s.halted, s.status, s.fifo)) =
      some (true, 8, []) := by decide

/-! ### The amplifier (95_test_vectors.md V-E1, V-E2, V-E5, V-E9) -/

/-- The amplifier of V-E1 with pitch 60 held from tick 0. -/
def heldAmp : Amplifier :=
  { Amplifier.reset false with
    envA := 0x3F847AE147AE147B, envD := 0x3F947AE147AE147B, envS := 0x3FE0000000000000, envR := 0x3FB999999999999A, held := [60], start := some 0, estate := .attack }

/-- 1000.0 -/
def sr1000 : F64 := 0x408F400000000000

theorem test_amp_held :
    ampOutput 5 sr1000 heldAmp fpOne = 0x3FE0000000000000 ∧ ampOutput 11 sr1000 heldAmp fpOne = 0x3FEF333333333333
    ∧ ampOutput 30 sr1000 heldAmp fpOne = 0x3FE0000000000001
    ∧ (ampAfterCalc 31 sr1000 heldAmp).estate = .sustain := by decide +kernel

theorem test_amp_release :
    ampOutput 139 sr1000 (ampNoteOff 40 60 { heldAmp with last := 0x3FE0000000000000 }) fpOne = 0x3F747AE147AE1480
    ∧ (ampAfterCalc 140 sr1000 (ampNoteOff 40 60 heldAmp)).estate = .idle := by decide +kernel

theorem test_amp_legato :
    (ampNoteOn 50 64 { heldAmp with legato := true }).start = some 0
    ∧ (ampNoteOn 50 64 heldAmp).start = some 50 ∧ (ampNoteOn 70 60 heldAmp).start = some 0 := by decide

/-! ### The tick and the host's steps -/

/-- P3: a CONST-mode Square at FREQ 0 sounds +1.0; scaled by HEADROOM 0.5. -/
theorem test_tick_square :
    got (tick { withFirst { live with wave := .square, freq := fpZero } with
      params := { resetParams with headroom := 0x3FE0000000000000 } }) (fun s => (s.outSample, s.tick, s.reply)) =
      some (0x3FE0000000000000, 1, .sample 0x3FE0000000000000) := by decide +kernel

/-- R86: one tick strobe applies every pending word. -/
theorem test_tick_drains_all :
    got (step { State.reset with fifo := [0x1, 0x201, 0x101], inbox := [.tick] }) (fun s =>
      (s.osc.map (·.bypass), s.fifo)) = some ([false, false, false], []) := by decide +kernel

/-- R8: db_to_amp(−20.0) ≈ 0.1, whatever the free function is. -/
theorem test_db_to_amp :
    fLe fp005 (dbToAmp fpMinusTwenty) = true ∧ fLt (dbToAmp fpMinusTwenty) fp015 = true ∧ dbToAmp fpZero = fpOne :=
  ⟨(fWithin_mem (by decide) _).1, (fWithin_mem (by decide) _).2, by decide⟩

/-- V-O7: the draws 0.25 and, out of range, none. -/
theorem test_tick_noise :
    got (tick { withFirst { live with wave := .noise } with noiseIn := [0x3FD0000000000000, fpOne] }) (fun s =>
      (s.outSample, s.osc[0]?.map (·.phase), s.noiseIn)) = some (0x3FD0000000000000, some fpOne, [fpOne]) := by decide +kernel

/-- R203 and R204: a Noise modulator takes its draw before a Noise carrier of lower index. -/
theorem test_tick_noise_order :
    got (tick { State.reset with
      osc := [{ live with wave := .noise, slots := [(1, fpZero)] }, { live with wave := .noise, out := .osc 0 }]
      noiseIn := [0x3FD0000000000000, 0x3FE0000000000000] }) (fun s =>
      (s.outSample, s.osc[0]?.map (·.slots), s.noiseIn)) =
      some (0x3FE0000000000000, some [(1, 0x3FD0000000000000)], []) := by decide +kernel

/-- V-O6: a non-finite phase sum gives PHASE +0.0 and NONFINITE. -/
theorem test_tick_nonfinite_phase :
    got (tick (withFirst { live with detune := fpInf, phase := 0x3FE0000000000000, wave := .square })) (fun s =>
      (s.osc[0]?.map (·.phase), s.status)) = some (some fpZero, 4) := by decide +kernel

/-- R205: a non-finite sample is replaced by silence. -/
theorem test_tick_nonfinite_sample :
    got (tick { withFirst { live with wave := .square, freq := fpZero } with
      master := { Amplifier.reset false with gain := fpInf } }) (fun s => (s.outSample, s.status)) =
      some (fpZero, 4) := by decide +kernel

/-- V-O2 and V-O1: the increment of 440.0 Hz at 48000.0. -/
theorem test_tick_phase :
    got (tick (withFirst live)) (fun s => (s.osc[0]?.map (·.phase), s.outSample)) =
      some (some 0x4022C5F92C5F92C6, fpZero) := by decide +kernel

/-- V-F1, P5: overflow loses the oldest command. -/
theorem test_push_overflow :
    (push 0x05 { State.reset with params := { resetParams with cmdDepth := 2 }, fifo := [0x13, 0x14] }).fifo = [0x14, 0x05]
    ∧ (push 0x05 { State.reset with params := { resetParams with cmdDepth := 2 }, fifo := [0x13, 0x14] }).status = 1 := by
  decide

/-- P5: QUIT in a drain discards the command after it, and TICK stays. -/
theorem test_tick_quit :
    got (tick { State.reset with fifo := [0x14, 0x40800000000000000000000000000105], tick := 3 }) (fun s =>
      (s.fifo, s.tick, s.status, s.osc[1]?.map (·.freq), s.reply)) = some ([], 3, 8, some fp440, .sample fpZero) := by
  decide +kernel

/-- V-R1, V-R2. -/
theorem test_reset :
    got (step { State.reset with status := 0x0B, fifo := [0x13], tick := 9, inbox := [.reset fp48000] }) (·.registers) =
      some State.reset.registers
    ∧ step { State.reset with inbox := [.reset fpZero] } = .refused .badSampleRate
    ∧ step { State.reset with inbox := [.reset fpMinusOne] } = .refused .badSampleRate := ⟨rfl, rfl, rfl⟩

/-- V-M5: 5 elements on 2 channels. -/
theorem test_render :
    (match render id 5 2 (withFirst { live with wave := .square, freq := fpZero }) with
      | .next r => some (r.buffer, r.state.tick)
      | _ => none) = some ([fpOne, fpOne, fpOne, fpOne, fpZero], 2) := by decide +kernel

/-- The step that the host's word runs: `BYPASS 2, 0` as the first command after reset. -/
theorem test_withFetchWord :
    got (step (State.reset.withFetchWord 128 0x201)) (fun s => (s.osc.map (·.bypass), s.tick, s.fifo, s.inbox)) =
      some ([true, true, false], 1, [], []) := by decide +kernel

/-! ### Witnesses: for every statement with hypotheses, values that meet them, one for each clause -/

/-- The greatest finite binary64 value. -/
def maxFinite : F64 := 0x7FEFFFFFFFFFFFFF

/-- A block that has halted. -/
def haltedBlock : State := { State.reset with status := 0x08 }

theorem witness_PortBytesLittleEndian : (15 < 16 ∧ 7 < 8) ∧ (0 < 16 ∧ 0 < 8) ∧ ([] : List Byte).length ≠ 16 := by decide

theorem witness_MalformedOrReservedWordDropped :
    ((0x00000000000000000000000100000013 : CmdWord).extractLsb' 32 32 ≠ 0)
    ∧ ((0x00000000000000008000000000000014 : CmdWord).extractLsb' 32 32 ≠ 0)
    ∧ ((0x7FF80000000000000000000000000000 : CmdWord).extractLsb' 0 8 = 0)
    ∧ 0x15 ≤ ((0x15 : CmdWord).extractLsb' 0 8).toNat ∧ 0x15 ≤ ((0xFF : CmdWord).extractLsb' 0 8).toNat
    ∧ { State.reset with fifo := [0x15, 0x14] }.fifo = 0x15 :: [0x14] := by decide

theorem witness_BadIndexOrValueDropped :
    (∃ k, (Instr.bypass 3 0).oscIndex = some k ∧ State.reset.nOsc ≤ k.toNat)
    ∧ (∃ k, (Instr.waveform 255 0).oscIndex = some k ∧ State.reset.nOsc ≤ k.toNat)
    ∧ (∃ v, (Instr.coarse 0 fpInf).value = some v ∧ fIsFinite v = false)
    ∧ ∃ v, (Instr.master 0x7FF8000000000000).value = some v ∧ fIsFinite v = false :=
  ⟨⟨3, by decide⟩, ⟨255, by decide⟩, ⟨_, rfl, by decide⟩, _, rfl, by decide⟩

/-- Each side of the clauses: QUIT, a command with no cause of INVALID, and words with one (V-F4 causes 1, 5 and 9). -/
theorem witness_StatusBitsOfACommand :
    decode 0x14 = .ok .quit ∧ decode 0x13 ≠ .ok .quit ∧ causeOfInvalid 0x13 State.reset = false
    ∧ causeOfInvalid 0x100000013 State.reset = true ∧ causeOfInvalid 0x20001 State.reset = true
    ∧ causeOfInvalid 0x10008 State.reset = true ∧ causeOfInvalid 0x1010208 routed = true := by decide

/-- The first and the last oscillator of the bank. -/
theorem witness_BypassWritesTheFlag :
    State.reset.osc[(0 : BitVec 8).toNat]? = some (Oscillator.reset false)
    ∧ State.reset.osc[(2 : BitVec 8).toNat]? = some (Oscillator.reset false) := by decide

theorem witness_DetuneCommandsRecomputeDetune :
    State.reset.osc[(2 : BitVec 8).toNat]? = some (Oscillator.reset false) ∧ fIsFinite maxFinite = true
    ∧ fIsFinite fpZero = true := by decide

theorem witness_FmrangeFreqGainWriteTheirRegisters :
    State.reset.osc[(0 : BitVec 8).toNat]? = some (Oscillator.reset false)
    ∧ (fIsFinite fpMinusOne = true ∧ fLt fpMinusOne fpZero = true)
    ∧ (fIsFinite 0x8000000000000000 = true ∧ fLt 0x8000000000000000 fpZero = false) := by decide

theorem witness_PitchmodeAndWaveformSelect :
    State.reset.osc[(2 : BitVec 8).toNat]? = some (Oscillator.reset false) ∧ routed.osc[(1 : BitVec 8).toNat]? ≠ none := by
  decide

/-- From Master (V-K7 row 3), and from another carrier (row 7). -/
theorem witness_OutputJoinsTheCarrier :
    (∃ oi oj, State.reset.osc[(1 : BitVec 8).toNat]? = some oi ∧ State.reset.osc[(0 : BitVec 8).toNat]? = some oj
      ∧ (0 : BitVec 8) ≠ 1 ∧ oj.out = .master ∧ oi.fmin = [] ∧ oi.out ≠ .osc (0 : BitVec 8).toNat)
    ∧ ∃ oi oj, routed.osc[(1 : BitVec 8).toNat]? = some oi ∧ routed.osc[(2 : BitVec 8).toNat]? = some oj
      ∧ (2 : BitVec 8) ≠ 1 ∧ oj.out = .master ∧ oi.fmin = [] ∧ oi.out ≠ .osc (2 : BitVec 8).toNat ∧ oi.out = .osc 0 :=
  ⟨⟨_, _, rfl, rfl, by decide⟩, _, _, rfl, rfl, by decide⟩

/-- Kind 0 and an unknown kind, of a modulator and of a carrier. -/
theorem witness_OutputReturnsToMaster :
    (∃ oi, routed.osc[(1 : BitVec 8).toNat]? = some oi ∧ (0 : BitVec 8) ≠ 1 ∧ oi.out = .osc 0)
    ∧ ∃ oi, routed.osc[(2 : BitVec 8).toNat]? = some oi ∧ (2 : BitVec 8) ≠ 1 ∧ oi.out = .master :=
  ⟨⟨_, rfl, by decide⟩, _, rfl, by decide⟩

/-- One witness for each ground of rejection (V-K7 rows 2, 1, 4, 5), and the same target (row 6). -/
theorem witness_OutputRejectsIllegalRoutes :
    (∃ oi, State.reset.osc[(0 : BitVec 8).toNat]? = some oi ∧ State.reset.nOsc ≤ (3 : BitVec 8).toNat)
    ∧ (∃ oi, State.reset.osc[(0 : BitVec 8).toNat]? = some oi ∧ (0 : BitVec 8) = 0)
    ∧ (∃ oi oj, routed.osc[(2 : BitVec 8).toNat]? = some oi ∧ routed.osc[(1 : BitVec 8).toNat]? = some oj ∧ oj.out ≠ .master)
    ∧ (∃ oi, routed.osc[(0 : BitVec 8).toNat]? = some oi ∧ oi.fmin ≠ [])
    ∧ ∃ oi oj, routed.osc[(1 : BitVec 8).toNat]? = some oi ∧ routed.osc[(0 : BitVec 8).toNat]? = some oj
      ∧ (0 : BitVec 8) ≠ 1 ∧ oj.out = .master ∧ oi.fmin = [] ∧ oi.out = .osc (0 : BitVec 8).toNat :=
  ⟨⟨_, rfl, by decide⟩, ⟨_, rfl, rfl⟩, ⟨_, _, rfl, rfl, by decide⟩, ⟨_, rfl, by decide⟩, _, _, rfl, rfl, by decide⟩

theorem witness_OscillatorCommandsCommute :
    (Instr.freq 0 fp440).oscIndex = some 0 ∧ (Instr.freq 2 fp880).oscIndex = some 2 ∧ (0 : BitVec 8) ≠ 2
    ∧ (Instr.freq 0 fp440).opcode ≠ 0x08 ∧ (Instr.freq 2 fp880).opcode ≠ 0x08 := by decide

theorem witness_MasterTimesWriteTheEnvelope :
    (fIsFinite maxFinite = true ∧ fLt maxFinite fpZero = false)
    ∧ (fIsFinite fpMinusOne = true ∧ fLt fpMinusOne fpZero = true) := by decide

theorem witness_SustainClampsTheLevel :
    (fIsFinite fpOne = true ∧ fLt fpOne fpOne = false) ∧ (fIsFinite fpTwo = true ∧ fLt fpOne fpTwo = true)
    ∧ (fIsFinite fpMinusOne = true ∧ fLt fpMinusOne fpZero = true) := by decide

theorem witness_MasterGainAndMixerMode : fIsFinite fpZero = true ∧ fIsFinite maxFinite = true := by decide

/-- The last pitch, and a clamped one. -/
theorem witness_NoteonReachesEveryTracker :
    (127 : Pitch).val = min (127 : BitVec 8).toNat 127 ∧ (127 : Pitch).val = min (255 : BitVec 8).toNat 127
    ∧ (0 : Pitch).val = min (0 : BitVec 8).toNat 127 := by decide

/-- The clauses on FREQ: the last pitch leaves; a CONST-mode oscillator; a MIDI-mode one whose stack is not empty. -/
theorem witness_NoteoffReachesEveryTracker :
    (69 : Pitch).val = min (69 : BitVec 8).toNat 127
    ∧ (∃ t o', exec (.noteoff 69) (withFirst { midiOsc with pstack := [69] }) = .next t ∧ t.osc[0]? = some o' ∧ o'.pstack = [])
    ∧ (Oscillator.reset false).pmode = .const
    ∧ ∃ t o', exec (.noteoff 69) (withFirst { midiOsc with pstack := [69, 60] }) = .next t ∧ t.osc[0]? = some o'
      ∧ midiOsc.pmode = .midi ∧ o'.pstack = 60 :: [] :=
  ⟨by decide, ⟨_, _, rfl, rfl, rfl⟩, rfl, _, _, rfl, rfl, rfl, rfl⟩

theorem witness_PitchbendWritesPbAndBend :
    (0 : BitVec 8) = 0 ∧ (64 : BitVec 8) = 64 ∧ fIsFinite State.reset.params.pbRange = true := by decide

theorem witness_QuitHaltsTheBlock :
    { State.reset with fifo := [0x14, 0x13] }.halted = false
    ∧ { State.reset with fifo := [0x14, 0x13] }.fifo = 0x14 :: [0x13] ∧ decode 0x14 = .ok .quit := by decide

theorem witness_NoCommandWritesTheseRegisters :
    (∃ t, exec (.noteon 69 100) routed = .next t) ∧ Instr.noteon 69 100 ≠ .quit := ⟨⟨_, rfl⟩, by decide⟩

theorem witness_OnlyOutputChangesRoutes :
    (Instr.noteon 69 100).opcode ≠ 0x08 ∧ ∃ t, exec (.noteon 69 100) routed = .next t := ⟨by decide, _, rfl⟩

/-- No pitch held; a pitch held; another pitch held, with and without legato. -/
theorem witness_AmpNoteOnTransitions :
    (Amplifier.reset false).held = [] ∧ 60 ∈ heldAmp.held ∧ (heldAmp.held ≠ [] ∧ 64 ∉ heldAmp.held)
    ∧ { heldAmp with legato := true }.held ≠ [] := by decide

/-- A pitch not held; the last held pitch; one of two. -/
theorem witness_AmpNoteOffTransitions :
    67 ∉ heldAmp.held ∧ (60 ∈ heldAmp.held ∧ ∀ q ∈ heldAmp.held, q = 60)
    ∧ (60 ∈ { heldAmp with held := [60, 64] }.held ∧ ∃ q ∈ { heldAmp with held := [60, 64] }.held, q ≠ 60) := by
  decide +kernel

/-- V-E1 at ticks 10 (t = A exactly), 11 and 31, and V-E2's A = 0 at tick 0. -/
theorem witness_AmpCalcHeldBranch :
    heldAmp.held ≠ [] ∧ heldAmp.start = some 0
    ∧ fLe (fDiv (fOfNat ((10 : Stamp) - 0).toNat) sr1000) heldAmp.envA = true
    ∧ (fLe (fDiv (fOfNat ((11 : Stamp) - 0).toNat) sr1000) heldAmp.envA = false
      ∧ fLt (fAdd heldAmp.envA heldAmp.envD) (fDiv (fOfNat ((11 : Stamp) - 0).toNat) sr1000) = false)
    ∧ (fLe (fDiv (fOfNat ((31 : Stamp) - 0).toNat) sr1000) heldAmp.envA = false
      ∧ fLt (fAdd heldAmp.envA heldAmp.envD) (fDiv (fOfNat ((31 : Stamp) - 0).toNat) sr1000) = true)
    ∧ fLe (fDiv (fOfNat ((0 : Stamp) - 0).toNat) sr1000) fpZero = true := by decide +kernel

/-- V-E1's release at ticks 139 and 140 (elapsed = R exactly), and an idle amplifier. -/
theorem witness_AmpCalcReleaseAndIdle :
    (ampNoteOff 40 60 heldAmp).held = [] ∧ (ampNoteOff 40 60 heldAmp).estate = .release
    ∧ (ampNoteOff 40 60 heldAmp).rstart = some 40
    ∧ fLe heldAmp.envR (fDiv (fOfNat ((140 : Stamp) - 40).toNat) sr1000) = true
    ∧ fLe heldAmp.envR (fDiv (fOfNat ((139 : Stamp) - 40).toNat) sr1000) = false
    ∧ (Amplifier.reset false).held = [] ∧ (Amplifier.reset false).estate ≠ .release := by decide +kernel

/-- An entry of the formula, and the parameters of the table formulas. -/
theorem witness_RomProperties :
    (127 : Pitch) ≠ 81 ∧ ∃ ph tau overPi : F64,
      ph = fDiv (fOfNat 1023) fp1024 ∧ tau = 0x401921FB54442D18 ∧ overPi = fDiv fpTwo 0x400921FB54442D18 :=
  ⟨by decide, _, _, _, rfl, rfl, rfl⟩

/-- An offer at the lower end of the range, and, none offered, a draw of `Config.noise` (whose range is the clause's
own hypothesis, as its values are free). -/
theorem witness_NoiseDrawInRange :
    ({ State.reset with noiseIn := [fpMinusOne, fpOne] }.noiseIn = fpMinusOne :: [fpOne]
      ∧ fLe fpMinusOne fpMinusOne = true ∧ fLt fpMinusOne fpOne = true)
    ∧ State.reset.noiseIn = [] ∧ ∃ v, v = Config.noise State.reset.noiseCount := ⟨by decide, rfl, _, rfl⟩

/-- A finite x whose remainder needs no guard, one that needs the first, and an x that is not finite. -/
theorem witness_WrapLandsInTheTable :
    (∃ r r' : F64, fIsFinite fp1024 = true ∧ r = fSub fp1024 (fMul fp1024 (fFloor (fDiv fp1024 fp1024)))
      ∧ r' = if fLt r fpZero then fAdd r fp1024 else r)
    ∧ (fIsFinite 0x8000000000000001 = true
      ∧ fLt (fSub 0x8000000000000001 (fMul fp1024 (fFloor (fDiv 0x8000000000000001 fp1024)))) fpZero = true)
    ∧ fIsFinite fpInf = false := ⟨⟨_, _, by decide, rfl, rfl⟩, by decide +kernel, by decide⟩

theorem witness_BypassedOscillatorIsFrozen :
    ∃ o, State.reset.osc[2]? = some o ∧ o.bypass = true := ⟨_, rfl, rfl⟩

/-- A CONST-mode carrier with an FM slot; and a MIDI-mode oscillator, with a finite PHASE. -/
theorem witness_OscCalcOfATableWaveform :
    (∃ o table raw f sum r r', routed.osc[0]? = some o ∧ o.bypass = false ∧ romWT o.wave = some table
      ∧ raw = table (tableIndex o.phase)
      ∧ f = o.slots.foldl (fun f e => fAdd f (fMul e.2 (fDiv o.fmrange fpTwo)))
        (fMul (fMul o.freq o.detune) (if o.pmode = .midi then routed.bend else fpOne))
      ∧ sum = fAdd o.phase (fDiv (fMul f fp1024) routed.sr)
      ∧ r = fSub sum (fMul fp1024 (fFloor (fDiv sum fp1024)))
      ∧ r' = (if fLt r fpZero then fAdd r fp1024 else r) ∧ o.slots ≠ [])
    ∧ ∃ o table, (withFirst midiOsc).osc[0]? = some o ∧ o.bypass = false ∧ romWT o.wave = some table ∧ o.pmode = .midi
      ∧ fIsFinite o.phase = true :=
  ⟨⟨_, _, _, _, _, _, _, rfl, rfl, rfl, rfl, rfl, rfl, rfl, rfl, by decide⟩, _, _, rfl, rfl, rfl, rfl, rfl⟩

theorem witness_OscCalcOfNoise :
    ∃ o sum r r', (withFirst { live with wave := .noise }).osc[0]? = some o ∧ o.bypass = false ∧ o.wave = .noise
      ∧ sum = fAdd o.phase fpOne ∧ r = fSub sum (fMul fp1024 (fFloor (fDiv sum fp1024)))
      ∧ r' = if fLt r fpZero then fAdd r fp1024 else r := ⟨_, _, _, _, rfl, rfl, rfl, rfl, rfl, rfl⟩

/-- A negative exact value; finite operands; divisors of both signs and zero; an exact zero sum and difference. -/
theorem witness_RoundingIsToNearestEven :
    (0 < 3 ∧ (-1 : Int) = if true then -((1 : Nat) : Int) else ((1 : Nat) : Int)) ∧ fIsFinite (fRound true 1 3) = true
    ∧ (fIsFinite maxFinite = true ∧ fIsFinite fpMinusOne = true)
    ∧ (0 < fVal maxFinite ∧ fVal fpMinusOne < 0 ∧ fVal maxFinite ≠ 0)
    ∧ (fVal fpOne + fVal fpMinusOne = 0 ∧ fVal fpZero - fVal 0x8000000000000000 = 0) := by decide +kernel

/-- Two finite values; a NaN; an infinity with a finite value that is zero and one that is not; infinities of like and
of opposite sign; a zero divisor of zero and of another value. -/
theorem witness_SpecialOperandsFollowIeee :
    (fIsFinite maxFinite = true ∧ fIsFinite 0x8000000000000000 = true) ∧ fIsNaN 0x7FF8000000000000 = true
    ∧ (fIsInf fpInf = true ∧ fVal 0x8000000000000000 = 0 ∧ fVal maxFinite ≠ 0)
    ∧ (fIsInf 0xFFF0000000000000 = true ∧ fSign fpInf ≠ fSign 0xFFF0000000000000 ∧ fSign fpInf = fSign fpInf)
    ∧ fVal fpZero = 0 := by decide +kernel

/-- Halted; a full FIFO; a FIFO with room. -/
theorem witness_PushFollowsItsRule :
    ({ haltedBlock with inbox := [.push 0x13] }.inbox = .push 0x13 :: [] ∧ haltedBlock.halted = true)
    ∧ (State.reset.halted = false ∧ { State.reset with fifo := List.replicate 16 0x13 }.fifo.length = State.reset.params.cmdDepth)
    ∧ { State.reset with fifo := List.replicate 15 0x13 }.fifo.length ≠ State.reset.params.cmdDepth := by decide

/-- A word that decodes and one that does not; two words pending, the second QUIT; none; a tick strobe that finds two. -/
theorem witness_DrainAppliesInOrder :
    decode 0x13 = .ok .resetmidi ∧ decode 0x15 = .error (.reserved 0x15)
    ∧ { State.reset with fifo := [0x13, 0x14] }.fifo = 0x13 :: [0x14]
    ∧ State.reset.fifo = [] ∧ { State.reset with fifo := [0x13, 0x14] }.halted = false
    ∧ { State.reset with fifo := [0x13, 0x14], inbox := [.tick] }.inbox = .tick :: []
    ∧ got (drain { State.reset with fifo := [0x13, 0x14] }) State.halted = some true
    ∧ got (drain { State.reset with fifo := [0x13, 0x10001] }) State.halted = some false := by decide

theorem witness_HaltedTickIsSilent : haltedBlock.halted = true := by decide

/-- The oscillators of `routed`, one by one. -/
theorem routed_osc {k : Nat} {o : Oscillator} (h : routed.osc[k]? = some o) :
    (k = 0 ∧ o = { live with slots := [(1, fpZero)] }) ∨ (k = 1 ∧ o = { live with out := .osc 0 }) ∨ (k = 2 ∧ o = live) := by
  match k with
  | 0 => exact .inl ⟨rfl, by simpa [routed] using h.symm⟩
  | 1 => exact .inr (.inl ⟨rfl, by simpa [routed] using h.symm⟩)
  | 2 => exact .inr (.inr ⟨rfl, by simpa [routed] using h.symm⟩)
  | k + 3 => simp [routed] at h

/-- The routes of `routed` are legal. -/
theorem routed_routingInv : routed.RoutingInv := by
  refine ⟨?_, ?_, ?_⟩
  · intro i j oi oj hi hj hij
    rcases routed_osc hi with ⟨rfl, rfl⟩ | ⟨rfl, rfl⟩ | ⟨rfl, rfl⟩ <;>
      rcases routed_osc hj with ⟨rfl, rfl⟩ | ⟨rfl, rfl⟩ | ⟨rfl, rfl⟩ <;> revert hij <;> decide
  · intro k j ok hk ho
    rcases routed_osc hk with ⟨rfl, rfl⟩ | ⟨rfl, rfl⟩ | ⟨rfl, rfl⟩
    · cases ho
    · cases ho; exact ⟨by decide, rfl, _, rfl, rfl⟩
    · cases ho
  · intro i o hi
    rcases routed_osc hi with ⟨rfl, rfl⟩ | ⟨rfl, rfl⟩ | ⟨rfl, rfl⟩ <;> decide

/-- `routed` with Noise throughout. -/
def noiseRouted : State := { routed with osc := routed.osc.map fun o => { o with wave := .noise } }

/-- Legality of the routes does not read the waveform. -/
theorem noiseRouted_routingInv : noiseRouted.RoutingInv := by
  have key : ∀ (k : Nat) (x : Oscillator), noiseRouted.osc[k]? = some x →
      ∃ o, routed.osc[k]? = some o ∧ o.out = x.out ∧ o.fmin = x.fmin := by
    intro k x hx
    obtain ⟨o, ho, rfl⟩ := Option.map_eq_some_iff.mp (by simpa [noiseRouted] using hx)
    exact ⟨o, ho, rfl, rfl⟩
  obtain ⟨h1, h2, h3⟩ := routed_routingInv
  refine ⟨fun i j oi oj hi hj hij => ?_, fun k j ok hk h => ?_, fun i x hx => ?_⟩
  · obtain ⟨a, ha, a1, -⟩ := key i oi hi
    obtain ⟨b, hb, -, b2⟩ := key j oj hj
    rw [← a1, ← b2]; exact h1 i j a b ha hb hij
  · obtain ⟨a, ha, a1, a2⟩ := key k ok hk
    obtain ⟨x1, x2, b, hb, hm⟩ := h2 k j a ha (a1.trans h)
    exact ⟨x1, a2 ▸ x2, { b with wave := .noise }, by simp [noiseRouted, hb], hm⟩
  · obtain ⟨a, ha, -, a2⟩ := key i x hx
    have := h3 i a ha
    rw [a2] at this
    simpa [State.nOsc, noiseRouted] using this

/-- The routes of a bank of carriers are legal. -/
theorem withFirst_routingInv {o : Oscillator} (ho : o.out = .master) (hs : o.slots = []) : (withFirst o).RoutingInv := by
  have key : ∀ (k : Nat) (x : Oscillator), (withFirst o).osc[k]? = some x → x.out = .master ∧ x.fmin = [] := by
    intro k x hx
    match k with
    | 0 => cases hx; exact ⟨ho, by simp [Oscillator.fmin, hs]⟩
    | 1 => cases hx; exact ⟨rfl, rfl⟩
    | 2 => cases hx; exact ⟨rfl, rfl⟩
    | k + 3 => simp [withFirst, State.reset, State.afterReset] at hx
  refine ⟨fun i j oi oj hi hj _ => ?_, fun k j ok hk h => ?_, fun i x hx => ?_⟩
  · rw [(key i oi hi).1, (key j oj hj).2]; simp
  · rw [(key k ok hk).1] at h; cases h
  · rw [(key i x hx).2]; simp

/-- CONST and MIDI mixer mode; a bypassed oscillator, one in each pitch mode; and legal routes with a modulator. -/
theorem witness_TickChangesOnlyTheDatapath :
    (routed.halted = false ∧ routed.fifo = [] ∧ routed.mmode = .const ∧ { routed with mmode := .midi }.mmode = .midi)
    ∧ (∃ o, (withFirst midiOsc).osc[0]? = some o ∧ o.bypass = false ∧ o.pmode = .midi)
    ∧ (∃ o, (withFirst midiOsc).osc[1]? = some o ∧ o.bypass = true ∧ o.pmode = .const)
    ∧ routed.RoutingInv ∧ ∃ o, routed.osc[0]? = some o ∧ o.bypass = false ∧ o.fmin = [1] :=
  ⟨by decide, ⟨_, rfl, rfl, rfl⟩, ⟨_, rfl, rfl, rfl⟩, routed_routingInv, _, rfl, rfl, rfl⟩

/-- The values of a bank with Noise; a sample that is not finite; legal routes with a phase sum that is not finite, and
with a finite sample and finite phase sums. -/
theorem witness_TickSampleIsTheMix :
    (∃ sum m y, (withFirst { live with wave := .noise }).halted = false ∧ (withFirst { live with wave := .noise }).fifo = []
      ∧ sum = (withFirst { live with wave := .noise }).carrierIndices.foldl
        (fun acc i => fAdd acc ((withFirst { live with wave := .noise }).tickSample i)) fpZero
      ∧ m = (match State.reset.mmode with
        | .midi => ampOutput State.reset.tick State.reset.sr State.reset.master sum
        | .const => fMul sum State.reset.master.gain)
      ∧ y = fMul m State.reset.params.headroom)
    ∧ fIsFinite (fMul (fMul ((withFirst { live with wave := .square }).carrierIndices.foldl
        (fun acc i => fAdd acc ((withFirst { live with wave := .square }).tickSample i)) fpZero) maxFinite) fpTwo) = false
    ∧ ((withFirst { live with freq := maxFinite }).RoutingInv
      ∧ ∃ o ∈ (withFirst { live with freq := maxFinite }).osc, o.bypass = false
        ∧ fIsFinite ((withFirst { live with freq := maxFinite }).tickPhaseSum o) = false)
    ∧ ((withFirst { live with wave := .square }).RoutingInv
      ∧ fIsFinite (fMul (fMul ((withFirst { live with wave := .square }).carrierIndices.foldl
        (fun acc i => fAdd acc ((withFirst { live with wave := .square }).tickSample i)) fpZero) fpOne) fpOne) = true
      ∧ ∀ o ∈ (withFirst { live with wave := .square }).osc, o.bypass = false →
        fIsFinite ((withFirst { live with wave := .square }).tickPhaseSum o) = true) :=
  ⟨⟨_, _, _, by decide, rfl, rfl, rfl, rfl⟩, by decide +kernel,
    ⟨withFirst_routingInv rfl rfl, _, List.mem_cons_self, rfl, by decide +kernel⟩,
    ⟨withFirst_routingInv rfl rfl, by decide +kernel, by decide +kernel⟩⟩

theorem witness_StepKeepsRouting : routed.RoutingInv ∧ ∃ t, step { routed with inbox := [.tick] } = .next t :=
  ⟨routed_routingInv, _, rfl⟩

/-- A table modulator with legal routes, and the Noise clause's form of it. -/
theorem witness_ModulatorHeardInTheSameTick :
    (∃ oi, routed.RoutingInv ∧ routed.osc[1]? = some oi ∧ oi.out = .osc 0 ∧ oi.wave ≠ .noise)
    ∧ ∃ oi, noiseRouted.RoutingInv ∧ noiseRouted.osc[1]? = some oi ∧ oi.out = .osc 0 ∧ oi.wave = .noise :=
  ⟨⟨_, routed_routingInv, rfl, rfl, by decide⟩, _, noiseRouted_routingInv, rfl, rfl, rfl⟩

/-- A buffer with a partial frame and a second frame, and one with no whole frame; CONVERT into a type that is not
binary64; a block that is running with nothing to drain. -/
theorem witness_RenderFillsTheBuffer :
    (0 < 2 ∧ 1 < 5 / 2 ∧ 1 < 2 ∧ 5 / 2 * 2 ≤ 4 ∧ 4 < 5) ∧ 2 / 3 * 3 ≤ 0
    ∧ (∃ convert : F64 → List Bool, convert fpZero = [fSign fpZero])
    ∧ routed.halted = false ∧ routed.fifo = [] ∧ 0 < 5 / 2 ∧ ∃ t, tick routed = .next t :=
  ⟨by decide, by decide, ⟨fun x => [fSign x], rfl⟩, by decide, rfl, by decide, _, rfl⟩

/-- A command that leaves the block running, and QUIT. -/
theorem witness_StepRunsTheDecodedCommand :
    (∃ i, { State.reset with inbox := [.tick], fifo := [0x10001] }.inbox = .tick :: []
      ∧ { State.reset with inbox := [.tick], fifo := [0x10001] }.halted = false ∧ decode 0x10001 = .ok i)
    ∧ decode 0x14 = .ok .quit ∧ got (exec .quit State.reset) State.halted = some true :=
  ⟨⟨_, rfl, by decide, rfl⟩, by decide, by decide⟩

theorem witness_OnlyResetLeavesHalted :
    (haltedBlock.halted = true ∧ { haltedBlock with inbox := [.tick] }.inbox = .tick :: [])
    ∧ (∀ sr, HostStep.tick ≠ .reset sr) ∧ ∀ sr, HostStep.push 0x13 ≠ .reset sr :=
  ⟨by decide, fun _ h => (by cases h), fun _ h => (by cases h)⟩

theorem witness_TickRegisterCounts :
    (∃ t, step { routed with inbox := [.tick] } = .next t)
    ∧ (∃ t, step { State.reset with inbox := [.reset fp48000] } = .next t)
    ∧ ({ State.reset with inbox := [.push 0x13] }.inbox.head? ≠ some .tick
      ∧ (∀ sr, { State.reset with inbox := [.push 0x13] }.inbox.head? ≠ some (.reset sr))
      ∧ ∃ t, step { State.reset with inbox := [.push 0x13] } = .next t) :=
  ⟨⟨_, rfl⟩, ⟨_, rfl⟩, by decide, fun _ h => (by cases h), _, rfl⟩

theorem witness_StatusBitsAreSticky :
    (∀ sr rest, { State.reset with inbox := [.tick], status := 0x07 }.inbox ≠ .reset sr :: rest)
    ∧ ∃ t, step { State.reset with inbox := [.tick], status := 0x07 } = .next t :=
  ⟨fun _ _ h => (by cases h), _, rfl⟩

/-- A sample rate that is not finite, one that is not positive, and each ground of a bad configuration. -/
theorem witness_OnlyABadResetIsRefused :
    { State.reset with inbox := [.reset fpInf] }.inbox = .reset fpInf :: [] ∧ fIsFinite fpInf = false
    ∧ fLt fpZero fpZero = false ∧ (fIsFinite fp48000 = true ∧ fLt fpZero fp48000 = true)
    ∧ { State.reset with osc := [] }.nOsc < 1
    ∧ 256 < { State.reset with osc := List.replicate 257 live }.nOsc
    ∧ fIsFinite { resetParams with headroom := fpInf }.headroom = false
    ∧ { resetParams with cmdDepth := 0 }.cmdDepth = 0 := by decide +kernel

theorem witness_ResetGivesTheResetValues :
    { haltedBlock with inbox := [.reset fp48000] }.inbox = .reset fp48000 :: [] ∧ fIsFinite fp48000 = true
    ∧ fLt fpZero fp48000 = true ∧ 1 ≤ haltedBlock.nOsc ∧ haltedBlock.nOsc ≤ 256
    ∧ fIsFinite haltedBlock.params.headroom = true ∧ 1 ≤ haltedBlock.params.cmdDepth := by decide +kernel

theorem witness_ReadsReturnTheirPorts :
    { haltedBlock with inbox := [.readStatus] }.inbox = .readStatus :: []
    ∧ { haltedBlock with inbox := [.readTick] }.inbox = .readTick :: []
    ∧ { haltedBlock with inbox := [.readOutSample] }.inbox = .readOutSample :: [] := ⟨rfl, rfl, rfl⟩

theorem witness_StepKeepsNotesAgree :
    State.NotesAgree { State.reset with inbox := [.tick], fifo := [0x450010] }
    ∧ ∃ t, step { State.reset with inbox := [.tick], fifo := [0x450010] } = .next t := by
  refine ⟨?_, _, rfl⟩
  intro i o hi
  match i with
  | 0 => cases hi; decide
  | 1 => cases hi; decide
  | 2 => cases hi; decide
  | i + 3 => cases hi

theorem witness_StepKeepsEnvelopeStates :
    State.EveryAmp { State.reset with master := heldAmp, inbox := [.tick] } Amplifier.StateLegal
    ∧ ∃ t, step { State.reset with master := heldAmp, inbox := [.tick] } = .next t := by
  refine ⟨⟨?_, ⟨?_, ?_, ?_, ?_, ?_, ?_⟩⟩, _, rfl⟩
  · intro o ho
    have : o = Oscillator.reset false := by simpa [State.reset, State.afterReset] using ho
    subst this
    constructor <;> decide
  all_goals decide

theorem witness_StepKeepsRegisterValues :
    State.ValuesLegal { State.reset with inbox := [.push 0x13] }
    ∧ ∃ t, step { State.reset with inbox := [.push 0x13] } = .next t := by
  refine ⟨⟨?_, ⟨?_, ?_⟩, ?_, ?_, ?_, ?_⟩, _, rfl⟩
  · intro o ho
    have : o = Oscillator.reset false := by simpa [State.reset, State.afterReset] using ho
    subst this
    constructor <;> decide +kernel
  · intro o ho
    have : o = Oscillator.reset false := by simpa [State.reset, State.afterReset] using ho
    subst this
    constructor <;> decide +kernel
  · constructor <;> decide +kernel
  all_goals decide

theorem witness_StepKeepsPhasesInTheTable :
    State.PhasesLegal { routed with inbox := [.tick] } ∧ ∃ t, step { routed with inbox := [.tick] } = .next t := by
  refine ⟨?_, _, rfl⟩
  intro o ho
  have : o.phase = fpZero := by
    simp only [routed, List.mem_cons, List.not_mem_nil, or_false] at ho
    rcases ho with rfl | rfl | rfl <;> rfl
  rw [this]
  exact ⟨by decide, by decide⟩

theorem witness_ResetMeetsTheInvariants :
    1 ≤ resetParams.cmdDepth ∧ State.reset = State.afterReset resetParams [false, false, false] false fp48000 := by
  exact ⟨by decide, rfl⟩

end Sys2Proof.Tests
end

section
/-! O32: the wavetables, MIDI_HZ and the configuration functions. -/

namespace Sys2Proof.Machine

/-! ### The rounded constants and the first entries of the tables -/

/-- 2π as R141 rounds it. -/
theorem twoPi_eq : twoPi = 0x401921FB54442D18 := by decide +kernel

theorem cyclePhase_zero : cyclePhase 0 = fpZero := by decide +kernel

theorem fSin_fpZero : fSin fpZero = fpZero := if_pos rfl

theorem fAsin_fpZero : fAsin fpZero = fpZero := if_pos rfl

theorem fExp2_fpZero : fExp2 fpZero = fpOne := if_pos (by decide)

theorem dbToAmp_fpZero : dbToAmp fpZero = fpOne := if_pos rfl

theorem wtSine_zero : wtSine 0 = fpZero := by
  have h : fMul twoPi fpZero = fpZero := by decide +kernel
  rw [wtSine, cyclePhase_zero, h, fSin_fpZero]

theorem wtTriangle_zero : wtTriangle 0 = fpZero := by
  rw [wtTriangle, wtSine_zero, fAsin_fpZero]
  decide +kernel

theorem wtSquare_zero : wtSquare 0 = fpOne := by
  rw [wtSquare, wtSine_zero]
  decide

/-- Every harmonic of the first Saw entry is a sine of +0.0, so the free part of `sin` is never asked. -/
theorem wtSaw_zero : wtSaw 0 = fpZero := by decide +kernel

theorem wtSquare_eq_one_or_minusOne (k : Nat) : wtSquare k = fpOne ∨ wtSquare k = fpMinusOne :=
  ite_eq_or_eq _ _ _

/-- Saw over the harmonics 1 to 40 in order, as R141 writes the sum. -/
theorem wtSaw_eq (k : Nat) :
    wtSaw k = fMul ((List.range' 1 40).foldl (fun acc h => fAdd acc (sawHarmonic k h)) fpZero) twoOverPi := by
  have h : (List.range harmonics).map (· + 1) = List.range' 1 40 := by decide
  rw [wtSaw, h]

/-! ### The configuration functions and MIDI_HZ -/

/-- R8's `db_to_amp(−20.0) ≈ 0.1`, whatever the free function answers. -/
theorem dbToAmp_minusTwenty :
    fLe fp005 (dbToAmp fpMinusTwenty) = true ∧ fLt (dbToAmp fpMinusTwenty) fp015 = true := by
  have h : dbToAmp fpMinusTwenty = fWithin fp005 fp015 fp01 (Config.dbToAmpFree fpMinusTwenty) := by
    rw [dbToAmp, if_neg (by decide), if_pos rfl]
  exact h ▸ fWithin_mem (by decide) _

theorem romHz_of_ne {n : Pitch} (h : n ≠ 81) :
    romHz n = fMul fp440 (fExp2 (fDiv (fOfInt ((n.val : Int) - 69)) fpTwelve)) := if_neg h

/-- The formula gives 440.0 exactly at pitch 69, where the exponent is +0.0. -/
theorem romHz_69 : romHz 69 = fp440 := by
  have h : fDiv (fOfInt (((69 : Pitch).val : Int) - 69)) fpTwelve = fpZero := by decide +kernel
  rw [romHz_of_ne (by decide), h, fExp2_fpZero]
  decide +kernel

theorem romHz_81 : romHz 81 = fp880 := if_pos rfl

/-- Settles O32: the constants are computed once, and each table is its formula over them. -/
theorem romProperties : Obligations.RomProperties := by
  refine ⟨wtSquare_eq_one_or_minusOne, ⟨wtSine_zero, wtTriangle_zero, wtSaw_zero, wtSquare_zero⟩, romHz_69, romHz_81,
    ⟨fExp2_fpZero, dbToAmp_fpZero, dbToAmp_minusTwenty⟩, fun _ => romHz_of_ne, ⟨rfl, rfl, rfl, rfl, rfl⟩, ?_⟩
  rintro k _ _ _ rfl rfl rfl
  refine ⟨?_, rfl, rfl, ?_⟩
  · rw [wtSine, twoPi_eq, cyclePhase]
  · rw [wtSaw_eq]
    simp only [sawHarmonic, twoPi_eq, cyclePhase]
    rfl

end Sys2Proof.Machine
end

section
/-! O38: what `fRound` delivers, the operations of finite operands as one rounding of the exact result, and the exact
floor. -/

namespace Sys2Proof.Machine

/-! ### The rounding every operation ends in -/

theorem fUnit_pos : 0 < fUnit := by unfold fUnit; positivity

/-- A number with a sign put in front of its magnitude, as a rounding takes them. -/
def signed (neg : Bool) (n : Nat) : Int := if neg then -(n : Int) else (n : Int)

theorem fVal_eq_signed (x : F64) : fVal x = signed (fSign x) (fMag x) := rfl

@[simp] theorem natAbs_signed (neg : Bool) (n : Nat) : (signed neg n).natAbs = n := by cases neg <;> simp [signed]

@[simp] theorem signed_zero (neg : Bool) : signed neg 0 = 0 := by cases neg <;> simp [signed]

theorem signed_mul (a b : Bool) (m n : Nat) : signed a m * signed b n = signed (a != b) (m * n) := by
  cases a <;> cases b <;> simp [signed]

theorem signed_mul_nat (neg : Bool) (m n : Nat) : signed neg m * n = signed neg (m * n) := by
  cases neg <;> simp [signed]

/-- An integer is its absolute value under its sign. -/
theorem signed_natAbs (z : Int) : signed (decide (z < 0)) z.natAbs = z := by
  simp only [signed, decide_eq_true_eq]
  split <;> omega

theorem decide_signed_neg {neg : Bool} {n : Nat} (h : signed neg n ≠ 0) : decide (signed neg n < 0) = neg := by
  cases neg <;> simp_all [signed]; omega

theorem natAbs_signed_sub_same (neg : Bool) (m n : Nat) :
    (signed neg m - signed neg n).natAbs = ((m : Int) - n).natAbs := by
  cases neg <;> simp [signed]; omega

theorem natAbs_signed_sub_opposite (neg : Bool) (m n : Nat) : (signed (!neg) m - signed neg n).natAbs = m + n := by
  cases neg <;> simp [signed] <;> omega

/-- No finite value is nearer to the signed quotient than the rounded one, and where another is as near the rounded
significand is even. A value of the other sign is no nearer than zero is. -/
theorem nearest_fVal {neg : Bool} {n d : Nat} (hd : 0 < d) (hfin : roundMag n d < 2047 * 2 ^ 52) (w : F64) :
    (fVal (fRound neg n d) * d - signed neg n).natAbs ≤ (fVal w * d - signed neg n).natAbs ∧
    ((fVal (fRound neg n d) * d - signed neg n).natAbs = (fVal w * d - signed neg n).natAbs →
      fVal w ≠ fVal (fRound neg n d) → fSig (fRound neg n d) % 2 = 0) := by
  have hw := nearest_mag (w := w) hd (fRound_mod neg n d) hfin
  have h0 := nearest_mag (w := 0#64) hd (fRound_mod neg n d) hfin
  have hz0 : fMag 0#64 = 0 := by decide
  have hz : fVal (fRound neg n d) = signed neg (fMag (fRound neg n d)) := by rw [fVal_eq_signed, fSign_fRound]
  rw [hz, fVal_eq_signed w, signed_mul_nat, signed_mul_nat, natAbs_signed_sub_same]
  by_cases hs : fSign w = neg
  · rw [hs, natAbs_signed_sub_same]
    exact ⟨hw.1, fun he hne => hw.2 he fun h => hne (h ▸ rfl)⟩
  · rw [show fSign w = !neg by cases neg <;> simpa using hs, natAbs_signed_sub_opposite]
    rw [hz0] at h0
    refine ⟨by omega, fun he hne => ?_⟩
    have hw0 : fMag w = 0 := by
      have : fMag w * d = 0 := by omega
      exact (Nat.mul_eq_zero.mp this).resolve_right hd.ne'
    rw [hw0] at hw hne he
    refine hw.2 (by omega) fun h => hne ?_
    rw [← h, signed_zero, signed_zero]

/-- R10 of the one rounding: `fRound` delivers the exact quotient rounded to nearest, ties to even. -/
theorem roundsTo_fRound (neg : Bool) (n : Nat) {d : Nat} (hd : 0 < d) : RoundsTo (fRound neg n d) (signed neg n) d where
  finite_iff := by rw [natAbs_signed, fIsFinite_fRound, roundMag_lt_iff hd]
  overflow h := by
    by_contra hi
    have := (fIsFinite_iff (fRound neg n d)).mpr ⟨fIsNaN_fRound neg n d, by simpa using hi⟩
    simp [h] at this
  nearest h w _ := (nearest_fVal hd ((fIsFinite_fRound neg n d).mp h) w).1
  tieEven h w _ := (nearest_fVal hd ((fIsFinite_fRound neg n d).mp h) w).2
  sign h := by rw [fSign_fRound, decide_signed_neg h]

/-- A zero of either sign is the rounding of an exact zero. -/
theorem roundsTo_fPack_zero (neg : Bool) : RoundsTo (fPack neg 0) 0 1 := by
  simpa [fPack_zero] using roundsTo_fRound neg 0 Nat.one_pos

/-! ### The operations of finite operands -/

section
variable {x y : F64} (hx : fIsFinite x = true) (hy : fIsFinite y = true)
include hx hy

/-- The sum of finite values: a signed zero, or one rounding. -/
theorem fAddOrdered_of_finite :
    fAddOrdered x y =
      if fVal x + fVal y = 0 then fPack (fSign x && fSign y) 0
      else fRound (decide (fVal x + fVal y < 0)) (fVal x + fVal y).natAbs 1 := by
  simp [fAddOrdered, fIsInf_of_finite hx, fIsInf_of_finite hy]

theorem fAdd_of_finite : fAdd x y = fAddOrdered x y := by
  simp [fAdd, fIsNaN_of_finite hx, fIsNaN_of_finite hy, fIsInf_of_finite hx]

theorem fSub_of_finite : fSub x y = fAddOrdered x (fNeg y) := by
  simp [fSub, fIsNaN_of_finite hx, fIsNaN_of_finite hy, fIsInf_of_finite hx]

theorem fMul_of_finite : fMul x y = fRound (fSign x != fSign y) (fMag x * fMag y) fUnit := by
  simp [fMul, fIsNaN_of_finite hx, fIsNaN_of_finite hy, fIsInf_of_finite hx, fIsInf_of_finite hy]

/-- A quotient by a divisor that is not zero is one rounding. -/
theorem fDiv_of_finite (h : fVal y ≠ 0) : fDiv x y = fRound (fSign x != fSign y) (fMag x * fUnit) (fMag y) := by
  have hz : fIsZero y = false := by simpa using mt (fVal_zero_iff hy).mpr h
  simp [fDiv, fIsNaN_of_finite hx, fIsNaN_of_finite hy, fIsInf_of_finite hx, fIsInf_of_finite hy, hz]

theorem roundsTo_fAddOrdered : RoundsTo (fAddOrdered x y) (fVal x + fVal y) 1 := by
  rw [fAddOrdered_of_finite hx hy]
  split
  · rename_i h
    rw [h]
    exact roundsTo_fPack_zero _
  · simpa only [signed_natAbs] using
      roundsTo_fRound (decide (fVal x + fVal y < 0)) (fVal x + fVal y).natAbs Nat.one_pos

/-- An exact zero sum has the sign both operands have, and else is +0.0. -/
theorem fSign_fAddOrdered_of_zero (h : fVal x + fVal y = 0) : fSign (fAddOrdered x y) = (fSign x && fSign y) := by
  rw [fAddOrdered_of_finite hx hy, if_pos h, fSign_fPack _ (by norm_num)]

theorem roundsTo_fMul : RoundsTo (fMul x y) (fVal x * fVal y) fUnit := by
  rw [fMul_of_finite hx hy, fVal_eq_signed x, fVal_eq_signed y, signed_mul]
  exact roundsTo_fRound _ _ fUnit_pos

/-- A quotient rounds the exact one, with the divisor's sign moved to the dividend. -/
theorem roundsTo_fDiv (h : fVal y ≠ 0) :
    RoundsTo (fDiv x y) (signed (fSign x != fSign y) (fMag x * fUnit)) (fVal y).natAbs := by
  have hm : (fVal y).natAbs = fMag y := by rw [fVal_eq_signed, natAbs_signed]
  rw [fDiv_of_finite hx hy h, hm]
  exact roundsTo_fRound _ _ (by omega)

end

/-- The sign of a value that is not zero is the sign of the number it stands for. -/
theorem fSign_of_fVal_ne_zero {x : F64} (h : fVal x ≠ 0) : fSign x = decide (fVal x < 0) := by
  rw [fVal_eq_signed] at h ⊢
  exact (decide_signed_neg h).symm

theorem roundsTo_fDiv_of_pos {x y : F64} (hx : fIsFinite x = true) (hy : fIsFinite y = true) (h : 0 < fVal y) :
    RoundsTo (fDiv x y) (fVal x * fUnit) (fVal y).natAbs := by
  have hs : fSign y = false := by rw [fSign_of_fVal_ne_zero h.ne']; simpa using h.le
  have := roundsTo_fDiv hx hy h.ne'
  rwa [hs, Bool.bne_false, ← signed_mul_nat, ← fVal_eq_signed] at this

theorem roundsTo_fDiv_of_neg {x y : F64} (hx : fIsFinite x = true) (hy : fIsFinite y = true) (h : fVal y < 0) :
    RoundsTo (fDiv x y) (-(fVal x * fUnit)) (fVal y).natAbs := by
  have hs : fSign y = true := by rw [fSign_of_fVal_ne_zero h.ne]; simpa using h
  have hneg : ∀ (b : Bool) (m : Nat), signed (b != true) m = -signed b m := by intro b m; cases b <;> simp [signed]
  have := roundsTo_fDiv hx hy h.ne
  rwa [hs, hneg, ← signed_mul_nat, ← fVal_eq_signed] at this

/-- `float(n)` of an integer is the rounded integer. -/
theorem roundsTo_fOfInt (n : Int) : RoundsTo (fOfInt n) (n * fUnit) 1 := by
  have := roundsTo_fRound (decide (n < 0)) (n.natAbs * fUnit) Nat.one_pos
  rwa [← signed_mul_nat, signed_natAbs] at this

theorem roundsTo_fOfNat (n : Nat) : RoundsTo (fOfNat n) (n * fUnit) 1 := by
  have := roundsTo_fRound false (n * fUnit) Nat.one_pos
  rwa [← signed_mul_nat] at this

/-! ### The floor is exact -/

/-- A magnitude of at most 53 significant bits within the range of binary64 is its own rounding. -/
theorem fMag_fRound_of_fits (neg : Bool) {q j : Nat} (hq : q < 2 ^ 53) (hj : j ≤ 2045) :
    fIsFinite (fRound neg (q * 2 ^ j) 1) = true ∧ fMag (fRound neg (q * 2 ^ j) 1) = q * 2 ^ j := by
  have hlt : q * 2 ^ j < (2 ^ 54 - 1) * 2 ^ 2044 * 1 := by
    have hpow : 2 ^ j ≤ 2 ^ 2044 * 2 := by
      rw [← pow_succ]
      exact pow_le_pow_right₀ (by decide) hj
    have hpos : 0 < 2 ^ 2044 := by positivity
    have hmul : q * 2 ^ j ≤ (2 ^ 53 - 1) * (2 ^ 2044 * 2) := Nat.mul_le_mul (by omega) hpow
    generalize 2 ^ 2044 = X at *
    omega
  have hfin := (roundMag_lt_iff Nat.one_pos).mpr hlt
  have hshift : roundShift (q * 2 ^ j) 1 ≤ j := by
    by_contra hc
    have h1 := le_div_of_shift (n := q * 2 ^ j) (d := 1) (by omega)
    have h2 : q * 2 ^ j < 2 ^ (53 + j) := by
      rw [pow_add]
      exact Nat.mul_lt_mul_of_pos_right hq (Nat.two_pow_pos j)
    have h3 : 2 ^ (53 + j) ≤ 2 ^ (roundShift (q * 2 ^ j) 1 + 52) := Nat.pow_le_pow_right (by decide) (by omega)
    rw [Nat.div_one] at h1
    omega
  refine ⟨(fIsFinite_fRound _ _ _).mpr hfin, ?_⟩
  obtain ⟨hb, hk⟩ := roundHalfEven_bounds (q * 2 ^ j) 1 Nat.one_pos
  have hpat := fRound_mod neg (q * 2 ^ j) 1
  rw [roundMag_eq] at hpat hfin
  rw [Nat.min_eq_left (by omega)] at hpat
  rw [(fMag_of_pattern hpat hb hk).1]
  have hsplit : q * 2 ^ j = q * 2 ^ (j - roundShift (q * 2 ^ j) 1) * 2 ^ roundShift (q * 2 ^ j) 1 := by
    rw [Nat.mul_assoc, ← pow_add, Nat.sub_add_cancel hshift]
  generalize roundShift (q * 2 ^ j) 1 = k at hsplit ⊢
  rw [hsplit, Nat.one_mul, roundHalfEven_exact _ (Nat.two_pow_pos k)]

theorem fSig_lt (x : F64) : fSig x < 2 ^ 53 := by
  have := fFrac_lt x
  unfold fSig
  split <;> omega

/-- The floor of a finite value has at most 53 significant bits: above 2^52 the value is an integer itself, and else
the floor is at most 2^52. -/
theorem fFloorInt_fits {x : F64} (hx : fIsFinite x = true) :
    ∃ q j, q < 2 ^ 53 ∧ j ≤ 2045 ∧ (fFloorInt x).natAbs * fUnit = q * 2 ^ j := by
  have he := fExp_lt x
  have hne : fExp x ≠ 2047 := by simpa [fIsFinite] using hx
  have hsig := fSig_lt x
  by_cases h : 1074 ≤ fExp x - 1
  · refine ⟨fSig x, fExp x - 1, hsig, by omega, ?_⟩
    have hdvd : (fUnit : Int) ∣ fVal x := by
      have : fUnit ∣ fMag x := by
        rw [fUnit, fMag]
        exact (pow_dvd_pow 2 h).mul_left _
      rwa [← Int.natAbs_dvd_natAbs, fVal_eq_signed, natAbs_signed, Int.natAbs_natCast]
    calc (fFloorInt x).natAbs * fUnit = (fFloorInt x * (fUnit : Int)).natAbs := by
          rw [Int.natAbs_mul, Int.natAbs_natCast]
      _ = (fVal x).natAbs := by rw [fFloorInt, Int.ediv_mul_cancel hdvd]
      _ = fMag x := by rw [fVal_eq_signed, natAbs_signed]
  · refine ⟨(fFloorInt x).natAbs, 1074, ?_, by omega, by rw [fUnit]⟩
    have hmag : fMag x ≤ 2 ^ 52 * fUnit := by
      have hpow : 2 ^ (fExp x - 1) * 2 ≤ fUnit := by
        rw [← pow_succ, fUnit]
        exact pow_le_pow_right₀ (by decide) (by omega)
      calc fMag x ≤ 2 ^ 53 * 2 ^ (fExp x - 1) := Nat.mul_le_mul_right _ hsig.le
        _ = 2 ^ 52 * (2 ^ (fExp x - 1) * 2) := by ring
        _ ≤ 2 ^ 52 * fUnit := Nat.mul_le_mul_left _ hpow
    have habs : (fVal x).natAbs = fMag x := by rw [fVal_eq_signed, natAbs_signed]
    have hpos : (0 : Int) < (fUnit : Int) := Int.natCast_pos.mpr fUnit_pos
    have h1 : -(2 ^ 52 : Int) ≤ fFloorInt x := (Int.le_ediv_iff_mul_le hpos).mpr (by omega)
    have h2 : fFloorInt x < 2 ^ 52 + 1 := (Int.ediv_lt_iff_lt_mul hpos).mpr (by omega)
    omega

/-- The floor of a finite value is finite and exact. -/
theorem fFloor_exact {x : F64} (hx : fIsFinite x = true) :
    fIsFinite (fFloor x) = true ∧ fVal (fFloor x) = fFloorInt x * fUnit := by
  have heq : fFloor x = if fFloorInt x = 0 then fPack (fSign x) 0
      else fRound (decide (fFloorInt x < 0)) ((fFloorInt x).natAbs * fUnit) 1 := by
    simp [fFloor, fIsNaN_of_finite hx, fIsInf_of_finite hx]
  rw [heq]
  split
  · rename_i h
    have hz : ∀ b, fIsFinite (fPack b 0) = true ∧ fVal (fPack b 0) = 0 := by decide
    rw [h, zero_mul]
    exact hz _
  · obtain ⟨q, j, hq, hj, hqj⟩ := fFloorInt_fits hx
    obtain ⟨hfin, hmag⟩ := fMag_fRound_of_fits (decide (fFloorInt x < 0)) hq hj
    rw [hqj, fVal_eq_signed, fSign_fRound, hmag]
    exact ⟨hfin, by rw [← hqj, ← signed_mul_nat, signed_natAbs]⟩

/-- Settles O38: every operation of finite operands is one rounding of its exact result. -/
theorem roundingIsToNearestEven : Obligations.RoundingIsToNearestEven := by
  refine ⟨?_, ?_, roundsTo_fOfInt, roundsTo_fOfNat, fun x hx => fFloor_exact hx⟩
  · rintro neg n d _ hd rfl
    exact roundsTo_fRound neg n hd
  · intro x y hx hy
    have hn : fIsFinite (fNeg y) = true := by rw [fIsFinite_fNeg, hy]
    have hsub : fVal x - fVal y = fVal x + fVal (fNeg y) := by rw [fVal_fNeg, sub_eq_add_neg]
    rw [fAdd_of_finite hx hy, fSub_of_finite hx hy, hsub, ← fSign_fNeg]
    refine ⟨roundsTo_fAddOrdered hx hy, roundsTo_fAddOrdered hx hn, roundsTo_fMul hx hy, roundsTo_fDiv_of_pos hx hy,
      roundsTo_fDiv_of_neg hx hy, fSign_fAddOrdered_of_zero hx hy, fSign_fAddOrdered_of_zero hx hn, ?_, fun h => ?_⟩
    · rw [fMul_of_finite hx hy, fSign_fRound]
    · rw [fDiv_of_finite hx hy h, fSign_fRound]

end Sys2Proof.Machine
end

section
/-! O59: the comparisons, and the operations on NaN, infinities and zero divisors. -/

namespace Sys2Proof.Machine

/-! ### Infinities -/

/-- The magnitude bits of an infinity. -/
theorem mod_of_isInf {x : F64} (hx : fIsInf x = true) : x.toNat % 2 ^ 63 = 2047 * 2 ^ 52 := by
  simp only [fIsInf, fExp, fFrac, Bool.and_eq_true, beq_iff_eq] at hx
  omega

/-- The magnitude bits of a finite value lie below those of an infinity. -/
theorem mod_lt_of_finite {x : F64} (hx : fIsFinite x = true) : x.toNat % 2 ^ 63 < 2047 * 2 ^ 52 := by
  simp only [fIsFinite, fExp, bne_iff_ne] at hx
  omega

theorem fIsInf_fInfinity (neg : Bool) : fIsInf (fInfinity neg) = true := by cases neg <;> decide

theorem fSign_fInfinity (neg : Bool) : fSign (fInfinity neg) = neg := fSign_fPack neg (by norm_num)

/-- There is one infinity of each sign. -/
theorem eq_fInfinity_of_isInf {x : F64} (hx : fIsInf x = true) : x = fInfinity (fSign x) := by
  have hm := mod_of_isInf hx
  have hlt := x.isLt
  apply BitVec.eq_of_toNat_eq
  rw [fInfinity, fPack_toNat _ (by norm_num), fSign_eq]
  by_cases h : 2 ^ 63 ≤ x.toNat
  · rw [if_pos (decide_eq_true h)]; omega
  · rw [if_neg (by simpa using h)]; omega

theorem fIsNaN_of_isInf {x : F64} (hx : fIsInf x = true) : fIsNaN x = false := by
  simp only [fIsInf, Bool.and_eq_true, beq_iff_eq] at hx
  simp [fIsNaN, hx]

theorem fIsZero_of_isInf {x : F64} (hx : fIsInf x = true) : fIsZero x = false := by
  rw [fIsZero, mod_of_isInf hx]
  decide

theorem fIsInf_fNeg (x : F64) : fIsInf (fNeg x) = fIsInf x := by simp [fIsInf, fExp_fNeg, fFrac_fNeg]

/-- A negated infinity is the other one. -/
theorem fNeg_of_isInf {x : F64} (hx : fIsInf x = true) : fNeg x = fInfinity (!fSign x) := by
  rw [← fSign_fNeg]
  exact eq_fInfinity_of_isInf (by rw [fIsInf_fNeg, hx])

/-! ### Comparisons -/

/-- The place of an infinity in the order. -/
theorem fKey_of_isInf {x : F64} (hx : fIsInf x = true) :
    fKey x = if fSign x then -(2047 * 2 ^ 52) else 2047 * 2 ^ 52 := by
  rw [fKey, mod_of_isInf hx]
  rfl

/-- The place of a finite value lies between those of the infinities. -/
theorem fKey_of_finite {x : F64} (hx : fIsFinite x = true) :
    -(2047 * 2 ^ 52) < fKey x ∧ fKey x < 2047 * 2 ^ 52 := by
  have := mod_lt_of_finite hx
  unfold fKey
  split <;> omega

section
variable {x y : F64} (hx : fIsNaN x = false) (hy : fIsNaN y = false)
include hx hy

/-- Comparisons without a NaN compare places. -/
theorem fLt_eq : fLt x y = decide (fKey x < fKey y) := by simp [fLt, hx, hy]
theorem fLe_eq : fLe x y = decide (fKey x ≤ fKey y) := by simp [fLe, hx, hy]
theorem fEq_eq : fEq x y = decide (fKey x = fKey y) := by simp [fEq, hx, hy]

end

/-- `x == y` of finite values. -/
theorem fEq_iff {x y : F64} (hx : fIsFinite x = true) (hy : fIsFinite y = true) :
    fEq x y = true ↔ fVal x = fVal y := by
  rw [fEq_eq (fIsNaN_of_finite hx) (fIsNaN_of_finite hy), decide_eq_true_eq, le_antisymm_iff, le_antisymm_iff,
    fKey_le_iff hx hy, fKey_le_iff hy hx]

/-- An infinity lies beyond every finite value, on its sign's side. -/
theorem compare_isInf_finite {x y : F64} (hx : fIsInf x = true) (hy : fIsFinite y = true) :
    fLt x y = fSign x ∧ fLe x y = fSign x ∧ fEq x y = false
      ∧ fLt y x = !fSign x ∧ fLe y x = !fSign x ∧ fEq y x = false := by
  have hk := fKey_of_isInf hx
  obtain ⟨hlo, hhi⟩ := fKey_of_finite hy
  have nx := fIsNaN_of_isInf hx
  have ny := fIsNaN_of_finite hy
  rw [fLt_eq nx ny, fLt_eq ny nx, fLe_eq nx ny, fLe_eq ny nx, fEq_eq nx ny, fEq_eq ny nx]
  cases hs : fSign x
  · have : fKey x = 2047 * 2 ^ 52 := by rw [hk, hs]; rfl
    simp only [decide_eq_true_eq, decide_eq_false_iff_not, Bool.not_false]
    omega
  · have : fKey x = -(2047 * 2 ^ 52) := by rw [hk, hs]; rfl
    simp only [decide_eq_true_eq, decide_eq_false_iff_not, Bool.not_true]
    omega

/-- Infinities are ordered by their signs. -/
theorem compare_isInf_isInf {x y : F64} (hx : fIsInf x = true) (hy : fIsInf y = true) :
    fLt x y = (fSign x && !fSign y) ∧ fLe x y = (fSign x || !fSign y) ∧ fEq x y = (fSign x == fSign y) := by
  rw [fLt_eq (fIsNaN_of_isInf hx) (fIsNaN_of_isInf hy), fLe_eq (fIsNaN_of_isInf hx) (fIsNaN_of_isInf hy),
    fEq_eq (fIsNaN_of_isInf hx) (fIsNaN_of_isInf hy), fKey_of_isInf hx, fKey_of_isInf hy]
  cases fSign x <;> cases fSign y <;> decide

/-- The two infinities bound the finite values. -/
theorem finite_between_infinities {x : F64} (hx : fIsFinite x = true) :
    fLt x (fInfinity false) = true ∧ fLt (fInfinity true) x = true
      ∧ fLt (fInfinity false) x = false ∧ fLt x (fInfinity true) = false := by
  obtain ⟨above, -, -, below, -, -⟩ := compare_isInf_finite (fIsInf_fInfinity false) hx
  obtain ⟨above', -, -, below', -, -⟩ := compare_isInf_finite (fIsInf_fInfinity true) hx
  rw [fSign_fInfinity] at above below above' below'
  exact ⟨below, above', above, below'⟩

/-! ### Operations -/

/-- A NaN operand: comparisons are false and results are NaN. -/
theorem nan_operand {x y : F64} (h : fIsNaN x = true ∨ fIsNaN y = true) :
    fLt x y = false ∧ fLe x y = false ∧ fEq x y = false
      ∧ fIsNaN (fAdd x y) = true ∧ fIsNaN (fSub x y) = true ∧ fIsNaN (fMul x y) = true ∧ fIsNaN (fDiv x y) = true := by
  rcases h with h | h <;> simp [fLt, fLe, fEq, fAdd, fSub, fMul, fDiv, h, fIsNaN_fNaN]

/-- A sum whose first operand is infinite is that operand. -/
theorem fAddOrdered_isInf_left {x : F64} (hx : fIsInf x = true) (y : F64) : fAddOrdered x y = x := if_pos hx

/-- A sum whose second operand alone is infinite is the second. -/
theorem fAddOrdered_isInf_right {x y : F64} (hx : fIsFinite x = true) (hy : fIsInf y = true) : fAddOrdered x y = y := by
  simp [fAddOrdered, fIsInf_of_finite hx, hy]

/-- Sum and difference of an infinity and a finite value. -/
theorem addSub_isInf_finite {x y : F64} (hx : fIsInf x = true) (hy : fIsFinite y = true) :
    fAdd x y = x ∧ fAdd y x = x ∧ fSub x y = x ∧ fSub y x = fInfinity (!fSign x) := by
  have nx := fIsNaN_of_isInf hx
  have ny := fIsNaN_of_finite hy
  have iy := fIsInf_of_finite hy
  have hxn : fIsInf (fNeg x) = true := by rw [fIsInf_fNeg, hx]
  refine ⟨?_, ?_, ?_, ?_⟩
  · simp [fAdd, nx, ny, iy, fAddOrdered_isInf_left hx]
  · simp [fAdd, nx, ny, iy, fAddOrdered_isInf_right hy hx]
  · simp [fSub, nx, ny, iy, fAddOrdered_isInf_left hx]
  · rw [← fNeg_of_isInf hx]
    simp [fSub, nx, ny, iy, fAddOrdered_isInf_right hy hxn]

/-- Products and quotients of an infinity and a finite value: `∞ × 0` alone is a NaN. -/
theorem mulDiv_isInf_finite {x y : F64} (hx : fIsInf x = true) (hy : fIsFinite y = true) :
    fDiv x y = fInfinity (fSign x != fSign y) ∧ fDiv y x = fPack (fSign x != fSign y) 0
      ∧ (fVal y = 0 → fIsNaN (fMul x y) = true ∧ fIsNaN (fMul y x) = true)
      ∧ (fVal y ≠ 0 → fMul x y = fInfinity (fSign x != fSign y) ∧ fMul y x = fInfinity (fSign x != fSign y)) := by
  have nx := fIsNaN_of_isInf hx
  have ny := fIsNaN_of_finite hy
  have iy := fIsInf_of_finite hy
  have zx := fIsZero_of_isInf hx
  have hs : (fSign y != fSign x) = (fSign x != fSign y) := bne_comm
  refine ⟨?_, ?_, fun h => ?_, fun h => ?_⟩
  · simp [fDiv, nx, ny, iy, zx, hx]
  · simp [fDiv, nx, ny, iy, zx, hx, hs]
  · have zy := (fVal_zero_iff hy).mp h
    simp [fMul, hx, zy, fIsNaN_fNaN]
  · have zy : fIsZero y = false := by simpa using mt (fVal_zero_iff hy).mpr h
    simp [fMul, nx, ny, iy, zx, zy, hx, hs]

/-- Operations on two infinities. -/
theorem arith_isInf_isInf {x y : F64} (hx : fIsInf x = true) (hy : fIsInf y = true) :
    fMul x y = fInfinity (fSign x != fSign y) ∧ fIsNaN (fDiv x y) = true
      ∧ (fSign x = fSign y → fAdd x y = x ∧ fIsNaN (fSub x y) = true)
      ∧ (fSign x ≠ fSign y → fIsNaN (fAdd x y) = true ∧ fSub x y = x) := by
  have nx := fIsNaN_of_isInf hx
  have ny := fIsNaN_of_isInf hy
  refine ⟨?_, ?_, fun h => ⟨?_, ?_⟩, fun h => ⟨?_, ?_⟩⟩
  · simp [fMul, nx, ny, hx, fIsZero_of_isInf hx, fIsZero_of_isInf hy]
  · simp [fDiv, hx, hy, fIsNaN_fNaN]
  · simp [fAdd, nx, ny, h, fAddOrdered_isInf_left hx]
  · simp [fSub, hx, hy, h, fIsNaN_fNaN]
  · simp [fAdd, hx, hy, h, fIsNaN_fNaN]
  · simp [fSub, nx, ny, h, fAddOrdered_isInf_left hx]

/-- A zero divisor: `0 / 0` is a NaN, and any other finite value over zero is an infinity. -/
theorem fDiv_finite_zero {x y : F64} (hx : fIsFinite x = true) (h : fVal y = 0) (hy : fIsFinite y = true) :
    (fVal x = 0 → fIsNaN (fDiv x y) = true) ∧ (fVal x ≠ 0 → fDiv x y = fInfinity (fSign x != fSign y)) := by
  have zy := (fVal_zero_iff hy).mp h
  refine ⟨fun h0 => ?_, fun h0 => ?_⟩
  · have zx := (fVal_zero_iff hx).mp h0
    simp [fDiv, zx, zy, fIsNaN_fNaN]
  · have zx : fIsZero x = false := by simpa using mt (fVal_zero_iff hx).mpr h0
    simp [fDiv, fIsNaN_of_finite hx, fIsNaN_of_finite hy, fIsInf_of_finite hx, zx, zy]

/-- Settles O59, class of operands by class. -/
theorem specialOperandsFollowIeee : Obligations.SpecialOperandsFollowIeee := by
  intro x y
  refine ⟨fun hx hy => ⟨fLt_iff hx hy, fLe_iff hx hy, fEq_iff hx hy⟩, nan_operand, finite_between_infinities,
    compare_isInf_finite, compare_isInf_isInf, fun hx hy => ?_, arith_isInf_isInf, fDiv_finite_zero⟩
  obtain ⟨add, add', sub, sub'⟩ := addSub_isInf_finite hx hy
  exact ⟨add, add', sub, sub', mulDiv_isInf_finite hx hy⟩

end Sys2Proof.Machine
end

section
/-! What the parts of a step leave of the state, said once for the statements of 10_state.md: their frames, and what
they do to the bank of oscillators. -/

namespace Sys2Proof.Machine

/-! ### Frames -/

/-- No command writes SR, TICK, OUT_SAMPLE, the parameters or the environment. -/
theorem CommandEffect.frame {s t : State} (h : CommandEffect s t) :
    t = { s with
      pb := t.pb, bend := t.bend, status := t.status, fifo := t.fifo, mmode := t.mmode, osc := t.osc
      master := t.master } := by
  cases h with
  | route i o new c ho ha hn => rw [reroute_frame]; rfl
  | _ => rfl

/-- A push touches nothing but the FIFO and STATUS (R85). -/
theorem push_frame (w : CmdWord) (s : State) :
    push w s = { s with fifo := (push w s).fifo, status := (push w s).status } := by
  unfold push
  split
  · rfl
  · split <;> rfl

/-- A calculation touches nothing but the bank, STATUS and the noise inputs (R150). -/
theorem oscCalc_frame (i : Nat) (s : State) :
    (oscCalc i s).state = { s with
      osc := (oscCalc i s).state.osc, status := (oscCalc i s).state.status
      noiseIn := (oscCalc i s).state.noiseIn, noiseCount := (oscCalc i s).state.noiseCount } := by
  rcases oscCalc_cases i s with ⟨h, -⟩ | ⟨o, l, n, -, -, -, -, h⟩
  · rw [h]
  · rw [h]; rfl

/-- A delivery touches nothing but the bank (R204). -/
theorem deliver_frame (s : State) (i j : Nat) (v : F64) :
    deliver s i j v = { s with osc := (deliver s i j v).osc } := by
  unfold deliver
  split <;> rfl

/-- The mixer touches nothing but the master amplifier (R200). -/
theorem mixer_frame (c : Computed) : (mixer c).state = { c.state with master := (mixer c).state.master } := by
  unfold mixer
  split <;> rfl

/-- The mixer leaves the master amplifier, or calculates it once (R200). -/
theorem mixer_master (c : Computed) :
    (mixer c).state.master = c.state.master ∨
      (mixer c).state.master = ampAfterCalc c.state.tick c.state.sr c.state.master := by
  unfold mixer
  split
  · exact .inr rfl
  · exact .inl rfl

/-! ### The bank -/

/-- What a bank shows under f, where the oscillator written shows what the old one did. -/
theorem map_set_of_eq {α : Type} {l : List Oscillator} {i : Nat} {o o' : Oscillator} {f : Oscillator → α}
    (h : l[i]? = some o) (hf : f o' = f o) : (l.set i o').map f = l.map f := by
  obtain ⟨hi, rfl⟩ := List.getElem?_eq_some_iff.mp h
  rw [List.map_set, hf, ← List.getElem_map f (h := by simpa using hi), List.set_getElem_self]

/-- What a command leaves of a bank under f, where no parameter and no note shows in f: all of it, or the bank is that
of an accepted change of route. -/
theorem CommandEffect.osc_map {α : Type} {f : Oscillator → α} (hparam : ∀ o o', ParamWrite o o' → f o' = f o)
    (hon : ∀ now p o, f (o.noteOn now p) = f o) (hoff : ∀ now p o, f (o.noteOff now p) = f o) {s t : State}
    (h : CommandEffect s t) :
    t.osc.map f = s.osc.map f ∨
      ∃ i o new, s.osc[i]? = some o ∧ routeRejected s i o new = false ∧ new ≠ o.out ∧
        t.osc = (reroute s i o.out new).osc := by
  cases h with
  | param i o o' c ho hw => exact .inl (map_set_of_eq ho (hparam o o' hw))
  | route i o new c ho ha hn => exact .inr ⟨i, o, new, ho, ha, hn, rfl⟩
  | noteOn p c => exact .inl (by simp [Function.comp_def, hon])
  | noteOff p c => exact .inl (by simp [Function.comp_def, hoff])
  | _ => exact .inl rfl

/-- What a calculation leaves of a bank under f, where no calculation shows in f. -/
theorem oscCalc_osc_map {α : Type} {f : Oscillator → α} (hf : ∀ (s : State) o, f (o.afterCalc s) = f o) (i : Nat)
    (s : State) : (oscCalc i s).state.osc.map f = s.osc.map f := by
  rcases oscCalc_cases i s with ⟨h, -⟩ | ⟨o, l, n, ho, -, -, -, h⟩
  · rw [h]
  · rw [h]
    exact map_set_of_eq ho (hf s o)

/-- What a delivery leaves of a bank under f, where no write of a slot shows in f. -/
theorem deliver_osc_map {α : Type} {f : Oscillator → α}
    (hf : ∀ (o : Oscillator) i v, f { o with slots := slotWrite i v o.slots } = f o) (s : State) (i j : Nat) (v : F64) :
    (deliver s i j v).osc.map f = s.osc.map f := by
  unfold deliver
  split
  · rename_i oj hj
    exact map_set_of_eq hj (hf oj i v)
  · rfl

/-- An oscillator of a rerouted bank is the old one with other slots and another target. -/
theorem reroute_mem {s : State} {i : Nat} {old new : Target} {o' : Oscillator} (h : o' ∈ (reroute s i old new).osc) :
    ∃ o ∈ s.osc, ∃ l t, o' = { o with slots := l, out := t } := by
  obtain ⟨k, hk⟩ := List.mem_iff_getElem?.mp h
  rw [reroute_osc, Option.map_eq_some_iff] at hk
  obtain ⟨o, ho, rfl⟩ := hk
  exact ⟨o, List.mem_of_getElem? ho, _, _, rfl⟩

/-- What a change of route leaves of a bank under f, where neither slots nor target show in f. -/
theorem reroute_osc_map {α : Type} {f : Oscillator → α}
    (hf : ∀ (o : Oscillator) l t, f { o with slots := l, out := t } = f o) (s : State) (i : Nat) (old new : Target) :
    (reroute s i old new).osc.map f = s.osc.map f := by
  refine List.ext_getElem? fun k => ?_
  rw [List.getElem?_map, List.getElem?_map, reroute_osc, Option.map_map]
  exact congrArg (Option.map · _) (funext fun o => hf o _ _)

/-! ### Steps -/

/-- A step performs the host's next step. -/
theorem step_cons {s : State} {h : HostStep} {rest : List HostStep} (hi : s.inbox = h :: rest) :
    step s = hostStep h { s with inbox := rest } := by
  simp [step, hi]

/-- A step is idle where the host takes none (R342). -/
theorem step_nil {s : State} (hi : s.inbox = []) : step s = .next s := by simp [step, hi]

end Sys2Proof.Machine
end

section
/-! O53: the routes. They are read through the wiring of the bank, which OUTPUT and reset alone change. -/

namespace Sys2Proof.Machine

/-- The two registers of an oscillator that R41 and R42 speak of: OUT and FMIN. -/
def Oscillator.wiring (o : Oscillator) : Target × List Nat := (o.out, o.fmin)

/-- The routing invariant reads the wiring alone. -/
theorem State.RoutingInv.of_wiring {s t : State} (r : s.RoutingInv)
    (h : t.osc.map Oscillator.wiring = s.osc.map Oscillator.wiring) : t.RoutingInv := by
  have old : ∀ {k : Nat} {o' : Oscillator}, t.osc[k]? = some o' →
      ∃ o, s.osc[k]? = some o ∧ o.out = o'.out ∧ o.fmin = o'.fmin := by
    intro k o' ho'
    have hk := congrArg (·[k]?) h
    simp only [List.getElem?_map, ho', Option.map_some] at hk
    obtain ⟨o, ho, he⟩ := Option.map_eq_some_iff.mp hk.symm
    exact ⟨o, ho, Prod.mk.inj he⟩
  have hlen : t.nOsc = s.nOsc := by simpa [State.nOsc] using congrArg List.length h
  refine ⟨fun i j oi' oj' hi hj hne => ?_, fun k j ok' hk hj => ?_, fun i o' hi => ?_⟩
  · obtain ⟨oi, hi, hout, -⟩ := old hi
    obtain ⟨oj, hj, -, hfm⟩ := old hj
    rw [← hout, ← hfm]
    exact r.routed i j oi oj hi hj hne
  · obtain ⟨ok, hk, hout, hfm⟩ := old hk
    obtain ⟨hne, hnil, oj, hoj, hm⟩ := r.oneLevel k j ok hk (hout.trans hj)
    have hjt : j < t.nOsc := hlen ▸ s.lt_of_get hoj
    obtain ⟨oj', hoj'⟩ := t.get_of_lt hjt
    obtain ⟨oj₁, hoj₁, hout₁, -⟩ := old hoj'
    cases hoj.symm.trans hoj₁
    exact ⟨hne, hfm ▸ hnil, oj', hoj', hout₁ ▸ hm⟩
  · obtain ⟨o, hi, -, hfm⟩ := old hi
    rw [← hfm, hlen]
    exact r.slotsLegal i o hi

/-- An oscillator after a change of route, in the terms of R41: its target, and who feeds it. -/
theorem reroute_get {s : State} {i k : Nat} {old new : Target} {o' : Oscillator}
    (h : (reroute s i old new).osc[k]? = some o') :
    ∃ o, s.osc[k]? = some o ∧ o'.out = (if k = i then new else o.out) ∧
      o'.fmin = (reroutedSlots i k old new o.slots).map Prod.fst ∧
      ∀ m, m ∈ o'.fmin ↔ (m = i ∧ new = .osc k) ∨ (m ∈ o.fmin ∧ ¬(m = i ∧ old = .osc k)) := by
  rw [reroute_osc, Option.map_eq_some_iff] at h
  obtain ⟨o, ho, rfl⟩ := h
  exact ⟨o, ho, rfl, rfl, fun m => mem_keys_reroutedSlots i k m old new o.slots⟩

/-- A change of route keeps FMIN ascending. -/
theorem keys_reroutedSlots_ascending (i k : Nat) (old new : Target) {l : List (Nat × F64)}
    (h : (l.map Prod.fst).Pairwise (· < ·)) : ((reroutedSlots i k old new l).map Prod.fst).Pairwise (· < ·) := by
  have he : ((if old = .osc k then slotErase i l else l).map Prod.fst).Pairwise (· < ·) := by
    split
    · exact keys_slotErase_ascending i h
    · exact h
  rw [reroutedSlots]
  by_cases h : new = .osc k
  · simpa only [if_pos h] using keys_slotInsert_ascending i fpZero he
  · simpa only [if_neg h] using he

section
variable {s : State} {i : Nat} {oi : Oscillator} {new : Target} (r : s.RoutingInv) (hi : s.osc[i]? = some oi)
include r hi

/-- R41 after a change of route: only the membership of i moves, with its target. -/
theorem routed_reroute : (reroute s i oi.out new).Routed := by
  intro a b oa' ob' ha' hb' hab
  obtain ⟨oa, ha, hout, -, -⟩ := reroute_get ha'
  obtain ⟨ob, hb, -, -, hmem⟩ := reroute_get hb'
  have hr := r.routed a b oa ob ha hb hab
  rw [hmem, hout]
  by_cases hai : a = i
  · subst hai
    cases hi.symm.trans ha
    rw [if_pos rfl, hr]
    tauto
  · simp [hai, hr]

/-- R42 after an accepted change of route: the new target is a carrier without this oscillator's own inputs. -/
theorem oneLevel_reroute (ha : routeRejected s i oi new = false) (hn : new ≠ oi.out) :
    (reroute s i oi.out new).OneLevel := by
  have carrier : ∀ {j : Nat} {oj : Oscillator}, s.osc[j]? = some oj → (j = i → new = .master) → oj.out = .master →
      ∃ oj', (reroute s i oi.out new).osc[j]? = some oj' ∧ oj'.out = .master := by
    intro j oj hj hji hm
    refine ⟨_, by rw [reroute_osc, hj]; rfl, ?_⟩
    by_cases h : j = i
    · exact (if_pos h).trans (hji h)
    · exact (if_neg h).trans hm
  intro k j ok' hk' hkj
  obtain ⟨ok, hk, hout, -, hmem⟩ := reroute_get hk'
  rw [hout] at hkj
  by_cases hki : k = i
  · subst hki
    cases hi.symm.trans hk
    rw [if_pos rfl] at hkj
    subst hkj
    obtain ⟨oj, hj, hjk, hm, hnil⟩ := routeRejected_eq_false.mp ha
    refine ⟨hjk, List.eq_nil_iff_forall_not_mem.mpr fun m hm' => ?_, carrier hj (fun h => absurd h hjk) hm⟩
    rcases (hmem m).mp hm' with ⟨-, h⟩ | ⟨h, -⟩
    · exact hjk (Target.osc.inj h)
    · simp [Oscillator.fmin, hnil] at h
  · rw [if_neg hki] at hkj
    obtain ⟨hne, hnil, oj, hj, hm⟩ := r.oneLevel k j ok hk hkj
    refine ⟨hne, List.eq_nil_iff_forall_not_mem.mpr fun m hm' => ?_, carrier hj (fun h => ?_) hm⟩
    · rcases (hmem m).mp hm' with ⟨-, h⟩ | ⟨h, -⟩
      · subst h
        obtain ⟨ok₁, hk₁, -, hmaster, -⟩ := routeRejected_eq_false.mp ha
        cases hk.symm.trans hk₁
        rw [hmaster] at hkj
        cases hkj
      · rw [hnil] at h
        cases h
    · subst h
      cases hi.symm.trans hj
      have hin : k ∈ oi.fmin := (r.routed k j ok oi hk hj (Ne.symm hne)).mpr hkj
      cases new with
      | master => rfl
      | osc j' =>
        obtain ⟨-, -, -, -, hslots⟩ := routeRejected_eq_false.mp ha
        simp [Oscillator.fmin, hslots] at hin

/-- The legal values of FMIN after an accepted change of route. -/
theorem slotsLegal_reroute (ha : routeRejected s i oi new = false) : (reroute s i oi.out new).SlotsLegal := by
  intro k o' hk'
  obtain ⟨o, hk, -, hfm, hmem⟩ := reroute_get hk'
  obtain ⟨hasc, hlegal⟩ := r.slotsLegal k o hk
  refine ⟨hfm ▸ keys_reroutedSlots_ascending _ _ _ _ hasc, fun m hm => ?_⟩
  rw [reroute_nOsc]
  rcases (hmem m).mp hm with ⟨rfl, rfl⟩ | ⟨h, -⟩
  · obtain ⟨-, -, hne, -, -⟩ := routeRejected_eq_false.mp ha
    exact ⟨s.lt_of_get hi, Ne.symm hne⟩
  · exact hlegal m h

/-- An accepted change of route keeps the routes legal. -/
theorem routingInv_reroute (ha : routeRejected s i oi new = false) (hn : new ≠ oi.out) :
    (reroute s i oi.out new).RoutingInv :=
  ⟨routed_reroute r hi, oneLevel_reroute r hi ha hn, slotsLegal_reroute r hi ha⟩

end

/-- After reset there are no routes but to Master. -/
theorem routingInv_afterReset (p : Params) (ls : List Bool) (lm : Bool) (sr : F64) :
    (State.afterReset p ls lm sr).RoutingInv := by
  have unrouted : ∀ {k : Nat} {o : Oscillator}, (State.afterReset p ls lm sr).osc[k]? = some o →
      o.out = .master ∧ o.fmin = [] := by
    intro k o hk
    obtain ⟨l, -, rfl⟩ := List.mem_map.mp (List.mem_of_getElem? hk)
    exact ⟨rfl, rfl⟩
  refine ⟨fun i j oi oj hi hj _ => ?_, fun k j ok hk hout => ?_, fun i o hi => ?_⟩
  · simp [(unrouted hi).1, (unrouted hj).2]
  · rw [(unrouted hk).1] at hout
    cases hout
  · simp [(unrouted hi).2]

/-- OUTPUT aside, a command leaves the wiring; OUTPUT moves it legally. -/
theorem CommandEffect.routingInv {s t : State} (r : s.RoutingInv) (h : CommandEffect s t) : t.RoutingInv := by
  have hw := h.osc_map (f := Oscillator.wiring) (fun o o' hw => by cases hw <;> rfl) (fun _ _ _ => rfl)
    (fun _ _ _ => rfl)
  rcases hw with hw | ⟨i, o, new, ho, ha, hn, hw⟩
  · exact r.of_wiring hw
  · exact (routingInv_reroute r ho ha hn).of_wiring (congrArg _ hw)

/-- Every part of a step keeps the routes legal. -/
theorem routingInv_kept : Kept State.RoutingInv where
  environment _ _ _ r := r.of_wiring rfl
  pop _ _ _ _ r := r.of_wiring rfl
  push w s r := r.of_wiring (by rw [push_frame])
  command _ _ r h := h.routingInv r
  oscCalc i s r := r.of_wiring (oscCalc_osc_map (fun _ _ => rfl) i s)
  deliver s i j v r := r.of_wiring (deliver_osc_map (fun o i v => by simp [Oscillator.wiring, Oscillator.fmin]) s i j v)
  mixer c r := r.of_wiring (by rw [mixer_frame])
  emit _ r := r.of_wiring rfl
  reset sr s t _ h := by
    obtain ⟨-, -, rfl⟩ := resetBlock_cases h
    exact (routingInv_afterReset s.params _ s.master.legato sr).of_wiring rfl

/-- Settles O53: commands and the tick leave the wiring, an accepted OUTPUT moves one route, and reset clears all. -/
theorem stepKeepsRouting : Obligations.StepKeepsRouting := fun _ _ r h => routingInv_kept.step r h

end Sys2Proof.Machine
end

section
/-! The induction over a step for properties of the bank: what each oscillator must keep beside the master amplifier, and
what each amplifier must keep. -/

namespace Sys2Proof.Machine

/-- What the parts of a step must keep, for a relation of every oscillator to the master amplifier to be an invariant. -/
structure OscKept (Q : Oscillator → Amplifier → Prop) : Prop where
  param : ∀ {o o' m}, ParamWrite o o' → Q o m → Q o' m
  wire : ∀ {o m} l t, Q o m → Q { o with slots := l, out := t } m
  master : ∀ {o m m'}, MasterWrite m m' → Q o m → Q o m'
  noteOn : ∀ {o m} now p, Q o m → Q (o.noteOn now p) (ampNoteOn now p m)
  noteOff : ∀ {o m} now p, Q o m → Q (o.noteOff now p) (ampNoteOff now p m)
  afterCalc : ∀ {o m} s, Q o m → Q (o.afterCalc s) m
  masterAfterCalc : ∀ {o m} now sr, Q o m → Q o (ampAfterCalc now sr m)
  reset : ∀ l lm, Q (Oscillator.reset l) (Amplifier.reset lm)

/-- What the parts of a step must keep, for a property of every amplifier to be an invariant. -/
structure AmpKept (P : Amplifier → Prop) : Prop where
  write : ∀ {a a'}, MasterWrite a a' → P a → P a'
  noteOn : ∀ {a} now p, P a → P (ampNoteOn now p a)
  noteOff : ∀ {a} now p, P a → P (ampNoteOff now p a)
  afterCalc : ∀ {a} now sr, P a → P (ampAfterCalc now sr a)
  reset : ∀ l, P (Amplifier.reset l)

/-- Writing an oscillator for which the property holds keeps it for the bank. -/
theorem forall_mem_set {P : Oscillator → Prop} {l : List Oscillator} (h : ∀ o ∈ l, P o) {i : Nat} {o' : Oscillator}
    (ho' : P o') : ∀ o ∈ l.set i o', P o := by
  intro o ho
  rcases List.mem_or_eq_of_mem_set ho with ho | rfl
  · exact h o ho
  · exact ho'

section
variable {Q : Oscillator → Amplifier → Prop} (k : OscKept Q)
include k

theorem OscKept.command {s t : State} (hs : ∀ o ∈ s.osc, Q o s.master) (h : CommandEffect s t) :
    ∀ o ∈ t.osc, Q o t.master := by
  cases h with
  | param i o o' c ho hw => exact forall_mem_set hs (k.param hw (hs o (List.mem_of_getElem? ho)))
  | route i o new c =>
    intro o' ho'
    obtain ⟨o, ho, l, t, rfl⟩ := reroute_mem ho'
    rw [State.setStatusIf_master, reroute_frame]
    exact k.wire l t (hs o ho)
  | master a c hw => exact fun o ho => k.master hw (hs o ho)
  | noteOn p c => simpa using fun o ho => k.noteOn s.tick p (hs o ho)
  | noteOff p c => simpa using fun o ho => k.noteOff s.tick p (hs o ho)
  | _ => exact hs

theorem OscKept.kept : Kept fun s => ∀ o ∈ s.osc, Q o s.master where
  environment _ _ _ h := h
  pop _ _ _ _ h := h
  push w s h := by rw [push_frame]; exact h
  command _ _ := k.command
  oscCalc i s h := by
    rcases oscCalc_cases i s with ⟨he, -⟩ | ⟨o, l, n, ho, -, -, -, he⟩
    · rwa [he]
    · rw [he]
      exact forall_mem_set h (k.afterCalc s (h o (List.mem_of_getElem? ho)))
  deliver s i j v h := by
    unfold Machine.deliver
    split
    · rename_i oj hj
      exact forall_mem_set h (k.wire _ oj.out (h oj (List.mem_of_getElem? hj)))
    · exact h
  mixer c h := by
    intro o ho
    rw [mixer_frame] at ho
    rcases mixer_master c with hm | hm <;> rw [hm]
    · exact h o ho
    · exact k.masterAfterCalc _ _ (h o ho)
  emit _ h := h
  reset sr s t _ h := by
    obtain ⟨-, -, rfl⟩ := resetBlock_cases h
    intro o ho
    obtain ⟨l, -, rfl⟩ := List.mem_map.mp ho
    exact k.reset l _

end

section
variable {P : Amplifier → Prop} (k : AmpKept P)
include k

theorem AmpKept.oscKept : OscKept fun o _ => P o.amp where
  param hw h := by
    cases hw with
    | gain v hv => exact k.write (.gain v hv) h
    | _ => exact h
  wire _ _ h := h
  master _ h := h
  noteOn now p h := k.noteOn now p h
  noteOff now p h := k.noteOff now p h
  afterCalc s h := by
    unfold Oscillator.afterCalc
    dsimp only
    split
    · exact k.afterCalc _ _ h
    · exact h
  masterAfterCalc _ _ h := h
  reset l _ := k.reset l

theorem AmpKept.masterKept : Kept fun s => P s.master where
  environment _ _ _ h := h
  pop _ _ _ _ h := h
  push w s h := by rw [push_frame]; exact h
  command s t hs h := by
    cases h with
    | route i o new c => rw [State.setStatusIf_master, reroute_frame]; exact hs
    | master a c hw => exact k.write hw hs
    | noteOn p c => exact k.noteOn _ _ hs
    | noteOff p c => exact k.noteOff _ _ hs
    | _ => exact hs
  oscCalc i s h := by rw [oscCalc_frame]; exact h
  deliver s i j v h := by rw [deliver_frame]; exact h
  mixer c h := by
    rcases mixer_master c with hm | hm <;> rw [hm]
    · exact h
    · exact k.afterCalc _ _ h
  emit _ h := h
  reset sr s t _ h := by
    obtain ⟨-, -, rfl⟩ := resetBlock_cases h
    exact k.reset _

/-- Every step keeps what every amplifier keeps. -/
theorem AmpKept.everyAmp_step {s t : State} (hs : s.EveryAmp P) (h : step s = .next t) : t.EveryAmp P :=
  ⟨k.oscKept.kept.step hs.1 h, k.masterKept.step hs.2 h⟩

/-- Every reset state has it. -/
theorem AmpKept.everyAmp_afterReset (p : Params) (ls : List Bool) (lm : Bool) (sr : F64) :
    (State.afterReset p ls lm sr).EveryAmp P := by
  refine ⟨fun o ho => ?_, k.reset lm⟩
  obtain ⟨l, -, rfl⟩ := List.mem_map.mp ho
  exact k.reset l

end

end Sys2Proof.Machine
end

section
/-! O54: note stacks and held sets. A note event reaches all of them with the same pitch, and nothing else writes them. -/

namespace Sys2Proof.Machine

/-- R62 for one oscillator beside the master amplifier. -/
def Oscillator.NotesAgree (o : Oscillator) (m : Amplifier) : Prop :=
  ∀ p : Pitch, (p ∈ o.pstack ↔ p ∈ o.amp.held) ∧ (p ∈ o.amp.held ↔ p ∈ m.held)

theorem notesAgree_iff (s : State) : s.NotesAgree ↔ ∀ o ∈ s.osc, o.NotesAgree s.master := by
  constructor
  · intro h o ho
    obtain ⟨i, hi⟩ := List.mem_iff_getElem?.mp ho
    exact h i o hi
  · exact fun h i o hi => h o (List.mem_of_getElem? hi)

theorem notesAgree_oscKept : OscKept Oscillator.NotesAgree where
  param hw h := by cases hw <;> exact h
  wire _ _ h := h
  master hw h := by cases hw <;> exact h
  noteOn now p h q := by
    obtain ⟨hstack, hheld⟩ := h q
    rw [mem_noteOn_pstack, mem_ampNoteOn_held, hstack, ← hheld]
    exact ⟨(mem_ampNoteOn_held ..).symm, mem_ampNoteOn_held ..⟩
  noteOff now p h q := by
    obtain ⟨hstack, hheld⟩ := h q
    rw [mem_noteOff_pstack, mem_ampNoteOff_held, hstack, ← hheld]
    exact ⟨(mem_ampNoteOff_held ..).symm, mem_ampNoteOff_held ..⟩
  afterCalc s h := by
    have hheld : ∀ o : Oscillator, (o.afterCalc s).amp.held = o.amp.held := by
      intro o
      unfold Oscillator.afterCalc
      dsimp only
      split <;> rfl
    intro q
    rw [hheld]
    exact h q
  masterAfterCalc _ _ h := h
  reset _ _ _ := ⟨Iff.rfl, Iff.rfl⟩

/-- Settles O54: a note event adds or removes the same pitch everywhere. -/
theorem stepKeepsNotesAgree : Obligations.StepKeepsNotesAgree := by
  intro s t hs h
  rw [notesAgree_iff] at hs ⊢
  exact notesAgree_oscKept.kept.step hs h

end Sys2Proof.Machine
end

section
/-! O57: the phases. PHASE is written by `wrap`, by a note-on and by reset alone, so what is to be proved is that `wrap`
lands in the table for every binary64 value: its remainder is exact up to one rounding, and lies above −1024. -/

namespace Sys2Proof.Machine

/-! ### Scaling by 1024 -/

theorem fMag_fp1024 : fMag fp1024 = 1024 * fUnit := by decide +kernel

theorem fVal_fp1024 : fVal fp1024 = 1024 * (fUnit : Int) := by
  rw [fVal_eq_signed, fMag_fp1024, show fSign fp1024 = false by decide, signed, if_neg Bool.false_ne_true, Nat.cast_mul,
    Nat.cast_ofNat]

/-- Rounding reads the quotient alone. -/
theorem roundMag_mul_right (n : Nat) {d c : Nat} (hd : 0 < d) (hc : 0 < c) :
    roundMag (n * c) (d * c) = roundMag n d :=
  have hdc := Nat.mul_pos hd hc
  le_antisymm (roundMag_mono hdc hd (by rw [Nat.mul_assoc, Nat.mul_comm c d]))
    (roundMag_mono hd hdc (by rw [Nat.mul_assoc, Nat.mul_comm c d]))

/-- A magnitude times 1024 is exact below 2^2098 units, where the range of binary64 ends. -/
theorem fMul_fp1024_exact {y : F64} (hy : fIsFinite y = true) (h : fMag y * 1024 < 2 ^ 52 * 2 ^ 2046) :
    fIsFinite (fMul fp1024 y) = true ∧ fVal (fMul fp1024 y) = 1024 * fVal y := by
  have heq : fMul fp1024 y = fRound (fSign y) (fMag y * 1024) 1 := by
    rw [fMul_of_finite (by decide) hy, fMag_fp1024, show fSign fp1024 = false by decide, Bool.false_bne, fRound, fRound,
      ← roundMag_mul_right (fMag y * 1024) Nat.one_pos fUnit_pos, Nat.one_mul, Nat.mul_comm, ← Nat.mul_assoc]
  have hfit : fMag y * 1024 = fSig y * 2 ^ (fExp y - 1 + 10) := by
    rw [fMag, pow_add, Nat.mul_assoc, show 2 ^ 10 = 1024 by rfl]
  have hexp : fExp y - 1 + 10 ≤ 2045 := by
    by_contra hc
    have hsig : 2 ^ 52 ≤ fSig y := by
      rw [fSig, if_neg (by omega)]
      exact Nat.le_add_right _ _
    have hle : 2 ^ 52 * 2 ^ 2046 ≤ fSig y * 2 ^ (fExp y - 1 + 10) :=
      Nat.mul_le_mul hsig (pow_le_pow_right₀ (by decide) (by omega))
    exact h.not_ge (hle.trans_eq hfit.symm)
  obtain ⟨hfin, hmag⟩ := fMag_fRound_of_fits (fSign y) (fSig_lt y) hexp
  rw [heq, hfit]
  refine ⟨hfin, ?_⟩
  rw [fVal_eq_signed, fSign_fRound, hmag, ← hfit, ← signed_mul_nat, ← fVal_eq_signed, Int.mul_comm]
  rfl

/-- A quotient by 1024, rounded. -/
theorem fDiv_fp1024_eq {x : F64} (hx : fIsFinite x = true) : fDiv x fp1024 = fRound (fSign x) (fMag x) 1024 := by
  rw [fDiv_of_finite hx (by decide) (by decide +kernel), fMag_fp1024, show fSign fp1024 = false by decide, Bool.bne_false,
    fRound, fRound, roundMag_mul_right _ (by decide) fUnit_pos]

/-- A quotient by 1024 is no larger than the dividend, so it is finite. -/
theorem fDiv_fp1024_le {x : F64} (hx : fIsFinite x = true) :
    fIsFinite (fDiv x fp1024) = true ∧ fMag (fDiv x fp1024) ≤ fMag x := by
  have hle : roundMag (fMag x) 1024 ≤ x.toNat % 2 ^ 63 := by
    rw [← roundMag_fMag hx Nat.one_pos]
    exact roundMag_mono (by decide) Nat.one_pos (by omega)
  rw [fDiv_fp1024_eq hx]
  have hfin := (fIsFinite_fRound (fSign x) (fMag x) 1024).mpr (lt_of_le_of_lt hle (mod_lt_of_finite hx))
  refine ⟨hfin, (fMag_le_iff hfin hx).mpr ?_⟩
  rwa [fRound_mod]

/-- A quotient by 1024 is exact where the exponent has room for it. -/
theorem fDiv_fp1024_exact {x : F64} (hx : fIsFinite x = true) (h : 10 ≤ fExp x - 1) :
    1024 * fVal (fDiv x fp1024) = fVal x := by
  have he := fExp_lt x
  have hsplit : fMag x = fSig x * 2 ^ (fExp x - 1 - 10) * 1024 := by
    rw [fMag, Nat.mul_assoc, show 1024 = 2 ^ 10 by rfl, ← pow_add, Nat.sub_add_cancel h]
  have hround : roundMag (fMag x) 1024 = roundMag (fSig x * 2 ^ (fExp x - 1 - 10)) 1 := by
    rw [hsplit, ← roundMag_mul_right _ Nat.one_pos (by decide : 0 < 1024), Nat.one_mul]
  have hmag : fMag (fDiv x fp1024) = fSig x * 2 ^ (fExp x - 1 - 10) := by
    rw [fDiv_fp1024_eq hx, fRound, hround]
    exact (fMag_fRound_of_fits (fSign x) (fSig_lt x) (by omega)).2
  have hsign : fSign (fDiv x fp1024) = fSign x := by rw [fDiv_fp1024_eq hx, fSign_fRound]
  rw [fVal_eq_signed x, hsplit, ← signed_mul_nat, fVal_eq_signed, hsign, hmag, Int.mul_comm]
  rfl

/-! ### The remainder -/

/-- 1024 × floor(x / 1024) is at most 1024 above x and 2048 below it: where the quotient is
exact it is not above x at all, and near zero, where the quotient may round, x is small. -/
theorem floor_quotient_bounds {x : F64} (hx : fIsFinite x = true) :
    1024 * (fFloorInt (fDiv x fp1024) * (fUnit : Int)) ≤ fVal x + 1024 * fUnit ∧
      fVal x ≤ 1024 * (fFloorInt (fDiv x fp1024) * (fUnit : Int)) + 2048 * fUnit := by
  have hU : (0 : Int) < (fUnit : Int) := Int.natCast_pos.mpr fUnit_pos
  have hlow : fFloorInt (fDiv x fp1024) * (fUnit : Int) ≤ fVal (fDiv x fp1024) := Int.ediv_mul_le _ hU.ne'
  have hhigh : fVal (fDiv x fp1024) < (fFloorInt (fDiv x fp1024) + 1) * (fUnit : Int) :=
    Int.lt_ediv_add_one_mul_self _ hU
  rw [Int.add_mul, Int.one_mul] at hhigh
  by_cases h : 10 ≤ fExp x - 1
  · have hq := fDiv_fp1024_exact hx h
    omega
  · have hmag : fMag x ≤ fUnit := by
      have hpow : 2 ^ (fExp x - 1) ≤ 2 ^ 9 := pow_le_pow_right₀ (by decide) (by omega)
      calc fMag x ≤ 2 ^ 53 * 2 ^ 9 := Nat.mul_le_mul (fSig_lt x).le hpow
        _ = 2 ^ 62 := by norm_num
        _ ≤ fUnit := pow_le_pow_right₀ (by decide) (by decide)
    have hq := (fDiv_fp1024_le hx).2
    have hsign : fSign (fDiv x fp1024) = fSign x := by rw [fDiv_fp1024_eq hx, fSign_fRound]
    rw [fVal_eq_signed x]
    rw [fVal_eq_signed (fDiv x fp1024), hsign] at hlow hhigh
    cases hs : fSign x <;> simp only [hs, signed, Bool.false_eq_true, if_false, if_true] at hlow hhigh ⊢ <;> omega

/-- A result that rounds an exact number not below a finite value is not below it. -/
theorem RoundsTo.le_fVal {z w : F64} {e : Int} (h : RoundsTo z e 1) (hz : fIsFinite z = true) (hw : fIsFinite w = true)
    (hle : fVal w ≤ e) : fVal w ≤ fVal z := by
  have := h.nearest hz w hw
  omega

theorem two_pow_mul_fUnit_lt {c k : Nat} (h : c + 1074 < k) : 2 ^ c * fUnit < 2 ^ k := by
  rw [fUnit, ← pow_add]
  exact Nat.pow_lt_pow_right (by decide) h

/-- A result that rounds an exact number of magnitude at most 4096 is finite. -/
theorem RoundsTo.finite_of_small {z : F64} {e : Int} (h : RoundsTo z e 1) (hs : e.natAbs ≤ 2 ^ 12 * fUnit) :
    fIsFinite z = true := by
  rw [h.finite_iff, Nat.mul_one]
  calc e.natAbs ≤ 2 ^ 12 * fUnit := hs
    _ < 2 ^ 2044 := two_pow_mul_fUnit_lt (by decide)
    _ ≤ (2 ^ 54 - 1) * 2 ^ 2044 := Nat.le_mul_of_pos_left _ (by decide)

/-- The greatest magnitude of a finite value. -/
theorem fMag_le_max {x : F64} (hx : fIsFinite x = true) : fMag x ≤ (2 ^ 53 - 1) * 2 ^ 2045 := by
  have he := fExp_lt x
  have hne : fExp x ≠ 2047 := by simpa [fIsFinite] using hx
  exact Nat.mul_le_mul (Nat.le_sub_one_of_lt (fSig_lt x)) (pow_le_pow_right₀ (by decide) (by omega))

/-- The remainder of `wrap` is a number from −1024 on. -/
theorem phaseRemainder_ge {x : F64} (hx : fIsFinite x = true) :
    fIsFinite (phaseRemainder x) = true ∧ -(1024 * (fUnit : Int)) ≤ fVal (phaseRemainder x) := by
  obtain ⟨hhi, hlo⟩ := floor_quotient_bounds hx
  obtain ⟨hF, hFv⟩ := fFloor_exact (fDiv_fp1024_le hx).1
  rw [← hFv] at hhi hlo
  have hsmall : fMag (fFloor (fDiv x fp1024)) * 1024 < 2 ^ 52 * 2 ^ 2046 := by
    have hX : (fVal x).natAbs = fMag x := by rw [fVal_eq_signed, natAbs_signed]
    have hF : (fVal (fFloor (fDiv x fp1024))).natAbs = fMag (fFloor (fDiv x fp1024)) := by
      rw [fVal_eq_signed, natAbs_signed]
    have hmax := fMag_le_max hx
    have hU : 2 ^ 11 * fUnit < 2 ^ 2045 := two_pow_mul_fUnit_lt (by decide)
    rw [pow_succ 2 2045]
    generalize 2 ^ 2045 = P at *
    omega
  obtain ⟨hM, hMv⟩ := fMul_fp1024_exact hF hsmall
  have hN : fIsFinite (fNeg (fMul fp1024 (fFloor (fDiv x fp1024)))) = true := by rwa [fIsFinite_fNeg]
  have hr := roundsTo_fAddOrdered hx hN
  rw [← fSub_of_finite hx hM, fVal_fNeg, hMv] at hr
  have hfin := hr.finite_of_small (by omega)
  have hw : fVal (fNeg fp1024) = -(1024 * (fUnit : Int)) := by rw [fVal_fNeg, fVal_fp1024]
  exact ⟨hfin, hw ▸ hr.le_fVal hfin (by decide) (by rw [hw]; omega)⟩

theorem fVal_fpZero : fVal fpZero = 0 := by decide

/-- The guards of `wrap` bring a remainder from −1024 on into the table. -/
theorem phaseGuarded_legal {r : F64} (hr : fIsFinite r = true) (hge : -(1024 * (fUnit : Int)) ≤ fVal r) :
    phaseLegal (phaseGuarded r) := by
  have lifted : fIsFinite (if fLt r fpZero then fAdd r fp1024 else r) = true ∧
      0 ≤ fVal (if fLt r fpZero then fAdd r fp1024 else r) := by
    split
    · rename_i hneg
      have hlt := (fLt_iff hr (by decide)).mp hneg
      rw [fVal_fpZero] at hlt
      have hs := roundsTo_fAddOrdered hr (y := fp1024) (by decide)
      rw [← fAdd_of_finite hr (by decide), fVal_fp1024] at hs
      have hfin := hs.finite_of_small (by omega)
      exact ⟨hfin, fVal_fpZero ▸ hs.le_fVal hfin (by decide) (by rw [fVal_fpZero]; omega)⟩
    · rename_i hnn
      have hle : fLe fpZero r = true := fLe_of_not_fLt (fIsNaN_of_finite hr) (by decide) (by simpa using hnn)
      exact ⟨hr, fVal_fpZero ▸ (fLe_iff (by decide) hr).mp hle⟩
  unfold phaseGuarded
  generalize (if fLt r fpZero then fAdd r fp1024 else r) = r' at lifted ⊢
  obtain ⟨hfin, hnn⟩ := lifted
  dsimp only
  split
  · constructor <;> decide
  · rename_i hlt
    exact ⟨(fLe_iff (by decide) hfin).mpr (fVal_fpZero ▸ hnn),
      fLt_of_not_fLe (by decide) (fIsNaN_of_finite hfin) (by simpa using hlt)⟩

theorem phaseLegal_fpZero : phaseLegal fpZero := by constructor <;> decide

/-- `wrap` lands in the table for every value of binary64 (R43, R146). -/
theorem wrapPhase_legal (x : F64) : phaseLegal (wrapPhase x) := by
  unfold wrapPhase
  split
  · rename_i hx
    obtain ⟨hfin, hge⟩ := phaseRemainder_ge hx
    exact phaseGuarded_legal hfin hge
  · exact phaseLegal_fpZero

/-! ### The registers PHASE -/

theorem phaseLegal_oscKept : OscKept fun o _ => phaseLegal o.phase where
  param hw h := by cases hw <;> exact h
  wire _ _ h := h
  master _ h := h
  noteOn now p h := by
    unfold Oscillator.noteOn
    dsimp only
    split
    · exact phaseLegal_fpZero
    · exact h
  noteOff _ _ h := h
  afterCalc s _ := wrapPhase_legal _
  masterAfterCalc _ _ h := h
  reset _ _ := phaseLegal_fpZero

/-- Settles O57: PHASE is written by `wrap`, by a note-on and by reset alone. -/
theorem stepKeepsPhasesInTheTable : Obligations.StepKeepsPhasesInTheTable :=
  fun _ _ hs h => phaseLegal_oscKept.kept.step hs h

end Sys2Proof.Machine
end

section
/-! O55: the envelope states (R46) and the timestamps that go with them, amplifier by amplifier. -/

namespace Sys2Proof.Machine

/-- The states a held calculation ends in (R175, R178). -/
theorem heldEnvelope_estate (a : Amplifier) (t : F64) :
    (heldEnvelope a t).estate = .attack ∨ (heldEnvelope a t).estate = .decay ∨ (heldEnvelope a t).estate = .sustain := by
  unfold heldEnvelope
  split
  · exact .inl rfl
  · split
    · exact .inr (.inr rfl)
    · exact .inr (.inl rfl)

/-- The states a release calculation ends in (R176). -/
theorem releaseEnvelope_estate (a : Amplifier) (t : F64) :
    (releaseEnvelope a t).estate = .idle ∨ (releaseEnvelope a t).estate = .release := by
  unfold releaseEnvelope
  split
  · exact .inl rfl
  · exact .inr rfl

/-- A calculation with a pitch held attacks, decays or sustains. -/
theorem ampAfterCalc_estate_of_held {now : Stamp} {sr : F64} {a : Amplifier} (h : a.held ≠ []) :
    (ampAfterCalc now sr a).estate = .attack ∨ (ampAfterCalc now sr a).estate = .decay ∨
      (ampAfterCalc now sr a).estate = .sustain := by
  simp only [ampAfterCalc, envelope, if_pos h]
  exact heldEnvelope_estate a _

/-- A calculation with no pitch held keeps the state, or ends a release. -/
theorem ampAfterCalc_estate_of_free {now : Stamp} {sr : F64} {a : Amplifier} (h : a.held = []) :
    (ampAfterCalc now sr a).estate = a.estate ∨
      a.estate = .release ∧ (ampAfterCalc now sr a).estate = .idle := by
  by_cases hr : a.estate = .release
  · simp only [ampAfterCalc, envelope, if_neg (not_not.mpr h), hr, true_and]
    exact (releaseEnvelope_estate a _).symm
  · simp [ampAfterCalc, envelope, h, hr]

/-- Of the registers R46 speaks of, a write of the parameters touches none. -/
theorem stateLegal_write {a a' : Amplifier} (hw : MasterWrite a a') (h : a.StateLegal) : a'.StateLegal := by
  obtain ⟨hasc, hheld, hfree, hstart, hnr, hrel⟩ := h
  cases hw <;> exact ⟨hasc, hheld, hfree, hstart, hnr, hrel⟩

/-- R173: a first pitch starts an attack, another one leaves the release off. -/
theorem stateLegal_ampNoteOn (now : Stamp) (p : Pitch) {a : Amplifier} (h : a.StateLegal) :
    (ampNoteOn now p a).StateLegal := by
  obtain ⟨hasc, hheld, hfree, hstart, hnr, hrel⟩ := h
  unfold ampNoteOn
  split
  · exact ⟨List.pairwise_singleton _ _, fun _ => .inl rfl, nofun, by simp, fun _ => rfl, nofun⟩
  · rename_i hne
    split
    · exact ⟨hasc, hheld, hfree, hstart, hnr, hrel⟩
    · have hnil := pitchInsert_ne_nil p a.held
      have hasc' := pitchInsert_ascending p hasc
      split
      · exact ⟨hasc', fun _ => hheld hne, fun e => absurd e hnil, iff_of_true (hstart.mpr hne) hnil, fun _ => hnr hne,
          hrel⟩
      · exact ⟨hasc', fun _ => .inl rfl, fun e => absurd e hnil, iff_of_true rfl hnil, fun _ => hnr hne, nofun⟩

/-- R174: the last pitch starts a release, another one changes nothing of the state. -/
theorem stateLegal_ampNoteOff (now : Stamp) (p : Pitch) {a : Amplifier} (h : a.StateLegal) :
    (ampNoteOff now p a).StateLegal := by
  obtain ⟨hasc, hheld, hfree, hstart, hnr, hrel⟩ := h
  unfold ampNoteOff
  split
  · rename_i hp
    have hne : a.held ≠ [] := List.ne_nil_of_mem hp
    split
    · exact ⟨.nil, fun e => absurd rfl e, fun _ => .inr rfl, by simp, fun e => absurd rfl e, fun _ => rfl⟩
    · rename_i hnil
      exact ⟨pitchErase_ascending p hasc, fun _ => hheld hne, fun e => absurd e hnil, iff_of_true (hstart.mpr hne) hnil,
        fun _ => hnr hne, hrel⟩
  · exact ⟨hasc, hheld, hfree, hstart, hnr, hrel⟩

/-- R175 to R177: a calculation stays among the states of its branch. -/
theorem stateLegal_ampAfterCalc (now : Stamp) (sr : F64) {a : Amplifier} (h : a.StateLegal) :
    (ampAfterCalc now sr a).StateLegal where
  heldAscending := h.heldAscending
  heldState hheld := ampAfterCalc_estate_of_held (a := a) hheld
  freeState hnil := by
    rcases ampAfterCalc_estate_of_free (now := now) (sr := sr) (a := a) hnil with he | ⟨-, he⟩
    · rw [he]
      exact h.freeState hnil
    · exact .inl he
  heldStart := h.heldStart
  heldNoRelease := h.heldNoRelease
  releaseStart he := by
    by_cases hnil : a.held = []
    · rcases ampAfterCalc_estate_of_free (now := now) (sr := sr) hnil with hs | ⟨hs, -⟩
      · exact h.releaseStart (hs ▸ he)
      · exact h.releaseStart hs
    · rcases ampAfterCalc_estate_of_held (now := now) (sr := sr) hnil with hs | hs | hs <;>
        exact absurd (hs.symm.trans he) (by decide)

theorem stateLegal_ampKept : AmpKept Amplifier.StateLegal where
  write := stateLegal_write
  noteOn now p := stateLegal_ampNoteOn now p
  noteOff now p := stateLegal_ampNoteOff now p
  afterCalc now sr := stateLegal_ampAfterCalc now sr
  reset _ := ⟨.nil, fun e => absurd rfl e, fun _ => .inl rfl, by simp [Amplifier.reset], fun e => absurd rfl e, nofun⟩

/-- Settles O55: note events and calculations are the only writers of the registers R46 speaks of. -/
theorem stepKeepsEnvelopeStates : Obligations.StepKeepsEnvelopeStates :=
  fun _ _ hs h => stateLegal_ampKept.everyAmp_step hs h

end Sys2Proof.Machine
end

section
/-! O49: what a step does to STATUS. Every writer but reset ORs in some of the four defined bits (R60). -/

namespace Sys2Proof.Machine

/-- STATUS of t is STATUS of s with some of the four defined bits added (R60). -/
def State.Gains (s t : State) : Prop := ∃ bits : BitVec 8, bits &&& 0xF0 = 0 ∧ t.status = s.status ||| bits

theorem State.Gains.of_eq {s t : State} (h : t.status = s.status) : s.Gains t := ⟨0, rfl, h.trans BitVec.or_zero.symm⟩

theorem State.Gains.trans {s t u : State} (h : s.Gains t) (g : t.Gains u) : s.Gains u := by
  obtain ⟨b, hb, ht⟩ := h
  obtain ⟨c, hc, hu⟩ := g
  refine ⟨b ||| c, ?_, by rw [hu, ht, BitVec.or_assoc]⟩
  rw [BitVec.and_or_distrib_right, hb, hc]
  rfl

theorem State.gains_setStatusIf (s : State) (c : Bool) {bits : BitVec 8} (h : bits &&& 0xF0 = 0) :
    s.Gains (s.setStatusIf c bits) := by
  cases c
  · exact .of_eq (BitVec.or_zero)
  · exact ⟨bits, h, rfl⟩

theorem CommandEffect.gains {s t : State} (h : CommandEffect s t) : s.Gains t := by
  have inv : ∀ (u : State) c, u.status = s.status → s.Gains (u.setStatusIf c statusINVALID) := fun u c hu =>
    State.Gains.trans (.of_eq hu) (u.gains_setStatusIf c rfl)
  cases h with
  | route i o new c => exact inv _ c (by rw [reroute_frame])
  | quit => exact ⟨statusHALTED, rfl, rfl⟩
  | _ => exact inv _ _ rfl

theorem push_gains (w : CmdWord) (s : State) : s.Gains (push w s) := by
  unfold push
  split
  · exact .of_eq rfl
  · split
    · exact ⟨statusLAG, rfl, rfl⟩
    · exact .of_eq rfl

theorem oscCalc_gains (i : Nat) (s : State) : s.Gains (oscCalc i s).state := by
  rcases oscCalc_cases i s with ⟨he, -⟩ | ⟨o, l, n, -, -, -, -, he⟩ <;> rw [he]
  · exact .of_eq rfl
  · exact State.gains_setStatusIf _ _ rfl

theorem deliver_gains (s : State) (i j : Nat) (v : F64) : s.Gains (deliver s i j v) :=
  .of_eq (by rw [deliver_frame])

theorem mixer_gains (c : Computed) : c.state.Gains (mixer c).state :=
  .of_eq (by rw [mixer_frame])

/-- The computation of a sample sets NONFINITE at most (R334). -/
theorem computeSample_gains (s : State) : s.Gains (computeSample s) := by
  have hcalc : ∀ (i : Nat) (u : State), s.Gains u → s.Gains (oscCalc i u).state := fun i u hu =>
    hu.trans (oscCalc_gains i u)
  have hmod : s.Gains (modulators s) :=
    modulators_preserves hcalc (fun u i j v hu => hu.trans (deliver_gains u i j v)) s (.of_eq rfl)
  have hcar : s.Gains (carriers (modulators s)).state := carriers_preserves hcalc _ hmod
  exact (hcar.trans (mixer_gains _)).trans (State.gains_setStatusIf _ _ rfl)

theorem tick_gains {s t : State} (h : tick s = .next t) : s.Gains t := by
  have hdrain : ∀ {u}, drain s = .next u → s.Gains u := fun hu =>
    drainUpTo_preserves (P := s.Gains) (fun _ _ hs h => hs.trans h.gains) (fun _ _ _ _ hs => hs) _ _ _ (.of_eq rfl) hu
  rcases tick_cases h with ⟨-, rfl⟩ | ⟨u, -, hu, ⟨-, rfl⟩ | ⟨-, rfl⟩⟩
  · exact .of_eq rfl
  · exact (hdrain hu).trans (.of_eq rfl)
  · exact (hdrain hu).trans (computeSample_gains u)

/-- A step that is no reset only adds bits to STATUS (R60). -/
theorem step_gains {s t : State} (hr : ∀ sr rest, s.inbox ≠ .reset sr :: rest) (h : step s = .next t) : s.Gains t := by
  rcases hi : s.inbox with _ | ⟨hd, rest⟩
  · cases (step_nil hi).symm.trans h
    exact .of_eq rfl
  · rw [step_cons hi] at h
    cases hd with
    | push w => cases h; exact push_gains w { s with inbox := rest }
    | tick => exact tick_gains (s := { s with inbox := rest }) h
    | reset sr => exact absurd hi (hr sr rest)
    | readStatus => cases h; exact .of_eq rfl
    | readTick => cases h; exact .of_eq rfl
    | readOutSample => cases h; exact .of_eq rfl

/-- Settles O49: every writer of STATUS but reset ORs bits in. -/
theorem statusBitsAreSticky : Obligations.StatusBitsAreSticky := by
  intro s t hr h
  obtain ⟨bits, -, ht⟩ := step_gains hr h
  rw [ht]
  ext i hi
  rw [BitVec.getElem_and, BitVec.getElem_or]
  cases s.status[i] <;> rfl

end Sys2Proof.Machine
end

section
/-! O56: the legal values of the registers, one group of registers at a time. -/

namespace Sys2Proof.Machine

/-! ### The amplifiers -/

theorem Amplifier.ValuesLegal.of_eq {a b : Amplifier} (h : a.ValuesLegal) (hA : b.envA = a.envA) (hD : b.envD = a.envD)
    (hS : b.envS = a.envS) (hR : b.envR = a.envR) (hdb : b.gainDb = a.gainDb) (hg : b.gain = a.gain) : b.ValuesLegal := by
  obtain ⟨attack, decay, sustain, release, gainDb, cached⟩ := h
  exact ⟨by rwa [hA], by rwa [hD], by rwa [hS], by rwa [hR], by rwa [hdb], by rwa [hdb, hg]⟩

theorem valuesLegal_write {a a' : Amplifier} (hw : MasterWrite a a') (h : a.ValuesLegal) : a'.ValuesLegal := by
  obtain ⟨attack, decay, sustain, release, gainDb, cached⟩ := h
  cases hw with
  | attack v hv => exact ⟨hv, decay, sustain, release, gainDb, cached⟩
  | decay v hv => exact ⟨attack, hv, sustain, release, gainDb, cached⟩
  | sustain v hv h1 => exact ⟨attack, decay, ⟨hv.1, hv.2, h1⟩, release, gainDb, cached⟩
  | release v hv => exact ⟨attack, decay, sustain, hv, gainDb, cached⟩
  | gain v hv => exact ⟨attack, decay, sustain, release, hv, rfl⟩

theorem levelLegal_one : fIsFinite fpOne = true ∧ fLe fpZero fpOne = true ∧ fLe fpOne fpOne = true := by decide

theorem valuesLegal_ampKept : AmpKept Amplifier.ValuesLegal where
  write := valuesLegal_write
  noteOn now p h := by rw [ampNoteOn_frame]; exact h.of_eq rfl rfl rfl rfl rfl rfl
  noteOff now p h := by rw [ampNoteOff_frame]; exact h.of_eq rfl rfl rfl rfl rfl rfl
  afterCalc now sr h := h.of_eq rfl rfl rfl rfl rfl rfl
  reset _ :=
    ⟨timeLegal_zero, timeLegal_zero, levelLegal_one, timeLegal_zero, timeLegal_zero.1, dbToAmp_fpZero.symm⟩

/-! ### The oscillators -/

/-- The part of R47 that no step changes: an oscillator's envelope is the gate. -/
def Amplifier.IsGate (a : Amplifier) : Prop := a.envA = fpZero ∧ a.envD = fpZero ∧ a.envS = fpOne ∧ a.envR = fpZero

/-- DETUNE of the reset values of COARSE and FINE (R39). -/
theorem detuneOf_zero : detuneOf fpZero fpZero = fpOne := by
  have h : fDiv (fAdd fpZero (fDiv fpZero fpHundred)) fpTwelve = fpZero := by decide +kernel
  rw [detuneOf, h, fExp2_fpZero]

/-- FREQ after a note-off is what it was, or the entry of the new front pitch (R292). -/
theorem freqAfterNoteOff_cases (o : Oscillator) (stack : List Pitch) :
    freqAfterNoteOff o stack = o.freq ∨ ∃ q, freqAfterNoteOff o stack = romHz q := by
  unfold freqAfterNoteOff
  split
  · exact .inl rfl
  · rename_i q _
    split
    · exact .inr ⟨q, rfl⟩
    · exact .inl rfl

theorem oscValuesLegal_param {o o' : Oscillator} (hw : ParamWrite o o') (h : o.ValuesLegal) : o'.ValuesLegal := by
  obtain ⟨freq, coarse, fine, fmrange, detune, stack, gate⟩ := h
  cases hw with
  | coarse v hv => exact ⟨freq, hv, fine, fmrange, rfl, stack, gate⟩
  | fine v hv => exact ⟨freq, coarse, hv, fmrange, rfl, stack, gate⟩
  | fmrange v hv => exact ⟨freq, coarse, fine, hv, detune, stack, gate⟩
  | freq v hv => exact ⟨.inl hv, coarse, fine, fmrange, detune, stack, gate⟩
  | _ => exact ⟨freq, coarse, fine, fmrange, detune, stack, gate⟩

theorem oscValuesLegal_noteOn (now : Stamp) (p : Pitch) {o : Oscillator} (h : o.ValuesLegal) :
    (o.noteOn now p).ValuesLegal := by
  obtain ⟨freq, coarse, fine, fmrange, detune, stack, gate⟩ := h
  refine ⟨?_, coarse, fine, fmrange, detune, ?_, ?_⟩
  · unfold Oscillator.noteOn
    dsimp only
    split
    · exact .inr ⟨p, rfl⟩
    · exact freq
  · unfold Oscillator.noteOn
    dsimp only
    split
    · exact stack
    · rename_i hp
      exact List.nodup_cons.mpr ⟨hp, stack⟩
  · show (ampNoteOn now p o.amp).IsGate
    rw [ampNoteOn_frame]
    exact gate

theorem oscValuesLegal_noteOff (now : Stamp) (p : Pitch) {o : Oscillator} (h : o.ValuesLegal) :
    (o.noteOff now p).ValuesLegal := by
  obtain ⟨freq, coarse, fine, fmrange, detune, stack, gate⟩ := h
  refine ⟨?_, coarse, fine, fmrange, detune, pitchErase_nodup p stack, ?_⟩
  · rcases freqAfterNoteOff_cases o (pitchErase p o.pstack) with hf | hf
    · rwa [← hf] at freq
    · exact .inr hf
  · show (ampNoteOff now p o.amp).IsGate
    rw [ampNoteOff_frame]
    exact gate

theorem oscValuesLegal_afterCalc (s : State) {o : Oscillator} (h : o.ValuesLegal) : (o.afterCalc s).ValuesLegal := by
  obtain ⟨freq, coarse, fine, fmrange, detune, stack, gate⟩ := h
  refine ⟨freq, coarse, fine, fmrange, detune, stack, ?_⟩
  unfold Oscillator.afterCalc
  dsimp only
  split <;> exact gate

theorem timeLegal_fp440 : TimeLegal fp440 := by constructor <;> decide

theorem oscValuesLegal_reset (l : Bool) : (Oscillator.reset l).ValuesLegal :=
  ⟨.inl timeLegal_fp440, timeLegal_zero.1, timeLegal_zero.1, timeLegal_zero.1, detuneOf_zero.symm, List.nodup_nil, rfl,
    rfl, rfl, rfl⟩

theorem oscValuesLegal_oscKept : OscKept fun o _ => o.ValuesLegal where
  param := oscValuesLegal_param
  wire _ _ h := by
    obtain ⟨freq, coarse, fine, fmrange, detune, stack, gate⟩ := h
    exact ⟨freq, coarse, fine, fmrange, detune, stack, gate⟩
  master _ h := h
  noteOn now p h := oscValuesLegal_noteOn now p h
  noteOff now p h := oscValuesLegal_noteOff now p h
  afterCalc s h := oscValuesLegal_afterCalc s h
  masterAfterCalc _ _ h := h
  reset l _ := oscValuesLegal_reset l

/-! ### STATUS, OUT_SAMPLE and the FIFO -/

theorem step_statusReserved {s t : State} (hs : s.status &&& 0xF0 = 0) (h : step s = .next t) :
    t.status &&& 0xF0 = 0 := by
  by_cases hr : ∃ sr rest, s.inbox = .reset sr :: rest
  · obtain ⟨sr, rest, hi⟩ := hr
    rw [step_cons hi] at h
    obtain ⟨-, -, rfl⟩ := resetBlock_cases h
    exact BitVec.zero_and
  · obtain ⟨bits, hb, ht⟩ := step_gains (fun sr rest hi => hr ⟨sr, rest, hi⟩) h
    rw [ht, BitVec.and_or_distrib_right, hs, hb]
    rfl

theorem outSampleFinite_kept : Kept fun s => fIsFinite s.outSample = true where
  environment _ _ _ h := h
  pop _ _ _ _ h := h
  push w s h := by rw [push_frame]; exact h
  command s t hs h := by rw [h.frame]; exact hs
  oscCalc i s h := by rw [oscCalc_frame]; exact h
  deliver s i j v h := by rw [deliver_frame]; exact h
  mixer c h := by rw [mixer_frame]; exact h
  emit c _ := fIsFinite_finalSample _
  reset sr s t _ h := by
    obtain ⟨-, -, rfl⟩ := resetBlock_cases h
    exact timeLegal_zero.1

/-- A push leaves no more entries than CMD_DEPTH (R85). -/
theorem push_fifo_length_le {w : CmdWord} {s : State} (hd : 1 ≤ s.params.cmdDepth)
    (hl : s.fifo.length ≤ s.params.cmdDepth) : (push w s).fifo.length ≤ s.params.cmdDepth := by
  unfold push
  split
  · exact hl
  · split
    · simp only [State.setStatus_fifo, List.length_append, List.length_tail, List.length_singleton]
      omega
    · simp only [List.length_append, List.length_singleton]
      omega

theorem fifoBounded_kept : Kept fun s => 1 ≤ s.params.cmdDepth ∧ s.fifo.length ≤ s.params.cmdDepth where
  environment _ _ _ h := h
  pop s w rest hf h := by
    rw [hf, List.length_cons] at h
    exact ⟨h.1, Nat.le_of_succ_le h.2⟩
  push w s h := by
    have hl := push_fifo_length_le (w := w) h.1 h.2
    have hp : (push w s).params = s.params := by rw [push_frame]
    rw [hp]
    exact ⟨h.1, hl⟩
  command s t hs h := by
    have hl := h.fifo_length_le.trans hs.2
    have hp : t.params = s.params := by rw [h.frame]
    rw [hp]
    exact ⟨hs.1, hl⟩
  oscCalc i s h := by rw [oscCalc_frame]; exact h
  deliver s i j v h := by rw [deliver_frame]; exact h
  mixer c h := by rw [mixer_frame]; exact h
  emit _ h := h
  reset sr s t hs h := by
    obtain ⟨-, -, rfl⟩ := resetBlock_cases h
    exact ⟨hs.1, Nat.zero_le _⟩

/-- Settles O56, group by group. -/
theorem stepKeepsRegisterValues : Obligations.StepKeepsRegisterValues := by
  rintro s t ⟨oscillators, amplifiers, reserved, outSample, depth, fifo⟩ h
  obtain ⟨depth, fifo⟩ := fifoBounded_kept.step ⟨depth, fifo⟩ h
  exact ⟨oscValuesLegal_oscKept.kept.step oscillators h, valuesLegal_ampKept.everyAmp_step amplifiers h,
    step_statusReserved reserved h, outSampleFinite_kept.step outSample h, depth, fifo⟩

end Sys2Proof.Machine
end

section
/-! O58: the reset state meets the invariants. -/

namespace Sys2Proof.Machine

/-- Every reset state has a relation of its oscillators to the master amplifier that a step keeps. -/
theorem OscKept.afterReset {Q : Oscillator → Amplifier → Prop} (k : OscKept Q) (p : Params) (ls : List Bool) (lm : Bool)
    (sr : F64) : ∀ o ∈ (State.afterReset p ls lm sr).osc, Q o (State.afterReset p ls lm sr).master := by
  intro o ho
  obtain ⟨l, -, rfl⟩ := List.mem_map.mp ho
  exact k.reset l lm

/-- Settles O58: each invariant of the bank was shown for the reset values with the steps that keep it. -/
theorem resetMeetsTheInvariants : Obligations.ResetMeetsTheInvariants := by
  rintro p ls lm sr hd _ rfl
  exact ⟨routingInv_afterReset p ls lm sr, (notesAgree_iff _).mpr (notesAgree_oscKept.afterReset p ls lm sr),
    stateLegal_ampKept.everyAmp_afterReset p ls lm sr,
    ⟨oscValuesLegal_oscKept.afterReset p ls lm sr, valuesLegal_ampKept.everyAmp_afterReset p ls lm sr, BitVec.zero_and,
      timeLegal_zero.1, hd, Nat.zero_le _⟩,
    phaseLegal_oscKept.afterReset p ls lm sr⟩

end Sys2Proof.Machine
end

section
/-! The host's steps: O35, O41, O47, O48, O50, O51 and O52. -/

namespace Sys2Proof.Machine

/-! ### The halted block, the bypassed oscillator and the read ports -/

/-- Settles O35. -/
theorem bypassedOscillatorIsFrozen : Obligations.BypassedOscillatorIsFrozen := fun _ _ _ => oscCalc_bypass

/-- A halted tick is silent (R203). -/
theorem tick_of_halted {s : State} (h : s.halted = true) : tick s = .next (silentTick s) := if_pos h

/-- A push while halted is discarded (R85). -/
theorem push_of_halted (w : CmdWord) {s : State} (h : s.halted = true) : push w s = s := if_pos h

/-- Settles O41. -/
theorem haltedTickIsSilent : Obligations.HaltedTickIsSilent := fun _ => tick_of_halted

/-- Settles O52. -/
theorem readsReturnTheirPorts : Obligations.ReadsReturnTheirPorts := fun _ _ => ⟨step_cons, step_cons, step_cons⟩

/-- Settles O47: a push is discarded, a tick is silent, and a read only replies. -/
theorem onlyResetLeavesHalted : Obligations.OnlyResetLeavesHalted := by
  intro s h rest hs hi hr
  have hs' : State.halted { s with inbox := rest } = true := hs
  rw [step_cons hi]
  cases h with
  | push w => exact ⟨_, rfl, by rw [push_of_halted w hs']; rfl, by rw [push_of_halted w hs']; rfl, nofun⟩
  | tick => exact ⟨_, tick_of_halted hs', rfl, rfl, fun _ => rfl⟩
  | reset sr => exact absurd rfl (hr sr)
  | readStatus => exact ⟨_, rfl, rfl, rfl, nofun⟩
  | readTick => exact ⟨_, rfl, rfl, rfl, nofun⟩
  | readOutSample => exact ⟨_, rfl, rfl, rfl, nofun⟩

/-! ### TICK -/

/-- No command writes TICK. -/
theorem CommandEffect.tick_eq {s t : State} (h : CommandEffect s t) : t.tick = s.tick := by rw [h.frame]

theorem drain_tick {s t : State} (h : drain s = .next t) : t.tick = s.tick :=
  drainUpTo_preserves (P := fun u => u.tick = s.tick) (fun _ _ hu h => h.tick_eq.trans hu) (fun _ _ _ _ hu => hu) _ _ _
    rfl h

/-- A push leaves TICK. -/
theorem push_tick (w : CmdWord) (s : State) : (push w s).tick = s.tick := by rw [push_frame]

/-- The computation of a sample advances TICK by one and does not halt (R203). -/
theorem computeSample_tick_halted (s : State) :
    (computeSample s).tick = s.tick + 1 ∧ (computeSample s).halted = s.halted := by
  obtain ⟨hp, -⟩ := carriers_progress s
  obtain ⟨-, -, htick, -⟩ := hp.fields
  obtain ⟨m, -, he⟩ := emit_mixer (carriers (modulators s))
  have nonfinite : ∀ (x : BitVec 8) (c : Prop) [Decidable c], (x ||| if c then 0 else 0x04).getLsbD 3 = x.getLsbD 3 := by
    intro x c _
    split <;> simp
  rw [computeSample, he]
  refine ⟨congrArg (· + 1) htick, (nonfinite _ _).trans ?_⟩
  rcases hp.status with hst | hst <;> simp [hst, State.halted]

/-- Settles O48: the drain leaves TICK, and the computation of a sample alone advances it. -/
theorem tickRegisterCounts : Obligations.TickRegisterCounts := by
  refine ⟨fun s t rest hi h => ?_, fun s t sr rest hi h => ?_, fun s t htick hreset h => ?_⟩
  · rw [step_cons hi] at h
    rcases tick_cases (s := { s with inbox := rest }) h with ⟨hh, rfl⟩ | ⟨u, -, hu, ⟨hh, rfl⟩ | ⟨hh, rfl⟩⟩
    · exact (if_pos hh).symm
    · exact (drain_tick hu).trans (if_pos hh).symm
    · obtain ⟨hadv, hhalt⟩ := computeSample_tick_halted u
      rw [hhalt, hh, hadv, drain_tick hu]
      rfl
  · rw [step_cons hi] at h
    obtain ⟨-, -, rfl⟩ := resetBlock_cases h
    rfl
  · rcases hi : s.inbox with _ | ⟨hd, rest⟩
    · cases (step_nil hi).symm.trans h
      rfl
    · rw [hi] at htick hreset
      rw [step_cons hi] at h
      cases hd with
      | push w => cases h; exact push_tick w { s with inbox := rest }
      | tick => exact absurd rfl htick
      | reset sr => exact absurd rfl (hreset sr)
      | readStatus => cases h; rfl
      | readTick => cases h; rfl
      | readOutSample => cases h; rfl

/-! ### Every command completes -/

theorem withOsc_completes {s : State} {i : BitVec 8} {k : Oscillator → Result} (hk : ∀ o, ∃ t, k o = .next t) :
    ∃ t, withOsc s i k = .next t := by
  unfold withOsc
  split
  · exact hk _
  · exact ⟨_, rfl⟩

theorem withFinite_completes {s : State} {v : F64} {k : Result} (hk : ∃ t, k = .next t) :
    ∃ t, withFinite s v k = .next t := by
  unfold withFinite
  split
  · exact hk
  · exact ⟨_, rfl⟩

/-- Every command has a next state, in every state (R330). -/
theorem exec_completes (i : Instr) (s : State) : ∃ t, exec i s = .next t := by
  cases i with
  | bypass | pitchmode | waveform => exact withOsc_completes fun _ => ⟨_, rfl⟩
  | coarse | fine | fmrange | freq | gain => exact withOsc_completes fun _ => withFinite_completes ⟨_, rfl⟩
  | output =>
    refine withOsc_completes fun _ => ?_
    split
    · exact ⟨_, rfl⟩
    · split <;> exact ⟨_, rfl⟩
  | attack | decay | sustain | release | master => exact withFinite_completes ⟨_, rfl⟩
  | mixermode | noteon | noteoff | pitchbend | resetmidi | quit => exact ⟨_, rfl⟩

theorem applyWord_completes (w : CmdWord) (s : State) : ∃ t, applyWord w s = .next t := by
  unfold applyWord
  split
  · exact exec_completes _ s
  · exact ⟨_, rfl⟩

theorem drainUpTo_completes : ∀ (n : Nat) (s : State), ∃ t, drainUpTo n s = .next t
  | 0, s => ⟨s, rfl⟩
  | n + 1, s => by
    unfold drainUpTo
    split
    · exact ⟨s, rfl⟩
    · rename_i w rest _
      obtain ⟨u, hu⟩ := applyWord_completes w { s with fifo := rest }
      rw [hu]
      exact drainUpTo_completes n u

theorem tick_completes (s : State) : ∃ t, tick s = .next t := by
  unfold tick
  split
  · exact ⟨_, rfl⟩
  · obtain ⟨u, hu⟩ := drainUpTo_completes s.fifo.length s
    rw [drain, hu]
    unfold andThen afterDrain
    dsimp only
    split <;> exact ⟨_, rfl⟩

/-! ### Reset -/

/-- The parameters a reset refuses (R343). -/
theorem configurationOk_eq_false {n : Nat} {p : Params} :
    configurationOk n p = false ↔ n < 1 ∨ 256 < n ∨ fIsFinite p.headroom = false ∨ p.cmdDepth = 0 := by
  simp only [configurationOk, Bool.and_eq_false_iff, decide_eq_false_iff_not, or_assoc, not_le, Nat.lt_one_iff]

/-- A reset refuses a bad sample rate first (R360). -/
theorem resetBlock_of_badRate {sr : F64} (h : sampleRateOk sr = false) (s : State) :
    resetBlock sr s = .refused .badSampleRate := by
  simp [resetBlock, powerOn, h]

/-- A reset refuses parameters outside R7. -/
theorem resetBlock_of_badConfiguration {sr : F64} {s : State} (h : sampleRateOk sr = true)
    (hc : configurationOk s.nOsc s.params = false) : resetBlock sr s = .refused .badConfiguration := by
  rw [State.nOsc] at hc
  simp [resetBlock, powerOn, h, hc]

/-- Any other reset gives the reset state of the block's own configuration. -/
theorem resetBlock_of_ok {sr : F64} {s : State} (h : sampleRateOk sr = true)
    (hc : configurationOk s.nOsc s.params = true) :
    resetBlock sr s = .next (keepEnvironment s
      (State.afterReset s.params (s.osc.map fun o => o.amp.legato) s.master.legato sr)) := by
  rw [State.nOsc] at hc
  simp [resetBlock, powerOn, h, hc]

/-- Settles O50: commands and ticks complete, so a reset alone can stop, and stops on its two checks. -/
theorem onlyABadResetIsRefused : Obligations.OnlyABadResetIsRefused := by
  refine ⟨fun s => ?_, fun s sr rest hi => ⟨fun h => ?_, fun h g hc => ?_⟩⟩
  · rcases hi : s.inbox with _ | ⟨hd, rest⟩
    · exact .inl ⟨s, step_nil hi⟩
    · rw [State.SafeStep, step_cons hi]
      cases hd with
      | push w => exact .inl ⟨_, rfl⟩
      | tick => exact .inl (tick_completes _)
      | reset sr =>
        rcases hsr : sampleRateOk sr
        · exact .inr ⟨sr, rest, rfl, .inl ⟨hsr, resetBlock_of_badRate hsr _⟩⟩
        · rcases hc : configurationOk s.nOsc s.params
          · exact .inr ⟨sr, rest, rfl, .inr ⟨hsr, configurationOk_eq_false.mp hc, resetBlock_of_badConfiguration hsr hc⟩⟩
          · exact .inl ⟨_, resetBlock_of_ok hsr hc⟩
      | readStatus => exact .inl ⟨_, rfl⟩
      | readTick => exact .inl ⟨_, rfl⟩
      | readOutSample => exact .inl ⟨_, rfl⟩
  · rw [step_cons hi]
    exact resetBlock_of_badRate (by rwa [sampleRateOk, Bool.and_eq_false_iff]) _
  · rw [step_cons hi]
    exact resetBlock_of_badConfiguration (by rw [sampleRateOk, h, g]; rfl) (configurationOk_eq_false.mpr hc)

/-- Settles O51: an accepted reset is the reset state of the block's own configuration. -/
theorem resetGivesTheResetValues : Obligations.ResetGivesTheResetValues := by
  intro s sr rest hi hfin hpos hn1 hn2 hh hd
  have hsr : sampleRateOk sr = true := by rw [sampleRateOk, hfin, hpos]; rfl
  have hc : configurationOk s.nOsc s.params = true := by simp [configurationOk, hn1, hn2, hh, hd]
  refine ⟨_, (step_cons hi).trans (resetBlock_of_ok hsr hc), rfl, rfl, rfl, rfl, rfl, rfl, BitVec.getLsbD_zero, rfl, rfl, rfl,
    ?_, rfl, fun k o ho => ?_⟩
  · simp [keepEnvironment, State.afterReset, State.nOsc]
  · simp [keepEnvironment, State.afterReset, ho, Oscillator.reset, Amplifier.reset]

end Sys2Proof.Machine
end

section
/-! What each command touches: O15, O26 and O27. -/

namespace Sys2Proof.Machine

/-! ### The oscillator commands but OUTPUT, as one update of one oscillator -/

/-- Oscillator i updated by f; nothing where there is none. -/
def State.modifyOsc (s : State) (i : Nat) (f : Oscillator → Oscillator) : State := { s with osc := s.osc.modify i f }

/-- An update of one oscillator under check 3 of R113, as one formula: INVALID is set by the operand, or by an index
outside the bank. -/
theorem withOsc_update (s : State) (i : BitVec 8) (f : Oscillator → Oscillator) (b : Bool) :
    (withOsc s i fun o => .next ((s.setOsc i.toNat (f o)).setStatusIf b statusINVALID)) =
      .next ((s.modifyOsc i.toNat f).setStatusIf (b || decide (s.nOsc ≤ i.toNat)) statusINVALID) := by
  unfold withOsc
  rcases h : s.osc[i.toNat]? with _ | o
  · have hle : s.nOsc ≤ i.toNat := List.getElem?_eq_none_iff.mp h
    simp [dropInvalid, State.modifyOsc, List.modify_eq_self hle, hle]
  · have hlt : ¬s.nOsc ≤ i.toNat := not_le.mpr (s.lt_of_get h)
    simp [State.modifyOsc, State.setOsc, List.modify_eq_set_getElem?, h, hlt]

/-- Check 4 of R113 on an update: a value that is not finite updates nothing, and sets INVALID. -/
theorem withFinite_update (s : State) (v : F64) (i : Nat) {o : Oscillator} (f : Oscillator → Oscillator) (b : Bool)
    (h : s.osc[i]? = some o) :
    withFinite s v (.next ((s.setOsc i (f o)).setStatusIf b statusINVALID)) =
      .next ((s.setOsc i (if fIsFinite v then f o else o)).setStatusIf (b || !fIsFinite v) statusINVALID) := by
  obtain ⟨hi, rfl⟩ := List.getElem?_eq_some_iff.mp h
  unfold withFinite
  cases fIsFinite v
  · simp [dropInvalid, State.setOsc]
  · simp

/-- An update that leaves the routes: OUT and the FM slots. -/
def KeepsRoute (f : Oscillator → Oscillator) : Prop := ∀ o, (f o).out = o.out ∧ (f o).slots = o.slots

theorem keepsRoute_ite (c : Prop) [Decidable c] {f : Oscillator → Oscillator} (hf : KeepsRoute f) :
    KeepsRoute fun o => if c then f o else o := by
  intro o
  dsimp only
  split
  · exact hf o
  · exact ⟨rfl, rfl⟩

/-- A command on an oscillator, as an update of it and an operand's INVALID that no state decides. -/
def IsOscUpdate (c : Instr) (i : BitVec 8) : Prop :=
  ∃ (f : Oscillator → Oscillator) (b : Bool), KeepsRoute f ∧ ∀ s,
    exec c s = .next ((s.modifyOsc i.toNat f).setStatusIf (b || decide (s.nOsc ≤ i.toNat)) statusINVALID)

theorem isOscUpdate_of_withOsc {c : Instr} {i : BitVec 8} {f : Oscillator → Oscillator} (b : Bool)
    (h : ∀ s, exec c s = withOsc s i fun o => .next ((s.setOsc i.toNat (f o)).setStatusIf b statusINVALID))
    (hf : KeepsRoute f) : IsOscUpdate c i :=
  ⟨f, b, hf, fun s => (h s).trans (withOsc_update s i f b)⟩

theorem isOscUpdate_of_withFinite {c : Instr} {i : BitVec 8} {f : Oscillator → Oscillator} (v : F64) (b : Bool)
    (h : ∀ s, exec c s = withOsc s i fun o =>
      withFinite s v (.next ((s.setOsc i.toNat (f o)).setStatusIf b statusINVALID)))
    (hf : KeepsRoute f) : IsOscUpdate c i := by
  refine isOscUpdate_of_withOsc (b || !fIsFinite v) (fun s => ?_) (keepsRoute_ite (fIsFinite v = true) hf)
  rw [h]
  unfold withOsc
  split
  · rename_i o ho
    exact withFinite_update s v i.toNat f b ho
  · rfl

/-- Every oscillator command but OUTPUT is such an update. -/
theorem exec_isOscUpdate {c : Instr} {i : BitVec 8} (hi : c.oscIndex = some i) (h8 : c.opcode ≠ 0x08) :
    IsOscUpdate c i := by
  cases c <;> cases hi
  case bypass flag => exact isOscUpdate_of_withOsc _ (fun _ => rfl) fun _ => ⟨rfl, rfl⟩
  case pitchmode mode => exact isOscUpdate_of_withOsc _ (fun _ => rfl) fun _ => ⟨rfl, rfl⟩
  case waveform wave => exact isOscUpdate_of_withOsc _ (fun _ => rfl) fun _ => ⟨rfl, rfl⟩
  case freq v => exact isOscUpdate_of_withFinite v _ (fun _ => rfl) fun _ => ⟨rfl, rfl⟩
  case coarse v =>
    exact isOscUpdate_of_withFinite (f := fun o => { o with coarse := v, detune := detuneOf v o.fine }) v false
      (fun s => by simp [exec, execCoarse]) fun _ => ⟨rfl, rfl⟩
  case fine v =>
    exact isOscUpdate_of_withFinite (f := fun o => { o with fine := v, detune := detuneOf o.coarse v }) v false
      (fun s => by simp [exec, execFine]) fun _ => ⟨rfl, rfl⟩
  case fmrange v =>
    exact isOscUpdate_of_withFinite (f := fun o => { o with fmrange := v }) v false
      (fun s => by simp [exec, execFmrange]) fun _ => ⟨rfl, rfl⟩
  case gain v =>
    exact isOscUpdate_of_withFinite (f := fun o => { o with amp := o.amp.setGain v }) v false
      (fun s => by simp [exec, execGain]) fun _ => ⟨rfl, rfl⟩
  case output kind target => exact absurd rfl h8

/-- Updates of different oscillators commute (R36), and so do the bits they set. -/
theorem modifyOsc_comm (s : State) {i k : Nat} (h : i ≠ k) (f g : Oscillator → Oscillator) (b c : Bool)
    (bits : BitVec 8) :
    (((s.modifyOsc i f).setStatusIf b bits).modifyOsc k g).setStatusIf c bits =
      (((s.modifyOsc k g).setStatusIf c bits).modifyOsc i f).setStatusIf b bits := by
  simp only [State.modifyOsc, State.setStatusIf, State.setStatus, List.modify_modify_ne f g s.osc h, BitVec.or_assoc,
    BitVec.or_comm (if b then bits else 0)]

@[simp] theorem State.modifyOsc_nOsc (s : State) (i : Nat) (f : Oscillator → Oscillator) :
    (s.modifyOsc i f).nOsc = s.nOsc := List.length_modify ..

/-- Settles O15: each of the two commands is an update of its own oscillator. -/
theorem oscillatorCommandsCommute : Obligations.OscillatorCommandsCommute := by
  intro c d i k s hi hk hne hc hd
  obtain ⟨f, b, -, hf⟩ := exec_isOscUpdate hi hc
  obtain ⟨g, b', -, hg⟩ := exec_isOscUpdate hk hd
  have hik : i.toNat ≠ k.toNat := fun h => hne (BitVec.eq_of_toNat_eq h)
  simp only [hf, hg, andThen_next, State.setStatusIf_nOsc, State.modifyOsc_nOsc]
  rw [modifyOsc_comm s hik]

/-! ### The routes -/

/-- The commands that name no oscillator update all of them alike and leave the routes, and QUIT alone discards the
FIFO (R311). -/
theorem exec_of_noIndex {c : Instr} {s t : State} (hi : c.oscIndex = none) (h : exec c s = .next t) :
    (∃ f, KeepsRoute f ∧ t.osc = s.osc.map f) ∧ (c ≠ .quit → t.fifo = s.fifo) := by
  have same : ∀ {u : State}, u.osc = s.osc → ∃ f, KeepsRoute f ∧ u.osc = s.osc.map f := fun hu =>
    ⟨id, fun _ => ⟨rfl, rfl⟩, by rw [hu, List.map_id]⟩
  have value : ∀ {v : F64} {u : State}, withFinite s v (.next u) = .next t → u.osc = s.osc → u.fifo = s.fifo →
      (∃ f, KeepsRoute f ∧ t.osc = s.osc.map f) ∧ (c ≠ .quit → t.fifo = s.fifo) := by
    intro v u h hosc hfifo
    rcases withFinite_cases h with ⟨-, h⟩ | ⟨-, rfl⟩
    · cases h
      exact ⟨same hosc, fun _ => hfifo⟩
    · exact ⟨same rfl, fun _ => rfl⟩
  cases c <;> cases hi
  case noteon p vel =>
    cases h
    exact ⟨⟨Oscillator.noteOn s.tick (pitchOperand p).value, fun _ => ⟨rfl, rfl⟩, rfl⟩, fun _ => rfl⟩
  case noteoff p =>
    cases h
    exact ⟨⟨Oscillator.noteOff s.tick (pitchOperand p).value, fun _ => ⟨rfl, rfl⟩, rfl⟩, fun _ => rfl⟩
  case attack v => exact value h rfl rfl
  case decay v => exact value h rfl rfl
  case sustain v => exact value h rfl rfl
  case release v => exact value h rfl rfl
  case master v => exact value h rfl rfl
  case mixermode m => cases h; exact ⟨same rfl, fun _ => rfl⟩
  case pitchbend l m => cases h; exact ⟨same rfl, fun _ => rfl⟩
  case resetmidi => cases h; exact ⟨same rfl, fun _ => rfl⟩
  case quit => cases h; exact ⟨same rfl, fun hq => absurd rfl hq⟩

/-- Settles O27: every other command updates one oscillator or all of them, and no update moves a route. -/
theorem onlyOutputChangesRoutes : Obligations.OnlyOutputChangesRoutes := by
  intro c s t h8 h k o o' ho ho'
  rcases hi : c.oscIndex with _ | i
  · obtain ⟨⟨f, hf, ht⟩, -⟩ := exec_of_noIndex hi h
    rw [ht, List.getElem?_map, ho] at ho'
    cases ho'
    exact hf o
  · obtain ⟨f, b, hf, he⟩ := exec_isOscUpdate hi h8
    cases (he s).symm.trans h
    rw [State.setStatusIf_osc, State.modifyOsc, List.getElem?_modify, ho] at ho'
    cases ho'
    split
    · exact hf o
    · exact ⟨rfl, rfl⟩

/-! ### What no command writes -/

/-- OUTPUT leaves the FIFO. -/
theorem exec_output_fifo {i k b : BitVec 8} {s t : State} (h : exec (.output i k b) s = .next t) : t.fifo = s.fifo := by
  rcases withOsc_cases h with ⟨o, -, h⟩ | ⟨-, rfl⟩
  · split at h
    · cases h
      rfl
    · split at h <;> cases h
      · rfl
      · rw [State.setStatusIf_fifo, reroute_frame]
  · rfl

theorem eq_output_of_opcode {c : Instr} (h : c.opcode = 0x08) : ∃ i k b, c = .output i k b := by
  cases c with
  | output i k b => exact ⟨i, k, b, rfl⟩
  | _ => simp [Instr.opcode] at h

/-- Of all commands, QUIT alone touches the FIFO. -/
theorem exec_fifo {c : Instr} {s t : State} (hq : c ≠ .quit) (h : exec c s = .next t) : t.fifo = s.fifo := by
  rcases hi : c.oscIndex with _ | i
  · exact (exec_of_noIndex hi h).2 hq
  · by_cases h8 : c.opcode = 0x08
    · obtain ⟨i, k, b, rfl⟩ := eq_output_of_opcode h8
      exact exec_output_fifo h
    · obtain ⟨f, b, -, he⟩ := exec_isOscUpdate hi h8
      cases (he s).symm.trans h
      rfl

/-- The registers of an amplifier that no command but a master command writes. -/
def Amplifier.fixed (a : Amplifier) : F64 × F64 × F64 × F64 × Bool × F64 :=
  (a.envA, a.envD, a.envS, a.envR, a.legato, a.last)

theorem fixed_ampNoteOn (now : Stamp) (p : Pitch) (a : Amplifier) : (ampNoteOn now p a).fixed = a.fixed := by
  rw [ampNoteOn_frame]; rfl

theorem fixed_ampNoteOff (now : Stamp) (p : Pitch) (a : Amplifier) : (ampNoteOff now p a).fixed = a.fixed := by
  rw [ampNoteOff_frame]; rfl

/-- No command writes the envelope, LEGATO or LAST of an oscillator's amplifier, or the size of the bank. -/
theorem CommandEffect.fixed {s t : State} (h : CommandEffect s t) :
    t.osc.map (fun o => o.amp.fixed) = s.osc.map fun o => o.amp.fixed := by
  rcases h.osc_map (f := fun o => o.amp.fixed) (fun o o' hw => by cases hw <;> rfl) (fun _ _ _ => fixed_ampNoteOn ..)
    (fun _ _ _ => fixed_ampNoteOff ..) with hm | ⟨i, o, new, -, -, -, ht⟩
  · exact hm
  · rw [ht]
    exact reroute_osc_map (fun _ _ _ => rfl) s i o.out new

/-- No command writes LEGATO or LAST of the master amplifier. -/
theorem CommandEffect.master_fixed {s t : State} (h : CommandEffect s t) :
    t.master.legato = s.master.legato ∧ t.master.last = s.master.last := by
  cases h with
  | route i o new c => rw [State.setStatusIf_master, reroute_frame]; exact ⟨rfl, rfl⟩
  | master a c hw => cases hw <;> exact ⟨rfl, rfl⟩
  | noteOn p c => rw [State.setStatusIf_master, State.setMaster_master, ampNoteOn_frame]; exact ⟨rfl, rfl⟩
  | noteOff p c => rw [State.setStatusIf_master, State.setMaster_master, ampNoteOff_frame]; exact ⟨rfl, rfl⟩
  | _ => exact ⟨rfl, rfl⟩

/-- Settles O26: the frame of a command's effect, with the amplifiers and the FIFO on their own. -/
theorem noCommandWritesTheseRegisters : Obligations.NoCommandWritesTheseRegisters := by
  intro c s t h
  have he := exec_effect h
  have hosc := he.fixed
  obtain ⟨hlegato, hlast⟩ := he.master_fixed
  have hlen : t.nOsc = s.nOsc := by simpa [State.nOsc] using congrArg List.length hosc
  refine ⟨by rw [he.frame], by rw [he.frame], by rw [he.frame], by rw [he.frame], hlen, fun hq => exec_fifo hq h,
    by rw [he.frame], by rw [he.frame], by rw [he.frame], by rw [he.frame], hlegato, hlast, fun k o o' ho ho' => ?_⟩
  have hk := congrArg (·[k]?) hosc
  simpa only [List.getElem?_map, ho, ho', Option.map_some, Option.some.injEq, Amplifier.fixed, Prod.mk.injEq] using hk

end Sys2Proof.Machine
end

section
/-! O4, O39, O40 and O46: the command port's bytes, the push, and the drain of the command FIFO (20_memory.md). -/

namespace Sys2Proof

/-! ### The port's bytes -/

/-- The port's byte b is the word's bits from 8b up (R87). -/
theorem getElem?_portBytes (w : CmdWord) {b : Nat} (hb : b < 16) :
    (portBytes w)[b]? = some (w.extractLsb' (8 * b) 8) := by
  simp [portBytes, hb]

theorem wordOfBytes_portBytes (w : CmdWord) : wordOfBytes (portBytes w) = some w := by
  rw [wordOfBytes, if_pos (portBytes_length w), bytesToNat_portBytes, BitVec.ofNat_toNat, BitVec.setWidth_eq]

/-- Settles O4: a byte of the port is an extract of the word, and the bytes make the word's number. -/
theorem portBytesLittleEndian : Obligations.PortBytesLittleEndian := by
  refine ⟨fun w b k hb hk => ⟨_, getElem?_portBytes w hb, ?_⟩, wordOfBytes_portBytes, fun bs h => if_neg h⟩
  simp [hk]

end Sys2Proof

namespace Sys2Proof.Machine

/-! ### The push -/

theorem push_of_full (w : CmdWord) {s : State} (h : s.halted = false) (hf : s.fifo.length = s.params.cmdDepth) :
    push w s = { s with fifo := s.fifo.tail ++ [w] }.setStatus statusLAG := by
  simp [push, h, hf]

theorem push_of_room (w : CmdWord) {s : State} (h : s.halted = false) (hf : s.fifo.length ≠ s.params.cmdDepth) :
    push w s = { s with fifo := s.fifo ++ [w] } := by
  simp [push, h, hf]

/-- Settles O39: the step is the push, by its three cases. -/
theorem pushFollowsItsRule : Obligations.PushFollowsItsRule := by
  intro s w rest hi
  rw [step_cons hi, hostStep]
  refine ⟨fun hh => ?_, fun hh hf => ?_, fun hh hf => ?_⟩
  · rw [push_of_halted w (s := { s with inbox := rest }) hh]
    rfl
  · rw [push_of_full w (s := { s with inbox := rest }) hh hf, ← List.drop_one]
    rfl
  · rw [push_of_room w (s := { s with inbox := rest }) hh hf]
    rfl

/-! ### One entry of the FIFO -/

/-- A word that decodes is its command (R118). -/
theorem applyWord_of_ok {w : CmdWord} {i : Instr} (h : decode w = .ok i) (s : State) : applyWord w s = exec i s := by
  rw [applyWord, h]

/-- Any other word is dropped with INVALID (R118). -/
theorem applyWord_of_error {w : CmdWord} {e : DecodeError} (h : decode w = .error e) (s : State) :
    applyWord w s = dropInvalid s := by
  rw [applyWord, h]

/-- An entry taken off the FIFO and applied leaves no more than the entries behind it (R86). -/
theorem fifo_length_le_of_applyWord {w : CmdWord} {s t : State} {rest : List CmdWord}
    (h : applyWord w { s with fifo := rest } = .next t) : t.fifo.length ≤ rest.length :=
  (applyWord_effect h).fifo_length_le

/-! ### The drain -/

theorem drainUpTo_of_nil {s : State} (h : s.fifo = []) (n : Nat) : drainUpTo n s = .next s := by
  cases n with
  | zero => rfl
  | succ n => rw [drainUpTo, h]

theorem drain_of_nil {s : State} (h : s.fifo = []) : drain s = .next s := drainUpTo_of_nil h _

theorem drainUpTo_succ_of_cons {s : State} {w : CmdWord} {rest : List CmdWord} (h : s.fifo = w :: rest) (n : Nat) :
    drainUpTo (n + 1) s = andThen (applyWord w { s with fifo := rest }) (drainUpTo n) := by
  rw [drainUpTo, h]

/-- A drain with a bound for every entry present does not depend on the bound: QUIT can only shorten the FIFO. -/
theorem drainUpTo_eq_of_length_le :
    ∀ (m n : Nat) (s : State), s.fifo.length ≤ m → s.fifo.length ≤ n → drainUpTo m s = drainUpTo n s := by
  intro m
  induction m with
  | zero =>
    intro n s hm _
    have hf : s.fifo = [] := List.length_eq_zero_iff.mp (Nat.le_zero.mp hm)
    rw [drainUpTo_of_nil hf, drainUpTo_of_nil hf]
  | succ m ih =>
    intro n s hm hn
    rcases hf : s.fifo with _ | ⟨w, rest⟩
    · rw [drainUpTo_of_nil hf, drainUpTo_of_nil hf]
    · rw [hf, List.length_cons] at hm hn
      obtain ⟨n, rfl⟩ := Nat.exists_eq_add_one_of_ne_zero (Nat.ne_zero_of_lt hn)
      obtain ⟨u, hu⟩ := applyWord_completes w { s with fifo := rest }
      have hle := fifo_length_le_of_applyWord hu
      rw [drainUpTo_succ_of_cons hf, drainUpTo_succ_of_cons hf, hu]
      exact ih n u (hle.trans (Nat.le_of_succ_le_succ hm)) (hle.trans (Nat.le_of_succ_le_succ hn))

/-- A drain takes the oldest entry, and goes on with what is left (R86). -/
theorem drain_of_cons {s : State} {w : CmdWord} {rest : List CmdWord} (h : s.fifo = w :: rest) :
    drain s = andThen (applyWord w { s with fifo := rest }) drain := by
  obtain ⟨u, hu⟩ := applyWord_completes w { s with fifo := rest }
  rw [drain, h, List.length_cons, drainUpTo_succ_of_cons h, hu]
  exact drainUpTo_eq_of_length_le _ _ u (fifo_length_le_of_applyWord hu) le_rfl

/-- A drain with a bound for every entry present leaves none. -/
theorem fifo_of_drainUpTo : ∀ (n : Nat) (s t : State), s.fifo.length ≤ n → drainUpTo n s = .next t → t.fifo = [] := by
  intro n
  induction n with
  | zero =>
    intro s t hn h
    cases h
    exact List.length_eq_zero_iff.mp (Nat.le_zero.mp hn)
  | succ n ih =>
    intro s t hn h
    rcases hf : s.fifo with _ | ⟨w, rest⟩
    · rw [drainUpTo_of_nil hf] at h
      cases h
      exact hf
    · rw [drainUpTo_succ_of_cons hf] at h
      obtain ⟨u, hu, h⟩ := andThen_eq_next.mp h
      rw [hf] at hn
      exact ih u t ((fifo_length_le_of_applyWord hu).trans (Nat.le_of_succ_le_succ hn)) h

/-- Every drain completes, and leaves the FIFO empty (R86). -/
theorem drain_empties (s : State) : ∃ t, drain s = .next t ∧ t.fifo = [] := by
  obtain ⟨t, h⟩ := drainUpTo_completes s.fifo.length s
  exact ⟨t, h, fifo_of_drainUpTo _ s t le_rfl h⟩

/-! ### The tick after its drain -/

theorem tick_eq_afterDrain {s t : State} (hs : s.halted = false) (h : drain s = .next t) : tick s = afterDrain t := by
  rw [tick, hs, h]
  rfl

/-- A tick with nothing to drain is the rest of a tick, halted or not. -/
theorem tick_of_fifo_nil {s : State} (hf : s.fifo = []) : tick s = afterDrain s := by
  rcases hs : s.halted
  · exact tick_eq_afterDrain hs (drain_of_nil hf)
  · rw [tick_of_halted hs, afterDrain, if_pos hs]

/-- A running block's tick is a tick of the state its drain leaves, and silent where the drain halted it (R203). -/
theorem tick_of_drain {s t : State} (hs : s.halted = false) (h : drain s = .next t) (hf : t.fifo = []) :
    tick s = tick t ∧ (t.halted = true → tick s = .next { t with reply := .sample fpZero }) := by
  have hst : tick s = tick t := (tick_eq_afterDrain hs h).trans (tick_of_fifo_nil hf).symm
  exact ⟨hst, fun ht => hst.trans (tick_of_halted ht)⟩

/-- Settles O40: the drain's equations, and the tick of the state it leaves; a tick strobe's step is a tick. -/
theorem drainAppliesInOrder : Obligations.DrainAppliesInOrder := by
  refine ⟨fun w s => ⟨fun i h => applyWord_of_ok h s, fun e h => applyWord_of_error h s⟩, fun _ _ _ => drain_of_cons,
    fun _ => drain_of_nil, fun s => ?_, fun s rest hi => ?_⟩
  · obtain ⟨t, h, hf⟩ := drain_empties s
    exact ⟨t, h, hf, fun hs => tick_of_drain hs h hf⟩
  · obtain ⟨t, h, hf⟩ := drain_empties { s with inbox := rest }
    rw [step_cons hi]
    exact ⟨t, h, hf, fun hs => tick_of_drain (s := { s with inbox := rest }) hs h hf⟩

/-- Settles O46: the drain of a single entry is its command, which leaves nothing to drain. -/
theorem stepRunsTheDecodedCommand : Obligations.StepRunsTheDecodedCommand := by
  intro s w i rest hi hs hf hw
  obtain ⟨t, ht⟩ := exec_completes i { s with inbox := rest, fifo := [] }
  have htf : t.fifo = [] := List.length_eq_zero_iff.mp (Nat.le_zero.mp (exec_effect ht).fifo_length_le)
  have hdrain : drain { s with inbox := rest } = .next t := by
    rw [drain_of_cons (s := { s with inbox := rest }) hf, applyWord_of_ok hw, ht]
    exact drain_of_nil htf
  rw [step_cons hi]
  exact ⟨t, ht, htf, tick_of_drain (s := { s with inbox := rest }) hs hdrain htf⟩

end Sys2Proof.Machine
end

section
/-! O1, O2, O3, O5 and O6: the decoder and the encoder against each other, and the words and commands that the common
checks drop (30_encoding.md). -/

namespace Sys2Proof

open Laws

/-! ### The row of a command, read from a word -/

/-- The command of the same row as i, with the operands that a word holds in the fields the row uses (R114). -/
def Instr.withFieldsOf (w : CmdWord) : Instr → Instr
  | .bypass _ _ => .bypass (fieldOSC w) (fieldA w)
  | .coarse _ _ => .coarse (fieldOSC w) (fieldVAL w)
  | .fine _ _ => .fine (fieldOSC w) (fieldVAL w)
  | .fmrange _ _ => .fmrange (fieldOSC w) (fieldVAL w)
  | .freq _ _ => .freq (fieldOSC w) (fieldVAL w)
  | .gain _ _ => .gain (fieldOSC w) (fieldVAL w)
  | .pitchmode _ _ => .pitchmode (fieldOSC w) (fieldA w)
  | .output _ _ _ => .output (fieldOSC w) (fieldA w) (fieldB w)
  | .waveform _ _ => .waveform (fieldOSC w) (fieldA w)
  | .attack _ => .attack (fieldVAL w)
  | .decay _ => .decay (fieldVAL w)
  | .sustain _ => .sustain (fieldVAL w)
  | .release _ => .release (fieldVAL w)
  | .master _ => .master (fieldVAL w)
  | .mixermode _ => .mixermode (fieldA w)
  | .noteon _ _ => .noteon (fieldA w) (fieldB w)
  | .noteoff _ => .noteoff (fieldA w)
  | .pitchbend _ _ => .pitchbend (fieldA w) (fieldB w)
  | .resetmidi => .resetmidi
  | .quit => .quit

/-- A word with a row's opcode is read by that row. -/
theorem decodeOpcode_of_opcode {w : CmdWord} {i : Instr} (h : fieldOPC w = i.opcode) :
    decodeOpcode w = some (i.withFieldsOf w) := by
  unfold decodeOpcode
  rw [h]
  cases i <;> rfl

/-- A command is read only from a word with its opcode. -/
theorem opcode_of_decodeOpcode {w : CmdWord} {i : Instr} (h : decodeOpcode w = some i) : fieldOPC w = i.opcode := by
  unfold decodeOpcode at h
  split at h <;> cases h <;> exact BitVec.eq_of_toNat_eq ‹_›

theorem decodeOpcode_eq_some_iff (w : CmdWord) (i : Instr) :
    decodeOpcode w = some i ↔ fieldOPC w = i.opcode ∧ i.withFieldsOf w = i := by
  constructor
  · intro h
    have hopc := opcode_of_decodeOpcode h
    exact ⟨hopc, Option.some.inj ((decodeOpcode_of_opcode hopc).symm.trans h)⟩
  · rintro ⟨hopc, hrow⟩
    rw [decodeOpcode_of_opcode hopc, hrow]

/-! ### The word of a command, and the bits its row uses -/

/-- The word of every command, from the statements per command. -/
theorem encodedHeader : ∀ i : Instr, EncodedHeader.Statement i
  | .bypass osc flag => EncodedHeader.bypass osc flag
  | .coarse osc val => EncodedHeader.coarse osc val
  | .fine osc val => EncodedHeader.fine osc val
  | .fmrange osc val => EncodedHeader.fmrange osc val
  | .freq osc val => EncodedHeader.freq osc val
  | .gain osc val => EncodedHeader.gain osc val
  | .pitchmode osc mode => EncodedHeader.pitchmode osc mode
  | .output osc kind target => EncodedHeader.output osc kind target
  | .waveform osc wave => EncodedHeader.waveform osc wave
  | .attack val => EncodedHeader.attack val
  | .decay val => EncodedHeader.decay val
  | .sustain val => EncodedHeader.sustain val
  | .release val => EncodedHeader.release val
  | .master val => EncodedHeader.master val
  | .mixermode mode => EncodedHeader.mixermode mode
  | .noteon pitch velocity => EncodedHeader.noteon pitch velocity
  | .noteoff pitch => EncodedHeader.noteoff pitch
  | .pitchbend lsb msb => EncodedHeader.pitchbend lsb msb
  | .resetmidi => EncodedHeader.resetmidi
  | .quit => EncodedHeader.quit

theorem withFieldsOf_encode (i : Instr) : i.withFieldsOf (encode i) = i := by
  cases i <;> simp [encode, Instr.withFieldsOf]

/-- The operands of a row stand in the bits it uses. -/
theorem withFieldsOf_and_usedMask (w : CmdWord) (i : Instr) : i.withFieldsOf (w &&& i.usedMask) = i.withFieldsOf w := by
  cases i <;> simp [Instr.withFieldsOf, Instr.usedMask]

/-- Every row uses OPC. -/
theorem fieldOPC_usedMask (i : Instr) : fieldOPC i.usedMask = BitVec.allOnes 8 := by
  cases i <;> simp [Instr.usedMask]

/-- Every row uses RSV. -/
theorem fieldRSV_usedMask (i : Instr) : fieldRSV i.usedMask = BitVec.allOnes 32 := by
  cases i <;> simp [Instr.usedMask]

/-- The used bits of a word with a row's opcode are the word of the command the row reads. -/
theorem encode_withFieldsOf {w : CmdWord} {i : Instr} (hopc : fieldOPC w = i.opcode) (hrsv : fieldRSV w = 0) :
    encode (i.withFieldsOf w) = w &&& i.usedMask := by
  cases i <;> apply word_ext <;> simp [encode, Instr.withFieldsOf, Instr.usedMask, hrsv, hopc, Instr.opcode]

/-! ### Decoding -/

/-- Settles O3: the row of a command reads its operands in the bits it uses, and the command's word holds them there. -/
theorem decodeReadsExactlyTheUsedBits : Obligations.DecodeReadsExactlyTheUsedBits := by
  intro w i
  rw [decode_ok_iff, decodeOpcode_eq_some_iff]
  constructor
  · rintro ⟨hrsv, hopc, hrow⟩
    rw [← encode_withFieldsOf hopc hrsv, hrow]
  · intro h
    obtain ⟨hopc, hrsv, -⟩ := encodedHeader i
    refine ⟨?_, ?_, ?_⟩
    · rw [← hrsv, ← h, fieldRSV_and, fieldRSV_usedMask, BitVec.and_allOnes]
    · rw [← hopc, ← h, fieldOPC_and, fieldOPC_usedMask, BitVec.and_allOnes]
    · rw [← withFieldsOf_and_usedMask, h, withFieldsOf_encode]

theorem decode_encode (i : Instr) : decode (encode i) = .ok i :=
  (decodeReadsExactlyTheUsedBits (encode i) i).mpr (encodedHeader i).2.2

/-- Settles O2: the word of a command has no bit outside its row, and the port's bytes make that word. -/
theorem decodeOfEncode : Obligations.DecodeOfEncode := by
  intro i
  refine ⟨decode_encode i, ?_⟩
  rw [decodeBytes, wordOfBytes_portBytes]
  exact decode_encode i

theorem decode_of_encode_eq {i : Instr} {w : CmdWord} (h : encode i = w) : decode w = .ok i := h ▸ decode_encode i

/-- Settles O1: the words and the bytes are computed, and each word decodes because it is its command's. -/
theorem workedEncodings : Obligations.WorkedEncodings :=
  ⟨⟨by decide, decode_of_encode_eq (by decide), by decide⟩, ⟨by decide, decode_of_encode_eq (by decide), by decide⟩,
    ⟨by decide, decode_of_encode_eq (by decide)⟩, ⟨by decide, decode_of_encode_eq (by decide)⟩,
    ⟨by decide, decode_of_encode_eq (by decide)⟩, ⟨by decide, decode_of_encode_eq (by decide)⟩⟩

/-! ### Words that stand for no command -/

/-- The opcodes of the map (R114). -/
theorem opcode_bounds (i : Instr) : 0 < i.opcode.toNat ∧ i.opcode.toNat < 0x15 := by
  cases i <;> simp [Instr.opcode]

/-- A word with a bit of RSV set or a reserved opcode stands for no command (R113 checks 1 and 2). -/
theorem decode_error_of_malformed_or_reserved {w : CmdWord}
    (h : fieldRSV w ≠ 0 ∨ fieldOPC w = 0 ∨ 0x15 ≤ (fieldOPC w).toNat) : ∃ e, decode w = .error e := by
  rcases hd : decode w with e | i
  · exact ⟨e, rfl⟩
  · obtain ⟨hrsv, hi⟩ := (decode_ok_iff w i).mp hd
    obtain ⟨hpos, hlt⟩ := opcode_bounds i
    rw [← opcode_of_decodeOpcode hi] at hpos hlt
    rcases h with h | h | h
    · exact absurd hrsv h
    · rw [h] at hpos
      exact absurd hpos (by decide)
    · exact absurd hlt (not_lt.mpr h)

end Sys2Proof

namespace Sys2Proof.Machine

/-- Settles O5: the word stands for no command, and the drain goes on with the entries behind it. -/
theorem malformedOrReservedWordDropped : Obligations.MalformedOrReservedWordDropped := by
  intro w s h
  obtain ⟨e, he⟩ := decode_error_of_malformed_or_reserved h
  refine ⟨applyWord_of_error he s, fun rest hf => ?_⟩
  rw [drain_of_cons hf, applyWord_of_error he]
  rfl

/-! ### Checks 3 and 4 -/

theorem withOsc_of_nOsc_le {s : State} {k : BitVec 8} (h : s.nOsc ≤ k.toNat) (f : Oscillator → Result) :
    withOsc s k f = dropInvalid s := by
  rw [withOsc, List.getElem?_eq_none h]

theorem withFinite_of_not_finite {v : F64} (h : fIsFinite v = false) (s : State) (r : Result) :
    withFinite s v r = dropInvalid s := by
  rw [withFinite, h]
  rfl

/-- A command that every oscillator drops is dropped, at any index. -/
theorem withOsc_eq_dropInvalid {s : State} {f : Oscillator → Result} (k : BitVec 8) (h : ∀ o, f o = dropInvalid s) :
    withOsc s k f = dropInvalid s := by
  unfold withOsc
  split
  · exact h _
  · rfl

/-- Check 3 of R113 for every command it is made on. -/
theorem exec_of_nOsc_le {i : Instr} {s : State} {k : BitVec 8} (hi : i.oscIndex = some k) (h : s.nOsc ≤ k.toNat) :
    exec i s = dropInvalid s := by
  cases i <;> cases hi <;> exact withOsc_of_nOsc_le h _

/-- Check 4 of R113 for every command it is made on. -/
theorem exec_of_not_finite {i : Instr} {v : F64} (hi : i.value = some v) (h : fIsFinite v = false) (s : State) :
    exec i s = dropInvalid s := by
  cases i with
  | bypass | pitchmode | output | waveform | mixermode | noteon | noteoff | pitchbend | resetmidi | quit => cases hi
  | coarse k | fine k | fmrange k | freq k | gain k =>
    cases hi
    exact withOsc_eq_dropInvalid k fun _ => withFinite_of_not_finite h s _
  | attack | decay | sustain | release | master =>
    cases hi
    exact withFinite_of_not_finite h s _

/-- Settles O6: either check drops the command. -/
theorem badIndexOrValueDropped : Obligations.BadIndexOrValueDropped := by
  rintro i s (⟨k, hi, hk⟩ | ⟨v, hi, hv⟩)
  · exact exec_of_nOsc_le hi hk
  · exact exec_of_not_finite hi hv s

end Sys2Proof.Machine
end

section
/-! The oscillator's datapath (40_wavetable_oscillator.md) and the tick over it: O33, O34, O36, O37, O42 and O43. -/

namespace Sys2Proof.Machine

/-! ### Noise draws -/

/-- R144: what stands for a draw lies in [−1.0, 1.0). -/
theorem noiseInRange_mem (v : F64) : fLe fpMinusOne (noiseInRange v) = true ∧ fLt (noiseInRange v) fpOne = true :=
  fWithin_mem (by decide) v

theorem noiseInRange_of_mem {v : F64} (hl : fLe fpMinusOne v = true) (hu : fLt v fpOne = true) : noiseInRange v = v :=
  fWithin_of_mem ⟨hl, hu⟩ _

theorem drawNoise_of_cons {s : State} {v : F64} {rest : List F64} (h : s.noiseIn = v :: rest) :
    drawNoise s = ⟨noiseInRange v, { s with noiseIn := rest }⟩ := by
  simp only [drawNoise, h]

theorem drawNoise_of_nil {s : State} (h : s.noiseIn = []) :
    drawNoise s = ⟨noiseInRange (Config.noise s.noiseCount), { s with noiseCount := s.noiseCount + 1 }⟩ := by
  simp only [drawNoise, h]

/-- Settles O33: a draw is an offer brought into the range, whether the environment has listed it or not. -/
theorem noiseDrawInRange : Obligations.NoiseDrawInRange := by
  intro s
  by_cases hn : s.noiseIn = []
  · obtain ⟨hl, hu⟩ := noiseInRange_mem (Config.noise s.noiseCount)
    rw [drawNoise_of_nil hn]
    refine ⟨hl, hu, .inr ⟨rfl, hn⟩, fun v rest h => (List.cons_ne_nil v rest (h.symm.trans hn)).elim, ?_⟩
    rintro v - rfl hlv huv
    exact noiseInRange_of_mem hlv huv
  · obtain ⟨w, rest, hw⟩ := List.exists_cons_of_ne_nil hn
    obtain ⟨hl, hu⟩ := noiseInRange_mem w
    rw [drawNoise_of_cons hw]
    refine ⟨hl, hu, .inl ⟨by rw [hw]; rfl, hn⟩, ?_, fun v h => (hn h).elim⟩
    intro v rest' hv hlv huv
    cases hw.symm.trans hv
    exact noiseInRange_of_mem hlv huv

/-! ### The phase wrap -/

/-- R146's formula, with its remainder and its first guard named. -/
theorem wrapPhase_eq {x r r' : F64} (hr : r = fSub x (fMul fp1024 (fFloor (fDiv x fp1024))))
    (hr' : r' = if fLt r fpZero then fAdd r fp1024 else r) :
    wrapPhase x = if fIsFinite x then (if fLe fp1024 r' then fpZero else r') else fpZero := by
  subst hr hr'
  rfl

/-- Settles O34: the range is what keeps every PHASE in the table, and the formula is the definition. -/
theorem wrapLandsInTheTable : Obligations.WrapLandsInTheTable := fun x =>
  ⟨wrapPhase_legal x, fun hx => if_neg (ne_true_of_eq_false hx),
    fun hx _ _ hr hr' => (wrapPhase_eq hr hr').trans (if_pos hx)⟩

/-! ### The calculation of one oscillator -/

/-- NONFINITE as a condition says. -/
theorem setStatusIf_not_nonfinite (s : State) (c : Bool) :
    s.setStatusIf (!c) statusNONFINITE = { s with status := if c then s.status else s.status ||| 0x04 } := by
  cases c
  · rfl
  · exact State.setStatusIf_false s _

/-- `osc_calc` as R150 writes it: the shaped raw sample, the draws it takes, and PHASE by R146's formula. -/
theorem oscCalc_eq_of_sum {i : Nat} {s : State} {o : Oscillator} {sum r r' : F64} (h : s.osc[i]? = some o)
    (hb : o.bypass = false) (hsum : phaseSum o s.bend s.sr = sum)
    (hr : r = fSub sum (fMul fp1024 (fFloor (fDiv sum fp1024))))
    (hr' : r' = if fLt r fpZero then fAdd r fp1024 else r) :
    oscCalc i s =
      ⟨o.shaped s (rawSample o s).value,
        { s.afterDraws (if o.wave = .noise then 1 else 0) with
          osc := s.osc.set i
            { o with
              phase := if fIsFinite sum then (if fLe fp1024 r' then fpZero else r') else fpZero
              amp := if o.pmode = .midi then ampAfterCalc s.tick s.sr o.amp else o.amp }
          status := if fIsFinite sum then s.status else s.status ||| 0x04 }⟩ := by
  rw [oscCalc_eq h hb, hsum, setStatusIf_not_nonfinite, Oscillator.afterCalc, hsum, wrapPhase_eq hr hr']
  rfl

/-- A waveform with a table is not Noise (R144). -/
theorem ne_noise_of_romWT {w : Waveform} {table : Nat → F64} (h : romWT w = some table) : w ≠ .noise := by
  rintro rfl
  cases h

theorem tableIndex_of_finite {p : F64} (h : fIsFinite p = true) :
    tableIndex p = (fVal p / (fUnit : Int) % 1024).toNat := if_pos h

/-- Settles O36: a table waveform takes no draw, and its increment is R151's quotient. -/
theorem oscCalcOfATableWaveform : Obligations.OscCalcOfATableWaveform := by
  intro i s o table raw f sum r r' h hb hw hraw hf hsum hr hr'
  have hn := ne_noise_of_romWT hw
  have hps : phaseSum o s.bend s.sr = sum := by
    rw [phaseSum, phaseIncrement, if_neg hn, hsum, hf]
    rfl
  have hv : rawSample o s = ⟨raw, s⟩ := by simp only [rawSample, hw, hraw]
  refine ⟨tableIndex_of_finite, ?_⟩
  rw [oscCalc_eq_of_sum h hb hps hr hr', hv, if_neg hn, State.afterDraws_zero]
  rfl

/-- Settles O37: Noise takes one draw, and its increment is 1.0. -/
theorem oscCalcOfNoise : Obligations.OscCalcOfNoise := by
  intro i s o sum r r' h hb hw hsum hr hr'
  have hps : phaseSum o s.bend s.sr = sum := by rw [phaseSum, phaseIncrement, if_pos hw, hsum]
  have hv : rawSample o s = drawNoise s := by simp only [rawSample, hw, romWT]
  rw [oscCalc_eq_of_sum h hb hps hr hr', hv, if_pos hw, drawNoise_state_eq]
  rfl

/-! ### The tick with nothing to drain -/

/-- The mixer's output in a tick that drains to s (R200, R203). -/
def State.tickMix (s : State) : F64 :=
  (mixer ⟨s.carrierIndices.foldl (fun acc i => fAdd acc (s.tickSample i)) fpZero, s⟩).value

/-- The mixer's output scaled by HEADROOM, before R205's guard. -/
def State.tickScaled (s : State) : F64 := fMul s.tickMix s.params.headroom

/-- What a tick leaves, over the bank and the status that its calculations leave. -/
theorem computeSample_eq (s : State) :
    ∃ u, Progress s s.evaluationOrder u ∧ (s.RoutingInv → Exact s s.evaluationOrder u) ∧
      computeSample s = { s.afterDraws (s.osc.countP Oscillator.takesDraw) with
        osc := u.osc
        master := if s.mmode = .midi then ampAfterCalc s.tick s.sr s.master else s.master
        status := u.status ||| (if fIsFinite s.tickScaled then 0 else 0x04)
        outSample := finalSample s.tickScaled
        tick := s.tick + 1, reply := .sample (finalSample s.tickScaled) } := by
  obtain ⟨p, hsum⟩ := carriers_progress s
  refine ⟨_, p, carriers_exact, ?_⟩
  obtain ⟨m, hm, he⟩ := emit_mixer (carriers (modulators s))
  obtain ⟨hparams, hsr, htick, -, hmmode, hmaster, -⟩ := p.fields
  have hmix : m = s.tickMix := by
    rw [hm, hsum, hmmode, htick, hsr, hmaster]
    unfold State.tickMix mixer
    rcases s.mmode <;> rfl
  rw [computeSample, he, hmix, hparams, hsr, htick, hmmode, hmaster, ← drawsOf_evaluationOrder]
  conv_lhs => rw [p.frame]
  rfl

/-- Once every FM input is calculated, each slot holds its modulator's sample (R204). -/
theorem tickSlots_of_subset (s : State) {D : List Nat} {o : Oscillator} (h : ∀ k ∈ o.fmin, k ∈ D) :
    s.tickSlots D o.slots = o.fmin.map fun m => (m, s.tickSample m) := by
  rw [State.tickSlots, Oscillator.fmin, List.map_map]
  refine List.map_congr_left fun e he => ?_
  simp [h e.1 (List.mem_map_of_mem he)]

/-- Every oscillator is calculated once: in MIDI pitch mode its amplifier is stepped once, unless it is bypassed. -/
theorem Progress.osc_all {s u : State} (p : Progress s s.evaluationOrder u) {k : Nat} {o : Oscillator}
    (h : s.osc[k]? = some o) :
    ∃ o', u.osc[k]? = some o' ∧ o'.fmin = o.fmin ∧
      o' = { o with
        phase := o'.phase, slots := o'.slots
        amp := if o.bypass = false ∧ o.pmode = .midi then ampAfterCalc s.tick s.sr o.amp else o.amp } ∧
      (o.bypass = true → o'.phase = o.phase) := by
  obtain ⟨o', hget, hfmin, hframe, hphase⟩ := p.osc k o h
  simp only [mem_evaluationOrder (s.lt_of_get h), true_and] at hframe
  exact ⟨o', hget, hfmin, hframe, fun hb => hphase (.inr hb)⟩

/-- An amplifier that is stepped or left changes in ESTATE and LAST alone (R175). -/
theorem ampAfterCalc_ite_frame (c : Prop) [Decidable c] (now : Stamp) (sr : F64) (a : Amplifier) :
    (if c then ampAfterCalc now sr a else a) =
      { a with
        estate := (if c then ampAfterCalc now sr a else a).estate
        last := (if c then ampAfterCalc now sr a else a).last } := by
  split
  · exact ampAfterCalc_frame now sr a
  · rfl

/-- NONFINITE may have been set before. -/
theorem or_nonfinite_of_status {a b : BitVec 8} (h : a = b ∨ a = b ||| 0x04) : a ||| 0x04 = b ||| 0x04 := by
  rcases h with rfl | rfl
  · rfl
  · exact or_nonfinite_twice b

/-- Settles O42: the frame is that of the calculations; with the routes legal they are exact. -/
theorem tickChangesOnlyTheDatapath : Obligations.TickChangesOnlyTheDatapath := by
  intro s hh hf
  obtain ⟨u, p, x, hu⟩ := computeSample_eq s
  refine ⟨_, (tick_of_drained hh hf).trans (congrArg _ hu), p.size, rfl, fIsFinite_finalSample _, ?_, ?_,
    fun hm => if_neg (by simp [hm]), fun hm => if_pos hm, ?_⟩
  · show u.status ||| _ = _ ∨ u.status ||| _ = _
    split
    · simpa using p.status
    · exact .inr (or_nonfinite_of_status p.status)
  · exact ampAfterCalc_ite_frame _ _ _ _
  · intro k o ho
    obtain ⟨o', hget, hfmin, hframe, hphase⟩ := p.osc_all ho
    have hamp : o'.amp = if o.bypass = false ∧ o.pmode = .midi then ampAfterCalc s.tick s.sr o.amp else o.amp := by
      rw [hframe]
    refine ⟨o', hget, ?_, hfmin, fun hb => ⟨hphase hb, by simp [hamp, hb]⟩, fun hm => by simp [hamp, hm],
      fun hb hm => by simp [hamp, hb, hm], fun r => ?_, fun r hb => ?_⟩
    · have h := ampAfterCalc_ite_frame (o.bypass = false ∧ o.pmode = .midi) s.tick s.sr o.amp
      rw [← hamp] at h
      rw [← h, hamp]
      exact hframe
    · rw [(x r).slots k o o' ho hget]
      exact tickSlots_of_subset s fun m hm => mem_evaluationOrder ((r.slotsLegal k o ho).2 m hm).1
    · exact (x r).phase k o o' ho hget (mem_evaluationOrder (s.lt_of_get ho)) hb

/-- Settles O43: the sum of the carriers mixed, and NONFINITE from the sample and from the phase sums. -/
theorem tickSampleIsTheMix : Obligations.TickSampleIsTheMix := by
  intro s sum m y hh hf hsum hm hy
  obtain ⟨u, p, x, hu⟩ := computeSample_eq s
  have hscaled : y = s.tickScaled := by
    rw [hy, hm, hsum, State.tickScaled]
    unfold State.tickMix mixer
    rcases s.mmode <;> rfl
  subst hscaled
  refine ⟨_, (tick_of_drained hh hf).trans (congrArg _ hu), rfl, rfl, rfl, fun hy => ?_,
    fun r => ⟨fun ho => ?_, fun hy ho => ?_⟩⟩
  · show u.status ||| _ = _
    rw [if_neg (by simp [hy])]
    exact or_nonfinite_of_status p.status
  · show u.status ||| _ = _
    rw [(x r).statusEq, if_pos ((phaseOverflow_evaluationOrder s).mpr ho)]
    split
    · simp
    · exact or_nonfinite_twice _
  · show u.status ||| _ = _
    have hn : ¬s.phaseOverflow s.evaluationOrder = true := by
      rw [phaseOverflow_evaluationOrder]
      rintro ⟨o, hmem, hb, hinf⟩
      simp [ho o hmem hb] at hinf
    rw [(x r).statusEq, if_neg hn, if_pos hy]
    simp

end Sys2Proof.Machine
end

section
/-! O28 to O31: the amplifier's state machine and its calculation (R173 to R178), one equation per branch. -/

namespace Sys2Proof.Machine

/-! ### Note events -/

/-- R173: the first pitch starts the attack and clears the release. -/
theorem ampNoteOn_of_free (now : Stamp) (p : Pitch) {a : Amplifier} (h : a.held = []) :
    ampNoteOn now p a = { a with held := [p], start := some now, rstart := none, estate := .attack } := if_pos h

theorem ampNoteOn_of_mem (now : Stamp) {p : Pitch} {a : Amplifier} (hp : p ∈ a.held) : ampNoteOn now p a = a :=
  (if_neg (List.ne_nil_of_mem hp)).trans (if_pos hp)

/-- R173: a further new pitch joins the set, and restarts the attack unless LEGATO is set. -/
theorem ampNoteOn_of_new (now : Stamp) {p : Pitch} {a : Amplifier} (h : a.held ≠ []) (hp : p ∉ a.held) :
    ampNoteOn now p a =
      { a with
        held := pitchInsert p a.held
        start := if a.legato then a.start else some now
        estate := if a.legato then a.estate else .attack } := by
  rw [ampNoteOn, if_neg h, if_neg hp]
  split <;> rfl

theorem ampNoteOff_of_not_mem (now : Stamp) {p : Pitch} {a : Amplifier} (hp : p ∉ a.held) :
    ampNoteOff now p a = a := if_neg hp

/-- R174: the last held pitch starts the release. -/
theorem ampNoteOff_of_last (now : Stamp) {p : Pitch} {a : Amplifier} (hp : p ∈ a.held)
    (hlast : pitchErase p a.held = []) :
    ampNoteOff now p a = { a with held := [], start := none, rstart := some now, estate := .release } :=
  (if_pos hp).trans (if_pos hlast)

/-- R174: while another pitch stays held, the pitch only leaves the set. -/
theorem ampNoteOff_of_other (now : Stamp) {p : Pitch} {a : Amplifier} (hp : p ∈ a.held)
    (hrest : pitchErase p a.held ≠ []) : ampNoteOff now p a = { a with held := pitchErase p a.held } :=
  (if_pos hp).trans (if_neg hrest)

/-- Settles O28, branch by branch of R173. -/
theorem ampNoteOnTransitions : Obligations.AmpNoteOnTransitions := by
  refine fun now p a => ⟨ampNoteOn_of_free now p, ampNoteOn_of_mem now, fun h hp =>
    ⟨fun q => mem_ampNoteOn_held now p q a, ?_⟩⟩
  rw [ampNoteOn_of_new now h hp]

/-- Settles O29: the pitch is the last one held exactly when its removal empties the set. -/
theorem ampNoteOffTransitions : Obligations.AmpNoteOffTransitions := by
  refine fun now p a => ⟨ampNoteOff_of_not_mem now, fun hp hlast => ?_, fun hp ⟨q, hq, hne⟩ => ?_⟩
  · exact ampNoteOff_of_last now hp (pitchErase_eq_nil.mpr hlast)
  · exact ampNoteOff_of_other now hp fun hnil => hne (pitchErase_eq_nil.mp hnil q hq)

/-! ### The branches of the envelope -/

/-- R175, R178: up to the end of the attack, the ramp to its target, or the target at once if there is no ramp. -/
theorem heldEnvelope_attack {a : Amplifier} {t : F64} (h : fLe t a.envA = true) :
    heldEnvelope a t =
      ⟨if fEq a.envA fpZero then if fLt fpZero a.envD then fpOne else a.envS
        else fMul (if fLt fpZero a.envD then fpOne else a.envS) (fDiv t a.envA), .attack⟩ := if_pos h

theorem heldEnvelope_sustain {a : Amplifier} {t : F64} (hA : fLe t a.envA = false)
    (hD : fLt (fAdd a.envA a.envD) t = true) : heldEnvelope a t = ⟨a.envS, .sustain⟩ :=
  (if_neg (ne_true_of_eq_false hA)).trans (if_pos hD)

theorem heldEnvelope_decay {a : Amplifier} {t : F64} (hA : fLe t a.envA = false)
    (hD : fLt (fAdd a.envA a.envD) t = false) :
    heldEnvelope a t = ⟨fAdd fpOne (fMul (fSub a.envS fpOne) (fDiv (fSub t a.envA) a.envD)), .decay⟩ :=
  (if_neg (ne_true_of_eq_false hA)).trans (if_neg (ne_true_of_eq_false hD))

theorem releaseEnvelope_end {a : Amplifier} {t : F64} (h : fLe a.envR t = true) :
    releaseEnvelope a t = ⟨fpZero, .idle⟩ := if_pos h

/-- R176: until its end a release ramps down from the anchor LAST. -/
theorem releaseEnvelope_ramp {a : Amplifier} {t : F64} (h : fLe a.envR t = false) :
    releaseEnvelope a t = ⟨fMul a.last (fSub fpOne (fDiv t a.envR)), .release⟩ := if_neg (ne_true_of_eq_false h)

/-- R170, R175: with a pitch held, the envelope is the held branch at the time elapsed since START. -/
theorem envelope_of_held {now st : Stamp} {sr : F64} {a : Amplifier} (h : a.held ≠ []) (hst : a.start = some st) :
    envelope now sr a = heldEnvelope a (fDiv (fOfNat (now - st).toNat) sr) := by
  rw [envelope, if_pos h, hst, elapsed]

/-- R170, R176: in release, the envelope is the release branch at the time elapsed since RSTART. -/
theorem envelope_of_release {now st : Stamp} {sr : F64} {a : Amplifier} (h : a.held = []) (hr : a.estate = .release)
    (hst : a.rstart = some st) : envelope now sr a = releaseEnvelope a (fDiv (fOfNat (now - st).toNat) sr) := by
  rw [envelope, if_neg (not_not.mpr h), if_pos hr, hst, elapsed]

/-- R177: with no pitch held and no release running, the amplitude is +0.0. -/
theorem envelope_of_idle {now : Stamp} {sr : F64} {a : Amplifier} (h : a.held = []) (hr : a.estate ≠ .release) :
    envelope now sr a = ⟨fpZero, a.estate⟩ := by
  rw [envelope, if_neg (not_not.mpr h), if_neg hr]

/-! ### What one calculation writes and answers -/

/-- R175: a calculation with a pitch held writes ESTATE and LAST from its envelope, and scales the sample by it. -/
theorem ampCalc_of_held {now : Stamp} {sr : F64} {a : Amplifier} {e : Envelope} (x : F64) (h : a.held ≠ [])
    (he : envelope now sr a = e) :
    ampAfterCalc now sr a = { a with estate := e.estate, last := e.amplitude }
      ∧ ampOutput now sr a x = fMul (fMul x e.amplitude) a.gain := by
  subst he
  exact ⟨by rw [ampAfterCalc, if_pos h], rfl⟩

/-- R176, R177: a calculation with no pitch held writes ESTATE alone. -/
theorem ampCalc_of_free {now : Stamp} {sr : F64} {a : Amplifier} {e : Envelope} (x : F64) (h : a.held = [])
    (he : envelope now sr a = e) :
    ampAfterCalc now sr a = { a with estate := e.estate }
      ∧ ampOutput now sr a x = fMul (fMul x e.amplitude) a.gain := by
  subst he
  exact ⟨by rw [ampAfterCalc, if_neg (not_not.mpr h)], rfl⟩

/-- Settles O30: each of the three branches of `heldEnvelope` is what the calculation writes and scales by. -/
theorem ampCalcHeldBranch : Obligations.AmpCalcHeldBranch := by
  rintro now st sr x t a h hst rfl
  have henv := envelope_of_held (now := now) (sr := sr) h hst
  refine ⟨?attack, ?sustain, ?decay⟩
  case attack =>
    rintro hA _ rfl _ rfl
    exact ampCalc_of_held x h (henv.trans (heldEnvelope_attack hA))
  case sustain =>
    intro hA hD
    exact ampCalc_of_held x h (henv.trans (heldEnvelope_sustain hA hD))
  case decay =>
    rintro hA hD _ rfl
    exact ampCalc_of_held x h (henv.trans (heldEnvelope_decay hA hD))

/-- Settles O31: a release before and at its end, and the idle branch; ESTATE keeps its value but at the end. -/
theorem ampCalcReleaseAndIdle : Obligations.AmpCalcReleaseAndIdle := by
  refine fun now sr x a h => ⟨?release, ?idle⟩
  case release =>
    rintro st _ hr hst rfl
    have henv := envelope_of_release (now := now) (sr := sr) h hr hst
    refine ⟨fun hend => ampCalc_of_free x h (henv.trans (releaseEnvelope_end hend)), fun hramp => ?_⟩
    have hcalc := ampCalc_of_free x h (henv.trans (releaseEnvelope_ramp hramp))
    rwa [← hr] at hcalc
  case idle =>
    intro hr
    exact ampCalc_of_free x h (envelope_of_idle h hr)

end Sys2Proof.Machine
end

section
/-! O44 and O45: the samples that carriers read in a tick (R204), and the frames that `render` writes (R207). -/

namespace Sys2Proof.Machine

/-! ### The slots after phase 1 -/

/-- Draws leave what a table waveform computes (R144, R145). -/
theorem oscCalc_value_afterDraws {i : Nat} {s : State} {o : Oscillator} (h : s.osc[i]? = some o)
    (hw : o.wave ≠ .noise) (n : Nat) : (oscCalc i (s.afterDraws n)).value = (oscCalc i s).value := by
  have hn : (s.afterDraws n).osc[i]? = some o := h
  have hraw : (rawSample o (s.afterDraws n)).value = (rawSample o s).value := by
    unfold rawSample
    rcases hwave : o.wave
    case noise => exact absurd hwave hw
    all_goals rfl
  rcases hb : o.bypass
  · rw [oscCalc_eq hn hb, oscCalc_eq h hb, hraw]
    rfl
  · rw [oscCalc_bypass hn hb, oscCalc_bypass h hb]

/-- With the routes legal, whatever feeds an oscillator is a modulator, which phase 1 calculates (R41, R203). -/
theorem State.RoutingInv.mem_modulators_of_mem_fmin {s : State} (r : s.RoutingInv) {j k : Nat} {o : Oscillator}
    (h : s.osc[j]? = some o) (hk : k ∈ o.fmin) : k ∈ (List.range s.nOsc).filter fun i => !s.isCarrier i := by
  obtain ⟨hlt, hne⟩ := (r.slotsLegal j o h).2 k hk
  obtain ⟨ok, hok⟩ := s.get_of_lt hlt
  have hout : ok.out = .osc j := (r.routed k j ok o hok h hne).mp hk
  simp [hlt, State.isCarrier, hok, hout]

/-- After phase 1 every slot holds the sample its modulator computes in this tick (R204). -/
theorem modulators_slots {s : State} (r : s.RoutingInv) {j : Nat} {o : Oscillator} (h : s.osc[j]? = some o) :
    ∃ o', (modulators s).osc[j]? = some o' ∧ o'.slots = o.fmin.map fun m => (m, s.tickSample m) := by
  have x := modulators_exact r
  obtain ⟨o', hget, -⟩ := x.osc j o h
  refine ⟨o', hget, ?_⟩
  rw [x.slots j o o' h hget]
  exact tickSlots_of_subset s fun _ => r.mem_modulators_of_mem_fmin h

/-- Settles O44: the carrier's slots after phase 1 hold the tick's samples, and its modulator is one of its inputs. -/
theorem modulatorHeardInTheSameTick : Obligations.ModulatorHeardInTheSameTick := by
  intro s i j oi r hi hout
  refine ⟨?_, fun hw => oscCalc_value_afterDraws hi hw _, fun _ => rfl⟩
  obtain ⟨hji, -, oj, hj, -⟩ := r.oneLevel i j oi hi hout
  have hfed : i ∈ oj.fmin := (r.routed i j oi oj hi hj hji.symm).mpr hout
  obtain ⟨oj', hget, hslots⟩ := modulators_slots r hj
  refine ⟨oj', hget, ?_⟩
  rw [hslots]
  exact List.lookup_graph s.tickSample hfed

/-! ### Ticks in a row -/

/-- The state a tick leaves. -/
def afterTick (s : State) : State :=
  match tick s with
  | .next t => t
  | .fault _ => s
  | .refused _ => s

theorem afterTick_of_tick {s t : State} (h : tick s = .next t) : afterTick s = t := by rw [afterTick, h]

theorem tick_eq_afterTick (s : State) : tick s = .next (afterTick s) := by
  obtain ⟨t, h⟩ := tick_completes s
  rw [afterTick_of_tick h, h]

/-- Every tick returns a sample (R203). -/
theorem reply_of_tick {s t : State} (h : tick s = .next t) : t.reply = .sample (returnedSample t) := by
  rcases tick_cases h with ⟨-, rfl⟩ | ⟨u, -, -, ⟨-, rfl⟩ | ⟨-, rfl⟩⟩ <;> rfl

/-- The sample a tick computes is the one it returns (R206). -/
theorem returnedSample_computeSample (s : State) : returnedSample (computeSample s) = (computeSample s).outSample := rfl

/-- A tick pushes nothing into the FIFO. -/
theorem computeSample_fifo (s : State) : (computeSample s).fifo = s.fifo := by
  obtain ⟨u, -, -, h⟩ := computeSample_eq s
  rw [h]
  rfl

/-- A running block with nothing to drain counts its ticks (R30). -/
theorem tick_iterate_afterTick (n : Nat) {s : State} (hh : s.halted = false) (hf : s.fifo = []) :
    (afterTick^[n] s).tick = s.tick + BitVec.ofNat 64 n := by
  induction n generalizing s with
  | zero => simp
  | succ n ih =>
    obtain ⟨htick, hhalted⟩ := computeSample_tick_halted s
    rw [Function.iterate_succ_apply, afterTick_of_tick (tick_of_drained hh hf),
      ih (hhalted.trans hh) ((computeSample_fifo s).trans hf), htick, BitVec.add_assoc, BitVec.add_comm 1,
      BitVec.ofNat_add]
    rfl

/-! ### Frames -/

/-- The samples that n ticks in a row return. -/
def returnedSamples (n : Nat) (s : State) : List F64 :=
  (List.range n).map fun f => returnedSample (afterTick^[f + 1] s)

theorem returnedSamples_succ (n : Nat) (s : State) :
    returnedSamples (n + 1) s = returnedSample (afterTick s) :: returnedSamples n (afterTick s) := by
  simp [returnedSamples, List.range_succ_eq_map, Function.comp_def]

theorem getElem?_returnedSamples {n f : Nat} (h : f < n) (s : State) :
    (returnedSamples n s)[f]? = some (returnedSample (afterTick^[f + 1] s)) := by
  simp [returnedSamples, h]

/-- Samples converted and written to every channel (R207). -/
def interleave {α : Type} (convert : F64 → α) (channels : Nat) (samples : List F64) : List α :=
  samples.flatMap fun y => List.replicate channels (convert y)

section
variable {α : Type} (convert : F64 → α) (channels : Nat)

theorem length_interleave (samples : List F64) :
    (interleave convert channels samples).length = samples.length * channels := by
  simp [interleave]

/-- Frame f holds its sample on every channel. -/
theorem getElem?_interleave {c : Nat} (hc : c < channels) (samples : List F64) (f : Nat) :
    (interleave convert channels samples)[f * channels + c]? = samples[f]?.map convert := by
  induction samples generalizing f with
  | nil => simp [interleave]
  | cons y samples ih =>
    have hcons : interleave convert channels (y :: samples) =
        List.replicate channels (convert y) ++ interleave convert channels samples := List.flatMap_cons
    rw [hcons]
    cases f with
    | zero => simp [List.getElem?_append_left, hc]
    | succ f =>
      have hidx : (f + 1) * channels + c = channels + (f * channels + c) := by ring
      rw [hidx, List.getElem?_append_right (by simp)]
      simpa using ih f

/-- The frames of `render` are the ticks' samples in order. -/
theorem renderFrames_eq (n : Nat) (s : State) :
    renderFrames convert channels n s =
      .next ⟨interleave convert channels (returnedSamples n s), afterTick^[n] s⟩ := by
  induction n generalizing s with
  | zero => rfl
  | succ n ih =>
    rw [renderFrames, tick_eq_afterTick s]
    simp only [ih (afterTick s), returnedSamples_succ]
    rfl

/-- The buffer of `render`: the frames, then silence in what is left of it (R207). -/
def renderBuffer (len : Nat) (s : State) : List α :=
  interleave convert channels (returnedSamples (len / channels) s) ++
    List.replicate (len % channels) (convert fpZero)

theorem render_eq (len : Nat) (s : State) :
    render convert len channels s = .next ⟨renderBuffer convert channels len s, afterTick^[len / channels] s⟩ := by
  rw [render, renderFrames_eq]
  rfl

theorem length_frames (n : Nat) (s : State) :
    (interleave convert channels (returnedSamples n s)).length = n * channels := by
  rw [length_interleave, returnedSamples, List.length_map, List.length_range]

theorem length_renderBuffer (len : Nat) (s : State) : (renderBuffer convert channels len s).length = len := by
  rw [renderBuffer, List.length_append, length_frames, List.length_replicate, Nat.div_add_mod']

theorem getElem?_renderBuffer_frame {len f c : Nat} (hf : f < len / channels) (hc : c < channels) (s : State) :
    (renderBuffer convert channels len s)[f * channels + c]? =
      some (convert (returnedSample (afterTick^[f + 1] s))) := by
  have hframe := getElem?_interleave convert channels hc (returnedSamples (len / channels) s) f
  rw [getElem?_returnedSamples hf, Option.map_some] at hframe
  obtain ⟨hin, -⟩ := List.getElem?_eq_some_iff.mp hframe
  rw [renderBuffer, List.getElem?_append_left hin, hframe]

theorem getElem?_renderBuffer_silence {len e : Nat} (hle : len / channels * channels ≤ e) (hlt : e < len)
    (s : State) : (renderBuffer convert channels len s)[e]? = some (convert fpZero) := by
  have hlen := length_frames convert channels (len / channels) s
  have hsplit : len / channels * channels + len % channels = len := Nat.div_add_mod' len channels
  rw [renderBuffer, List.getElem?_append_right (hlen ▸ hle), hlen, List.getElem?_replicate, if_pos (by omega)]

end

/-- Settles O45: the buffer is the samples of the ticks in a row, each on every channel, and a tail of silence. -/
theorem renderFillsTheBuffer : Obligations.RenderFillsTheBuffer := by
  intro α convert len channels s hC
  refine ⟨_, fun f => afterTick^[f] s, render_eq convert channels len s, length_renderBuffer convert channels len s,
    rfl, rfl, ?frames, fun _ hle hlt => getElem?_renderBuffer_silence convert channels hle hlt s, ?running⟩
  case frames =>
    intro f hf
    have htick : tick (afterTick^[f] s) = .next (afterTick^[f + 1] s) := by
      rw [Function.iterate_succ_apply']
      exact tick_eq_afterTick _
    exact ⟨htick, _, reply_of_tick htick, fun _ hc => getElem?_renderBuffer_frame convert channels hf hc s⟩
  case running =>
    refine fun hh hf => ⟨tick_iterate_afterTick _ hh hf, fun t hpos ht => ?_⟩
    have hfirst := getElem?_renderBuffer_frame convert channels hpos hC s
    rw [Nat.zero_mul] at hfirst
    obtain rfl : computeSample s = t := Host.Outcome.next.inj ((tick_of_drained hh hf).symm.trans ht)
    rw [hfirst, Function.iterate_one, afterTick_of_tick ht, returnedSample_computeSample]

end Sys2Proof.Machine
end

section
/-! The oscillator commands (43_cmd_oscillator.md): O8 to O14. Check 3 and check 4 of R113 are passed in each, so what a
command answers is the state its own effect leaves. -/

namespace Sys2Proof.Machine

/-! ### The checks passed -/

section
variable {s : State} {i : BitVec 8} {o : Oscillator}

/-- Check 3 of R113 where the index names an oscillator. -/
theorem withOsc_of_get (h : s.osc[i.toNat]? = some o) (f : Oscillator → Result) : withOsc s i f = f o := by
  rw [withOsc, h]

/-- Check 4 of R113 on a finite value. -/
theorem withFinite_of_finite {v : F64} (h : fIsFinite v = true) (s : State) (r : Result) : withFinite s v r = r :=
  if_pos h

/-- INVALID under a condition, as a write of STATUS alone. -/
theorem setInvalidIf_eq (s : State) (c : Bool) : s.setStatusIf c statusINVALID =
    { s with status := if c then s.status ||| 0x02 else s.status } := by
  cases c
  · exact State.setStatusIf_false s statusINVALID
  · rfl

/-- A command that updates one oscillator with a finite value: the whole next state. -/
theorem withOsc_withFinite_of_get (h : s.osc[i.toNat]? = some o) {v : F64} (hv : fIsFinite v = true)
    (f : Oscillator → Oscillator) :
    (withOsc s i fun o => withFinite s v (.next (s.setOsc i.toNat (f o)))) = .next
      { s with osc := s.osc.set i.toNat (f o) } := by
  rw [withOsc_of_get h, withFinite_of_finite hv]
  rfl

end

/-! ### The registers of one oscillator -/

/-- Settles O8: the flag operand is the register's next value, and its INVALID. -/
theorem bypassWritesTheFlag : Obligations.BypassWritesTheFlag := by
  intro i a s o ho
  rw [exec, execBypass, withOsc_of_get ho, setInvalidIf_eq, flagOperand_value, flagOperand_invalid]
  simp only [decide_eq_true_eq, State.setOsc]

/-- Settles O9: DETUNE is computed from the value written and the other register as it stands. -/
theorem detuneCommandsRecomputeDetune : Obligations.DetuneCommandsRecomputeDetune := fun _ v _ _ ho hv =>
  ⟨withOsc_withFinite_of_get ho hv fun o => { o with coarse := v, detune := detuneOf v o.fine },
    withOsc_withFinite_of_get ho hv fun o => { o with fine := v, detune := detuneOf o.coarse v }⟩

/-- Settles O10: FREQ alone clamps its value, and only a value below zero. -/
theorem fmrangeFreqGainWriteTheirRegisters : Obligations.FmrangeFreqGainWriteTheirRegisters := by
  intro i v s o ho hv
  refine ⟨withOsc_withFinite_of_get ho hv fun o => { o with fmrange := v }, ?freq,
    withOsc_withFinite_of_get ho hv fun o => { o with amp := o.amp.setGain v }⟩
  case freq =>
    rw [exec, execFreq, withOsc_of_get ho, withFinite_of_finite hv, setInvalidIf_eq, nonNegativeOperand_eq]
    rfl

/-- Settles O11: the code table of each operand is one formula, and so is its INVALID. -/
theorem pitchmodeAndWaveformSelect : Obligations.PitchmodeAndWaveformSelect := by
  intro i a s o ho
  constructor
  · rw [exec, execPitchmode, withOsc_of_get ho, setInvalidIf_eq, modeOperand_eq]
    simp only [decide_eq_true_eq, State.setOsc]
  · rw [exec, execWaveform, withOsc_of_get ho, setInvalidIf_eq, waveOperand_eq]
    simp only [decide_eq_true_eq, State.setOsc]

/-! ### OUTPUT -/

theorem targetOperand_of_ne_one {a : BitVec 8} (h : a ≠ 1) (b : BitVec 8) :
    targetOperand a b = ⟨.master, decide (1 < a.toNat)⟩ := by
  rw [targetOperand_eq, if_neg h]

section
variable {s : State} {i a b : BitVec 8} {oi : Oscillator} (hi : s.osc[i.toNat]? = some oi)
include hi

/-- OUTPUT on a route that R237 rejects. -/
theorem exec_output_of_rejected (h : routeRejected s i.toNat oi (targetOperand a b).value = true) :
    exec (.output i a b) s = dropInvalid s := by
  rw [exec, execOutput, withOsc_of_get hi, if_pos h]

/-- OUTPUT to the target the oscillator has. -/
theorem exec_output_of_present (h : routeRejected s i.toNat oi (targetOperand a b).value = false)
    (he : (targetOperand a b).value = oi.out) :
    exec (.output i a b) s = .next (s.setStatusIf (targetOperand a b).invalid statusINVALID) := by
  rw [exec, execOutput, withOsc_of_get hi, if_neg (by simp [h]), if_pos he]

/-- OUTPUT to a new target that R237 accepts. -/
theorem exec_output_of_accepted (h : routeRejected s i.toNat oi (targetOperand a b).value = false)
    (hn : (targetOperand a b).value ≠ oi.out) :
    exec (.output i a b) s = .next ((reroute s i.toNat oi.out (targetOperand a b).value).setStatusIf
      (targetOperand a b).invalid statusINVALID) := by
  rw [exec, execOutput, withOsc_of_get hi, if_neg (by simp [h]), if_neg hn]

end

/-- A route from Master to Master is none. -/
theorem reroute_master_master {s : State} {i : Nat} {o : Oscillator} (h : s.osc[i]? = some o) (ho : o.out = .master) :
    reroute s i .master .master = s := by
  have hset : reroute s i .master .master = s.setOsc i { o with out := .master } := by
    simp only [reroute, leaveTarget, joinTarget, setTarget, h]
  obtain ⟨hlt, rfl⟩ := List.getElem?_eq_some_iff.mp h
  rw [hset, ← ho, State.setOsc, List.set_getElem_self]

/-- OUTPUT to Master is a change of route, from whatever target: from Master itself it moves nothing. -/
theorem exec_output_to_master {s : State} {i a : BitVec 8} {oi : Oscillator} (hi : s.osc[i.toNat]? = some oi)
    (ha : a ≠ 1) (b : BitVec 8) : exec (.output i a b) s =
      .next ((reroute s i.toNat oi.out .master).setStatusIf (decide (1 < a.toNat)) statusINVALID) := by
  have ht := targetOperand_of_ne_one ha b
  have hr : routeRejected s i.toNat oi (targetOperand a b).value = false := by rw [ht]; rfl
  by_cases he : oi.out = .master
  · rw [exec_output_of_present hi hr (by rw [ht, he]), ht, he, reroute_master_master hi he]
  · rw [exec_output_of_accepted hi hr (by rw [ht]; exact Ne.symm he), ht]

/-- One oscillator of a rerouted bank. -/
theorem reroute_osc_of_get {s : State} {k : Nat} {o : Oscillator} (h : s.osc[k]? = some o) (i : Nat)
    (old new : Target) : (reroute s i old new).osc[k]? =
      some { o with slots := reroutedSlots i k old new o.slots, out := if k = i then new else o.out } := by
  rw [reroute_osc, h, Option.map_some]

section
variable {i k : Nat} {old new : Target} (l : List (Nat × F64))

/-- The registry that only loses i. -/
theorem reroutedSlots_of_left (ho : old = .osc k) (hn : new ≠ .osc k) :
    reroutedSlots i k old new l = slotErase i l := by
  rw [reroutedSlots, if_pos ho, if_neg hn]

/-- A registry that neither loses nor gains i. -/
theorem reroutedSlots_of_apart (ho : old ≠ .osc k) (hn : new ≠ .osc k) : reroutedSlots i k old new l = l := by
  rw [reroutedSlots, if_neg ho, if_neg hn]

/-- The registry that gains i has a slot of +0.0 for it. -/
theorem lookup_reroutedSlots_joined (hn : new = .osc k) : (reroutedSlots i k old new l).lookup i = some fpZero := by
  rw [reroutedSlots, if_pos hn, lookup_slotInsert_self]

/-- The slots of the other modulators stay, in every registry. -/
theorem lookup_reroutedSlots_ne {m : Nat} (hm : m ≠ i) : (reroutedSlots i k old new l).lookup m = l.lookup m := by
  have hleft : (if old = .osc k then slotErase i l else l).lookup m = l.lookup m := by
    split
    · exact lookup_slotErase_ne hm l
    · rfl
  rw [reroutedSlots]
  split
  · rw [lookup_slotInsert_ne hm, hleft]
  · exact hleft

end

/-- When OUTPUT with kind 1 is accepted, in the operands' own bytes and in FMIN (R237). -/
theorem routeRejected_osc_eq_false {s : State} {i b : BitVec 8} {oi : Oscillator} :
    routeRejected s i.toNat oi (targetOperand 1 b).value = false ↔
      ∃ oj, s.osc[b.toNat]? = some oj ∧ b ≠ i ∧ oj.out = .master ∧ oi.fmin = [] := by
  have hfmin : oi.slots = [] ↔ oi.fmin = [] := List.map_eq_nil_iff.symm
  have hne : b.toNat ≠ i.toNat ↔ b ≠ i := not_congr BitVec.toNat_inj
  exact routeRejected_eq_false.trans (by rw [hfmin, hne])

/-- Settles O12: the new carrier's registry gains i, the old one's loses it, and both are read slot by slot. -/
theorem outputJoinsTheCarrier : Obligations.OutputJoinsTheCarrier := by
  intro i b s oi oj hi hb hne hm hf ho
  have hrun : exec (.output i 1 b) s = .next (reroute s i.toNat oi.out (.osc b.toNat)) :=
    (exec_output_of_accepted hi (routeRejected_osc_eq_false.mpr ⟨oj, hb, hne, hm, hf⟩) (Ne.symm ho)).trans
      (congrArg _ (State.setStatusIf_false _ _))
  have hnew : ∀ {k : Nat}, k ≠ b.toNat → Target.osc b.toNat ≠ .osc k := fun hk h => hk (Target.osc.inj h).symm
  refine ⟨_, hrun, reroute_frame .., reroute_nOsc .., fun k o hk => ⟨_, reroute_osc_of_get hk .., rfl, ?fmin, ?joined,
    ?left, fun _ => lookup_reroutedSlots_ne o.slots, ?apart⟩⟩
  case fmin =>
    intro m
    have hk : Target.osc b.toNat = .osc k ↔ k = b.toNat := by rw [Target.osc.injEq, eq_comm]
    exact (mem_keys_reroutedSlots i.toNat k m oi.out (.osc b.toNat) o.slots).trans (by rw [hk, or_comm]; rfl)
  case joined =>
    rintro rfl
    exact lookup_reroutedSlots_joined o.slots rfl
  case left =>
    intro hold
    have hkb : k ≠ b.toNat := fun h => ho (h ▸ hold)
    exact (congrArg _ (reroutedSlots_of_left o.slots hold (hnew hkb))).trans (lookup_slotErase_self i.toNat o.slots)
  case apart => exact fun hkb hold => reroutedSlots_of_apart o.slots hold (hnew hkb)

/-- Settles O13: the change of route to Master takes i from the one registry that holds it. -/
theorem outputReturnsToMaster : Obligations.OutputReturnsToMaster := by
  intro i a b s oi hi ha
  have hnew : ∀ k, Target.master ≠ .osc k := nofun
  refine ⟨_, exec_output_to_master hi ha b, reroute_nOsc .., ?frame, fun k o hk => ⟨_, reroute_osc_of_get hk .., rfl,
    fun hold => reroutedSlots_of_left o.slots hold (hnew k), fun hold => reroutedSlots_of_apart o.slots hold (hnew k)⟩⟩
  case frame =>
    rw [setInvalidIf_eq, reroute_frame]
    simp only [decide_eq_true_eq]

/-- Settles O14: each ground contradicts R237's acceptance; the present target is accepted and moves nothing. -/
theorem outputRejectsIllegalRoutes : Obligations.OutputRejectsIllegalRoutes := by
  constructor
  · intro i b s oi hi hground
    refine exec_output_of_rejected hi (Bool.eq_true_of_not_eq_false fun hlegal => ?_)
    obtain ⟨oj, hj, hne, hm, hf⟩ := routeRejected_osc_eq_false.mp hlegal
    rcases hground with hout | hself | ⟨oj', hj', hcarrier⟩ | hinputs
    · exact not_le.mpr (s.lt_of_get hj) hout
    · exact hne hself
    · exact hcarrier (Option.some.inj (hj'.symm.trans hj) ▸ hm)
    · exact hinputs hf
  · intro i b s oi oj hi hb hne hm hf hpresent
    exact (exec_output_of_present hi (routeRejected_osc_eq_false.mpr ⟨oj, hb, hne, hm, hf⟩) hpresent.symm).trans
      (congrArg _ (State.setStatusIf_false _ _))

end Sys2Proof.Machine
end

section
/-! The master commands (44_cmd_master.md): O16 to O18. No command of the family has an index, so check 4 of R113 is
the one check to pass. -/

namespace Sys2Proof.Machine

/-- A command that updates the master amplifier with a finite value: the whole next state. -/
theorem withFinite_setMaster {v : F64} (hv : fIsFinite v = true) (s : State) (a : Amplifier) (c : Bool) :
    withFinite s v (.next ((s.setMaster a).setStatusIf c statusINVALID)) = .next
      { s with master := a, status := if c then s.status ||| 0x02 else s.status } := by
  rw [withFinite_of_finite hv, setInvalidIf_eq]
  rfl

/-- Settles O16: the three times share one clamp, and only a value below zero is clamped. -/
theorem masterTimesWriteTheEnvelope : Obligations.MasterTimesWriteTheEnvelope := by
  intro v s hv
  refine ⟨?attack, ?decay, ?release⟩
  case attack => rw [exec, execAttack, withFinite_setMaster hv, nonNegativeOperand_eq]
  case decay => rw [exec, execDecay, withFinite_setMaster hv, nonNegativeOperand_eq]
  case release => rw [exec, execRelease, withFinite_setMaster hv, nonNegativeOperand_eq]

/-- Settles O17: the level's clamp raises INVALID at either bound. -/
theorem sustainClampsTheLevel : Obligations.SustainClampsTheLevel := by
  intro v s hv
  rw [exec, execSustain, withFinite_setMaster hv, levelOperand_eq]
  simp only [Bool.or_eq_true]

/-- Settles O18: MASTER takes every finite value as it stands; MIXERMODE has its code table and no check. -/
theorem masterGainAndMixerMode : Obligations.MasterGainAndMixerMode := by
  constructor
  · intro v s hv
    exact withFinite_of_finite hv s _
  · intro a s
    rw [exec, execMixermode, setInvalidIf_eq, modeOperand_eq]
    simp only [decide_eq_true_eq]

end Sys2Proof.Machine
end

section
/-! The note and pitch-bend commands (45_cmd_note.md): O19 to O22. A note command's next state is one equation for every
pitch it names, clamped or not. -/

namespace Sys2Proof.Machine

/-! ### Note commands -/

/-- The operand is the one pitch with the clamped number. -/
theorem pitchOperand_value_eq {a : BitVec 8} {p : Pitch} (h : p.val = min a.toNat 127) : (pitchOperand a).value = p :=
  Fin.ext ((pitchOperand_val a).trans h.symm)

/-- A note command's write of the bank, the master amplifier and STATUS, as one record. -/
theorem noteEvent_eq (s : State) (f : Oscillator → Oscillator) (m : Amplifier) (a : BitVec 8) :
    ((s.mapOsc f).setMaster m).setStatusIf (pitchOperand a).invalid statusINVALID =
      { s.mapOsc f with master := m, status := if 127 < a.toNat then s.status ||| 0x02 else s.status } := by
  rw [setInvalidIf_eq]
  simp only [pitchOperand_invalid, decide_eq_true_eq]
  rfl

/-- NOTEON as a note-on of every oscillator and of the master amplifier: the whole next state. -/
theorem exec_noteon {a : BitVec 8} {p : Pitch} (h : p.val = min a.toNat 127) (v : BitVec 8) (s : State) :
    exec (.noteon a v) s = .next
      { s.mapOsc (Oscillator.noteOn s.tick p) with
        master := ampNoteOn s.tick p s.master
        status := if 127 < a.toNat then s.status ||| 0x02 else s.status } := by
  rw [exec, execNoteon, pitchOperand_value_eq h, noteEvent_eq]

/-- NOTEOFF as a note-off of every oscillator and of the master amplifier: the whole next state. -/
theorem exec_noteoff {a : BitVec 8} {p : Pitch} (h : p.val = min a.toNat 127) (s : State) :
    exec (.noteoff a) s = .next
      { s.mapOsc (Oscillator.noteOff s.tick p) with
        master := ampNoteOff s.tick p s.master
        status := if 127 < a.toNat then s.status ||| 0x02 else s.status } := by
  rw [exec, execNoteoff, pitchOperand_value_eq h, noteEvent_eq]

/-- Oscillator k of a bank that one function has updated. -/
theorem mapOsc_get {s : State} {k : Nat} {o : Oscillator} (h : s.osc[k]? = some o) (f : Oscillator → Oscillator) :
    (s.mapOsc f).osc[k]? = some (f o) := by
  rw [mapOsc_getElem?, h, Option.map_some]

/-- Settles O19: every oscillator takes `Oscillator.noteOn`, which is the registers R291 lists. -/
theorem noteonReachesEveryTracker : Obligations.NoteonReachesEveryTracker := fun _ v p s hp =>
  ⟨_, exec_noteon hp v s, State.mapOsc_nOsc s _, rfl, fun _ _ ho => mapOsc_get ho (Oscillator.noteOn s.tick p)⟩

/-- R292: FREQ keeps its value in CONST mode, and where the stack has become empty. -/
theorem freqAfterNoteOff_of_kept {o : Oscillator} {stack : List Pitch} (h : o.pmode = .const ∨ stack = []) :
    freqAfterNoteOff o stack = o.freq := by
  cases stack with
  | nil => rfl
  | cons q l =>
    have hc : o.pmode = .const := h.resolve_right (List.cons_ne_nil q l)
    exact if_neg (by simp [hc])

/-- R292: in MIDI mode FREQ takes the front pitch of a stack that is not empty. -/
theorem freqAfterNoteOff_of_cons {o : Oscillator} (h : o.pmode = .midi) (q : Pitch) (l : List Pitch) :
    freqAfterNoteOff o (q :: l) = romHz q := if_pos h

/-- The new FREQ is read from the new stack. -/
theorem noteOff_freq (now : Stamp) (p : Pitch) (o : Oscillator) :
    (o.noteOff now p).freq = freqAfterNoteOff o (o.noteOff now p).pstack := rfl

/-- Settles O20: every oscillator takes `Oscillator.noteOff`, whose FREQ is read from the stack that is left. -/
theorem noteoffReachesEveryTracker : Obligations.NoteoffReachesEveryTracker := by
  intro a p s hp
  refine ⟨_, exec_noteoff hp s, State.mapOsc_nOsc s _, rfl, fun k o ho => ?_⟩
  refine ⟨o.noteOff s.tick p, mapOsc_get ho _, rfl, fun hkept => ?_, fun q l hmidi hstack => ?_⟩
  · rw [noteOff_freq, freqAfterNoteOff_of_kept hkept]
  · rw [noteOff_freq, hstack, freqAfterNoteOff_of_cons hmidi]

/-- Settles O21: the velocity stands in no part of a NOTEON's next state. -/
theorem velocityIsNotRead : Obligations.VelocityIsNotRead := fun a v v' s =>
  (exec_noteon (pitchOperand_val a) v s).trans (exec_noteon (pitchOperand_val a) v' s).symm

/-! ### PITCHBEND -/

/-- Two bytes of 7 bits fill PB, so its assembly never wraps. -/
theorem bendWord_toNat (lsb msb : BitVec 8) :
    (bendWord lsb msb).toNat = min msb.toNat 127 * 128 + min lsb.toNat 127 := by
  rw [bendWord, BitVec.toNat_ofNat, bendByteOperand_value, bendByteOperand_value]
  exact Nat.mod_eq_of_lt (by omega)

/-- An exact zero is its own rounding. -/
theorem fRound_zero (neg : Bool) {d : Nat} (hd : 0 < d) : fRound neg 0 d = fPack neg 0 := by
  rw [fRound, roundMag_zero hd]

/-- A finite value times +0.0 is the zero of its sign. -/
theorem fMul_fpZero {x : F64} (hx : fIsFinite x = true) : fMul x fpZero = fPack (fSign x) 0 := by
  have hmag : fMag fpZero = 0 := by decide
  have hsign : fSign fpZero = false := by decide
  rw [fMul_of_finite hx (by decide), hmag, hsign, Nat.mul_zero, Bool.bne_false, fRound_zero _ fUnit_pos]

/-- A twelfth of a zero is a zero of either sign. -/
theorem fIsZero_fDiv_fpTwelve (neg : Bool) : fIsZero (fDiv (fPack neg 0) fpTwelve) = true := by
  cases neg <;> decide +kernel

/-- R293: the centre bends by exactly 1.0, whatever the range: its exponent is a zero of the range's sign. -/
theorem bendOf_centre {range : F64} (h : fIsFinite range = true) : bendOf range 8192 = fpOne := by
  have hoffset : fDiv (fOfInt (((8192 : BitVec 14).toNat : Int) - 8192)) fp8192 = fpZero := by decide +kernel
  rw [bendOf, hoffset, fMul_fpZero h, fExp2, if_pos (fIsZero_fDiv_fpTwelve _)]

/-- PITCHBEND: the whole next state. -/
theorem exec_pitchbend (lsb msb : BitVec 8) (s : State) :
    exec (.pitchbend lsb msb) s = .next
      { s with
        pb := bendWord lsb msb, bend := bendOf s.params.pbRange (bendWord lsb msb)
        status := if 127 < lsb.toNat ∨ 127 < msb.toNat then s.status ||| 0x02 else s.status } := by
  rw [exec, execPitchbend, setInvalidIf_eq]
  simp only [bendByteOperand_invalid, Bool.or_eq_true, decide_eq_true_eq]

/-- Settles O22: PB is assembled without a wrap, BEND is its formula, and the centre leaves an exponent of zero. -/
theorem pitchbendWritesPbAndBend : Obligations.PitchbendWritesPbAndBend := by
  intro l m s
  refine ⟨_, exec_pitchbend l m s, rfl, bendWord_toNat l m, rfl, ?_⟩
  rintro rfl rfl hfin
  have hcentre : bendWord 0 64 = 8192 := by decide
  exact ⟨hcentre, hcentre ▸ bendOf_centre hfin⟩

end Sys2Proof.Machine
end

section
/-! The system commands (46_cmd_system.md): O23 and O24. QUIT's tick is the silent tick of the state its drain leaves. -/

namespace Sys2Proof.Machine

/-- Settles O23: RESETMIDI's meaning is the identity. -/
theorem resetmidiChangesNothing : Obligations.ResetmidiChangesNothing := fun _ => rfl

/-! ### QUIT -/

/-- The state QUIT leaves (R311). -/
def afterQuit (s : State) : State := { s with status := s.status ||| 0x08, fifo := [] }

theorem exec_quit (s : State) : exec .quit s = .next (afterQuit s) := rfl

/-- HALTED is among the bits that QUIT sets. -/
theorem afterQuit_halted (s : State) : (afterQuit s).halted = true :=
  (State.halted_setStatus s statusHALTED).trans (Bool.or_true _)

/-- A drain whose oldest entry is QUIT applies nothing else: whatever stands behind it is discarded. -/
theorem drain_of_quit {s : State} {w : CmdWord} {rest : List CmdWord} (hf : s.fifo = w :: rest)
    (hw : decode w = .ok .quit) : drain s = .next (afterQuit s) := by
  rw [drain_of_cons hf, applyWord_of_ok hw, exec_quit, andThen_next]
  exact drain_of_nil rfl

/-- Settles O24: QUIT ends the drain with an empty FIFO, and what is left of the tick finds the block halted. -/
theorem quitHaltsTheBlock : Obligations.QuitHaltsTheBlock := by
  refine ⟨exec_quit, fun s w rest hs hf hw => ?_⟩
  obtain ⟨-, silent⟩ := tick_of_drain hs (drain_of_quit hf hw) rfl
  exact silent (afterQuit_halted s)

end Sys2Proof.Machine
end

section
/-! The causes of INVALID and the completion of every command (60_exceptions.md): O7 and O25. The checks and the
operands of a command each add their own cause, so `SetsInvalidIf` has one rule per check, and what a command sets is
read off its meaning. -/

namespace Sys2Proof.Machine

/-- Settles O25: each meaning answers a next state in every branch, and so does the drop of a word that is none. -/
theorem everyCommandCompletes : Obligations.EveryCommandCompletes := ⟨exec_completes, applyWord_completes⟩

/-! ### What a meaning sets in STATUS -/

/-- The result is a next state whose STATUS is that of s, with INVALID added where c holds. -/
def SetsInvalidIf (s : State) (r : Result) (c : Bool) : Prop :=
  ∃ t, r = .next t ∧ t.status = s.status ||| (if c then 0x02 else 0x00)

section
variable {s : State}

theorem setsInvalidIf_dropInvalid (s : State) : SetsInvalidIf s (dropInvalid s) true := ⟨_, rfl, rfl⟩

theorem setsInvalidIf_false_of_status_eq {u : State} (h : u.status = s.status) : SetsInvalidIf s (.next u) false :=
  ⟨u, rfl, h.trans BitVec.or_zero.symm⟩

/-- An operand's INVALID, on an update that leaves STATUS. -/
theorem setsInvalidIf_setStatusIf {u : State} {c d : Bool} (h : u.status = s.status) (hc : c = d) :
    SetsInvalidIf s (.next (u.setStatusIf c statusINVALID)) d :=
  ⟨_, rfl, by rw [State.setStatusIf_status, h, hc]; rfl⟩

/-- Check 3 of R113 adds the index outside the bank to the causes. -/
theorem setsInvalidIf_withOsc {k : BitVec 8} {f : Oscillator → Result} {c : Bool} (hf : ∀ o, SetsInvalidIf s (f o) c) :
    SetsInvalidIf s (withOsc s k f) (!decide (k.toNat < s.nOsc) || c) := by
  by_cases hk : k.toNat < s.nOsc
  · obtain ⟨o, ho⟩ := s.get_of_lt hk
    rw [withOsc_of_get ho, decide_eq_true hk]
    exact hf o
  · rw [withOsc_of_nOsc_le (not_lt.mp hk), decide_eq_false hk]
    exact setsInvalidIf_dropInvalid s

/-- Check 4 of R113 adds the value that is not finite to the causes. -/
theorem setsInvalidIf_withFinite {v : F64} {r : Result} {c : Bool} (hr : SetsInvalidIf s r c) :
    SetsInvalidIf s (withFinite s v r) (!fIsFinite v || c) := by
  rcases hv : fIsFinite v
  · rw [withFinite_of_not_finite hv]
    exact setsInvalidIf_dropInvalid s
  · rw [withFinite_of_finite hv]
    exact hr

end

/-! ### The operands' ranges -/

/-- Above a bound is not within it, as the operands' INVALID and R115's ranges have it. -/
theorem decide_lt_eq_not_decide_le (m n : Nat) : decide (n < m) = !decide (m ≤ n) := by
  rw [← decide_not, decide_eq_decide, not_le]

theorem nonNegativeOperand_invalid (v : F64) : (nonNegativeOperand v).invalid = !!fLt v fpZero := by
  rw [nonNegativeOperand_eq, Bool.not_not]

theorem levelOperand_invalid (v : F64) : (levelOperand v).invalid = !(!fLt v fpZero && !fLt fpOne v) := by
  rw [levelOperand_eq, Bool.not_and, Bool.not_not, Bool.not_not]

theorem modeOperand_invalid (a : BitVec 8) : (modeOperand a).invalid = !decide (a.toNat ≤ 1) := by
  rw [modeOperand_eq, decide_lt_eq_not_decide_le]

theorem waveOperand_invalid (a : BitVec 8) : (waveOperand a).invalid = !decide (a.toNat ≤ 4) := by
  rw [waveOperand_eq, decide_lt_eq_not_decide_le]

theorem bendBytes_invalid (l m : BitVec 8) : ((bendByteOperand l).invalid || (bendByteOperand m).invalid) =
    !(decide (l.toNat ≤ 127) && decide (m.toNat ≤ 127)) := by
  rw [bendByteOperand_invalid, bendByteOperand_invalid, decide_lt_eq_not_decide_le, decide_lt_eq_not_decide_le,
    Bool.not_and]

/-! ### The commands other than OUTPUT and QUIT -/

/-- A command's word gives the causes of the two checks and of the operand's range; the causes of a route, which
`hroute` leaves out, are OUTPUT's alone (R332). -/
theorem causeOfInvalid_of_ok {w : CmdWord} {i : Instr} (hd : decode w = .ok i) (h8 : i.opcode ≠ 0x08) (s : State) :
    causeOfInvalid w s = (!i.indexInBank s.nOsc || (!i.valueFinite || !i.operandsInRange)) := by
  have hroute : causeOfInvalid w s =
      (!(i.indexInBank s.nOsc && i.valueFinite && i.operandsInRange && true) || false) := by
    rw [causeOfInvalid, hd]
    cases i with
    | output => exact absurd rfl h8
    | _ => rfl
  rw [hroute, Bool.or_false, Bool.and_true, Bool.not_and, Bool.not_and, Bool.or_assoc]

/-- What such a command sets: INVALID for an index outside the bank, a value that is not finite, or an operand outside
its range. -/
theorem exec_setsInvalidIf {i : Instr} (h8 : i.opcode ≠ 0x08) (hq : i ≠ .quit) (s : State) :
    SetsInvalidIf s (exec i s) (!i.indexInBank s.nOsc || (!i.valueFinite || !i.operandsInRange)) := by
  cases i with
  | bypass k a =>
    exact setsInvalidIf_withOsc fun _ => setsInvalidIf_setStatusIf rfl (decide_lt_eq_not_decide_le a.toNat 1)
  | pitchmode k a => exact setsInvalidIf_withOsc fun _ => setsInvalidIf_setStatusIf rfl (modeOperand_invalid a)
  | waveform k a => exact setsInvalidIf_withOsc fun _ => setsInvalidIf_setStatusIf rfl (waveOperand_invalid a)
  | coarse | fine | fmrange | gain =>
    exact setsInvalidIf_withOsc fun _ => setsInvalidIf_withFinite (setsInvalidIf_false_of_status_eq rfl)
  | freq k v =>
    exact setsInvalidIf_withOsc fun _ =>
      setsInvalidIf_withFinite (setsInvalidIf_setStatusIf rfl (nonNegativeOperand_invalid v))
  | attack v | decay v | release v =>
    exact setsInvalidIf_withFinite (setsInvalidIf_setStatusIf rfl (nonNegativeOperand_invalid v))
  | sustain v => exact setsInvalidIf_withFinite (setsInvalidIf_setStatusIf rfl (levelOperand_invalid v))
  | master => exact setsInvalidIf_withFinite (setsInvalidIf_false_of_status_eq rfl)
  | mixermode a => exact setsInvalidIf_setStatusIf rfl (modeOperand_invalid a)
  | noteon a | noteoff a => exact setsInvalidIf_setStatusIf rfl (decide_lt_eq_not_decide_le a.toNat 127)
  | pitchbend l m => exact setsInvalidIf_setStatusIf rfl (bendBytes_invalid l m)
  | resetmidi => exact setsInvalidIf_false_of_status_eq rfl
  | output => exact absurd rfl h8
  | quit => exact absurd rfl hq

/-! ### OUTPUT -/

/-- FMIN is empty exactly where there is no slot (R40). -/
theorem fmin_isEmpty (o : Oscillator) : o.fmin.isEmpty = o.slots.isEmpty := List.isEmpty_map

section
variable {w : CmdWord} {s : State} {i a b : BitVec 8} {oi : Oscillator}

/-- An index outside the bank is a cause, whatever the route. -/
theorem causeOfInvalid_output_of_nOsc_le (hd : decode w = .ok (.output i a b)) (h : s.nOsc ≤ i.toNat) :
    causeOfInvalid w s = true := by
  simp [causeOfInvalid, hd, Instr.wellFormed, Instr.indexInBank, Instr.oscIndex, h]

/-- On an oscillator of the bank the causes are an unknown kind and a rejected route (R332 cause 9, R237). -/
theorem causeOfInvalid_output_of_get (hd : decode w = .ok (.output i a b)) (hi : s.osc[i.toNat]? = some oi) :
    causeOfInvalid w s =
      ((targetOperand a b).invalid || routeRejected s i.toNat oi (targetOperand a b).value) := by
  have hlt : i.toNat < s.nOsc := s.lt_of_get hi
  have hself : (b.toNat == i.toNat) = (b == i) := by rw [Bool.eq_iff_iff, beq_iff_eq, beq_iff_eq, BitVec.toNat_inj]
  simp only [causeOfInvalid, hd, hi, Instr.wellFormed, Instr.indexInBank, Instr.oscIndex, Instr.valueFinite,
    Instr.value, Instr.operandsInRange, Instr.routeNamesOther, hlt, decide_true, Bool.true_and]
  by_cases ha : a = 1
  · subst ha
    rcases hb : s.osc[b.toNat]? with _ | oj
    · have hge : s.nOsc ≤ b.toNat := List.getElem?_eq_none_iff.mp hb
      simp [targetOperand, routeRejected, hb, hge]
    · have hblt : b.toNat < s.nOsc := s.lt_of_get hb
      simp [targetOperand, routeRejected, hb, hblt, hself, bne, fmin_isEmpty, Bool.or_assoc]
  · have hne : (a == 1#8) = false := beq_false_of_ne ha
    rw [targetOperand_of_ne_one ha]
    cases s.osc[b.toNat]? <;> simp [routeRejected, hne, bne, ← decide_lt_eq_not_decide_le]

/-- OUTPUT on an oscillator of the bank sets INVALID for those causes. -/
theorem exec_output_setsInvalidIf (hi : s.osc[i.toNat]? = some oi) : SetsInvalidIf s (exec (.output i a b) s)
    ((targetOperand a b).invalid || routeRejected s i.toNat oi (targetOperand a b).value) := by
  rcases hr : routeRejected s i.toNat oi (targetOperand a b).value
  · rw [Bool.or_false]
    by_cases he : (targetOperand a b).value = oi.out
    · rw [exec_output_of_present hi hr he]
      exact setsInvalidIf_setStatusIf rfl rfl
    · rw [exec_output_of_accepted hi hr he]
      exact setsInvalidIf_setStatusIf (by rw [reroute_frame]) rfl
  · rw [exec_output_of_rejected hi hr, Bool.or_true]
    exact setsInvalidIf_dropInvalid s

/-- What OUTPUT sets: INVALID for a cause of its word in the state. -/
theorem exec_output_setsInvalidIf_cause (hd : decode w = .ok (.output i a b)) :
    SetsInvalidIf s (exec (.output i a b) s) (causeOfInvalid w s) := by
  rcases lt_or_ge i.toNat s.nOsc with hlt | hle
  · obtain ⟨oi, hi⟩ := s.get_of_lt hlt
    rw [causeOfInvalid_output_of_get hd hi]
    exact exec_output_setsInvalidIf hi
  · rw [causeOfInvalid_output_of_nOsc_le hd hle, exec_of_nOsc_le rfl hle]
    exact setsInvalidIf_dropInvalid s

end

/-! ### The words of the FIFO -/

/-- A word other than QUIT sets INVALID for a cause of the table, and nothing else in STATUS. -/
theorem applyWord_setsInvalidIf {w : CmdWord} (hq : decode w ≠ .ok .quit) (s : State) :
    SetsInvalidIf s (applyWord w s) (causeOfInvalid w s) := by
  rcases hd : decode w with e | i
  · rw [applyWord_of_error hd, causeOfInvalid, hd]
    exact setsInvalidIf_dropInvalid s
  · rw [applyWord_of_ok hd]
    by_cases h8 : i.opcode = 0x08
    · obtain ⟨k, a, b, rfl⟩ := eq_output_of_opcode h8
      exact exec_output_setsInvalidIf_cause hd
    · rw [causeOfInvalid_of_ok hd h8]
      exact exec_setsInvalidIf h8 (fun h => hq (h ▸ hd)) s

/-- Settles O7: QUIT's meaning sets HALTED alone, and any other word sets INVALID for its causes alone. -/
theorem statusBitsOfACommand : Obligations.StatusBitsOfACommand := by
  intro w s
  by_cases hq : decode w = .ok .quit
  · exact ⟨afterQuit s, (applyWord_of_ok hq s).trans (exec_quit s), fun _ => rfl, fun h => absurd hq h⟩
  · obtain ⟨t, ht, hstatus⟩ := applyWord_setsInvalidIf hq s
    exact ⟨t, ht, fun h => absurd h hq, fun _ => hstatus⟩

end Sys2Proof.Machine
end
